-- ==== Sys2Proof/Word.lean ====
section
/-! DEFINITION. The 64-bit cell and the range of a signed 64-bit value (rules R7, R9, R51). -/

namespace Sys2Proof

/-- A memory cell, a queue entry, `IP` or `RB`: a signed 64-bit value, two's complement (R7, R51, R102). -/
abbrev Word := BitVec 64

/-- `INT64_MIN = -2^63` (R9). -/
def int64Min : Int := -9223372036854775808

/-- `INT64_MAX = 2^63 - 1` (R9). -/
def int64Max : Int := 9223372036854775807

/-- "Fits in int64" (R9). -/
abbrev FitsInt64 (v : Int) : Prop := int64Min ≤ v ∧ v ≤ int64Max

end Sys2Proof
end

