-- ==== Sys2Proof/Syntax.lean ====
section
/-! DEFINITION. The ten instructions of the closed opcode map (rules R2, R84), with their operands as the
decoder leaves them: a mode and a raw 64-bit cell each (rules R57, R80, R88). -/

namespace Sys2Proof

/-- The addressing modes of a read operand (R57). -/
inductive Mode where
  /-- mode digit 0: the raw cell is an address (R59) -/
  | position
  /-- mode digit 1: the raw cell is the value (R58) -/
  | immediate
  /-- mode digit 2: the raw cell plus `RB` is an address (R60) -/
  | relative
  deriving DecidableEq, Repr

/-- The addressing modes of a write operand: immediate is refused at decode (R61, R85). -/
inductive DestMode where
  | position
  | relative
  deriving DecidableEq, Repr

/-- A read operand: its mode and its raw operand cell (R17, R88). -/
structure Operand where
  mode : Mode
  raw  : Word
  deriving DecidableEq, Repr

/-- A write operand: its mode and its raw operand cell (R17, R88). -/
structure Dest where
  mode : DestMode
  raw  : Word
  deriving DecidableEq, Repr

/-- One constructor per row of the opcode table. `unused` is the value of the opcode cell
`div 10^(n+2)` for the row's operand count `n`: the digits rule R86 gives no meaning, kept because
`FAULT_VALUE` of an overflow is the whole opcode cell (R161; notes/assumptions/10.md). -/
inductive Instr where
  /-- opcode 1, `add a, b, c` (R100) -/
  | add (a b : Operand) (c : Dest) (unused : Nat)
  /-- opcode 2, `mul a, b, c` (R101) -/
  | mul (a b : Operand) (c : Dest) (unused : Nat)
  /-- opcode 3, `input a` (R110) -/
  | input (a : Dest) (unused : Nat)
  /-- opcode 4, `output a` (R112) -/
  | output (a : Operand) (unused : Nat)
  /-- opcode 5, `jump-if-true a, b` (R120) -/
  | jumpIfTrue (a b : Operand) (unused : Nat)
  /-- opcode 6, `jump-if-false a, b` (R121) -/
  | jumpIfFalse (a b : Operand) (unused : Nat)
  /-- opcode 7, `less-than a, b, c` (R130) -/
  | lessThan (a b : Operand) (c : Dest) (unused : Nat)
  /-- opcode 8, `equals a, b, c` (R131) -/
  | equals (a b : Operand) (c : Dest) (unused : Nat)
  /-- opcode 9, `adjust-relative-base a` (R140) -/
  | adjustRelativeBase (a : Operand) (unused : Nat)
  /-- opcode 99, `halt` (R150) -/
  | halt (unused : Nat)
  deriving DecidableEq, Repr

/-- The unused digits an instruction carries (R86). -/
def Instr.unused : Instr → Nat
  | .add _ _ _ u | .mul _ _ _ u | .lessThan _ _ _ u | .equals _ _ _ u => u
  | .jumpIfTrue _ _ u | .jumpIfFalse _ _ u => u
  | .input _ u | .output _ u | .adjustRelativeBase _ u => u
  | .halt u => u

end Sys2Proof
end

