-- ==== Sys2Proof/Decode.lean ====
section
/-! DEFINITION. Decimal decoding of an opcode cell and its operand cells (rules R80 to R91), total and
refusing by name, and after it the encoder (rule R93). -/

namespace Sys2Proof

/-- `digit_k(v) = (v div 10^k) mod 10` (R10). -/
def digit (k v : Nat) : Nat := v / 10 ^ k % 10

/-- The decode faults of rule R90, by name. -/
inductive DecodeFault where
  /-- negative cell, or an opcode outside the map (R82, R84) -/
  | illegalOpcode
  /-- a used mode digit outside 0, 1, 2, or a nonzero unused digit under `STRICT_DECODE` (R85, R86) -/
  | illegalMode
  /-- a write operand in immediate mode (R85) -/
  | immediateWrite
  deriving DecidableEq, Repr

/-- The mode of a read operand's digit (R57, R85). -/
def modeOf : Nat → Except DecodeFault Mode
  | 0 => .ok .position
  | 1 => .ok .immediate
  | 2 => .ok .relative
  | _ => .error .illegalMode

/-- The mode of a write operand's digit (R57, R85): immediate is `ImmediateWrite`. -/
def destModeOf : Nat → Except DecodeFault DestMode
  | 0 => .ok .position
  | 1 => .error .immediateWrite
  | 2 => .ok .relative
  | _ => .error .illegalMode

/-- The check on unused digits (R86): under `STRICT_DECODE` they must be zero. -/
def unusedOf (strict : Bool) (u : Nat) : Except DecodeFault Nat :=
  if strict && u != 0 then .error .illegalMode else .ok u

/-- A read operand whose cell is not fetched yet. -/
def Mode.pending (m : Mode) : Operand := ⟨m, 0⟩

/-- A write operand whose cell is not fetched yet. -/
def DestMode.pending (m : DestMode) : Dest := ⟨m, 0⟩

/-- Format F3 (R80): modes of operands 1 to 3, in ascending order (R85), then the unused digits.
The write operand is the last, so taking the digits in order gives R89's order of raises. -/
def decodeF3 (mk : Operand → Operand → Dest → Nat → Instr) (strict : Bool) (v : Nat) :
    Except DecodeFault Instr := do
  let m1 ← modeOf (digit 2 v)
  let m2 ← modeOf (digit 3 v)
  let m3 ← destModeOf (digit 4 v)
  let u ← unusedOf strict (v / 100000)
  pure (mk m1.pending m2.pending m3.pending u)

/-- Format F2R (R80). -/
def decodeF2R (mk : Operand → Operand → Nat → Instr) (strict : Bool) (v : Nat) :
    Except DecodeFault Instr := do
  let m1 ← modeOf (digit 2 v)
  let m2 ← modeOf (digit 3 v)
  let u ← unusedOf strict (v / 10000)
  pure (mk m1.pending m2.pending u)

/-- Format F1R (R80). -/
def decodeF1R (mk : Operand → Nat → Instr) (strict : Bool) (v : Nat) : Except DecodeFault Instr := do
  let m1 ← modeOf (digit 2 v)
  let u ← unusedOf strict (v / 1000)
  pure (mk m1.pending u)

/-- Format F1W (R80). -/
def decodeF1W (mk : Dest → Nat → Instr) (strict : Bool) (v : Nat) : Except DecodeFault Instr := do
  let m1 ← destModeOf (digit 2 v)
  let u ← unusedOf strict (v / 1000)
  pure (mk m1.pending u)

/-- Format F0 (R80). -/
def decodeF0 (mk : Nat → Instr) (strict : Bool) (v : Nat) : Except DecodeFault Instr := do
  let u ← unusedOf strict (v / 100)
  pure (mk u)

/-- Decode of a non-negative opcode cell by its two lowest digits (R82, R84). -/
def decodeDigits (strict : Bool) (v : Nat) : Except DecodeFault Instr :=
  match v % 100 with
  | 1 => decodeF3 .add strict v
  | 2 => decodeF3 .mul strict v
  | 3 => decodeF1W .input strict v
  | 4 => decodeF1R .output strict v
  | 5 => decodeF2R .jumpIfTrue strict v
  | 6 => decodeF2R .jumpIfFalse strict v
  | 7 => decodeF3 .lessThan strict v
  | 8 => decodeF3 .equals strict v
  | 9 => decodeF1R .adjustRelativeBase strict v
  | 99 => decodeF0 .halt strict v
  | _ => .error .illegalOpcode

/-- Decode of an opcode cell alone (R89, all but the operand fetch): the instruction it names, its
operand cells not fetched yet (raw 0). A negative cell is `IllegalOpcode` (R82). -/
def decodeOpcell (strict : Bool) (c : Word) : Except DecodeFault Instr :=
  if c.toInt < 0 then .error .illegalOpcode else decodeDigits strict c.toNat

/-- Operand count `n` of each instruction (R7, R84). -/
def Instr.operandCount : Instr → Nat
  | .add .. | .mul .. | .lessThan .. | .equals .. => 3
  | .jumpIfTrue .. | .jumpIfFalse .. => 2
  | .input .. | .output .. | .adjustRelativeBase .. => 1
  | .halt .. => 0

/-- Instruction width `1 + n` (R17, R87). -/
def Instr.width (i : Instr) : Nat := 1 + i.operandCount

/-- Puts the fetched operand cells in place, first cell first (R83, R88). -/
def Instr.fill (i : Instr) (raws : List Word) : Instr :=
  let r (k : Nat) : Word := raws.getD k 0
  match i with
  | .add a b c u => .add ⟨a.mode, r 0⟩ ⟨b.mode, r 1⟩ ⟨c.mode, r 2⟩ u
  | .mul a b c u => .mul ⟨a.mode, r 0⟩ ⟨b.mode, r 1⟩ ⟨c.mode, r 2⟩ u
  | .input a u => .input ⟨a.mode, r 0⟩ u
  | .output a u => .output ⟨a.mode, r 0⟩ u
  | .jumpIfTrue a b u => .jumpIfTrue ⟨a.mode, r 0⟩ ⟨b.mode, r 1⟩ u
  | .jumpIfFalse a b u => .jumpIfFalse ⟨a.mode, r 0⟩ ⟨b.mode, r 1⟩ u
  | .lessThan a b c u => .lessThan ⟨a.mode, r 0⟩ ⟨b.mode, r 1⟩ ⟨c.mode, r 2⟩ u
  | .equals a b c u => .equals ⟨a.mode, r 0⟩ ⟨b.mode, r 1⟩ ⟨c.mode, r 2⟩ u
  | .adjustRelativeBase a u => .adjustRelativeBase ⟨a.mode, r 0⟩ u
  | .halt u => .halt u

/-- Why a list of cells is not an instruction. -/
inductive DecodeError where
  /-- the opcode cell is illegal (R90) -/
  | illegal (f : DecodeFault)
  /-- the list ends before the cell at this offset from the opcode cell -/
  | missingCell (offset : Nat)
  deriving DecidableEq, Repr

/-- Decode of a list of cells: the instruction at its front and the cells after it (R89). -/
def decode (strict : Bool) : List Word → Except DecodeError (Instr × List Word)
  | [] => .error (.missingCell 0)
  | c :: rest =>
    match decodeOpcell strict c with
    | .error f => .error (.illegal f)
    | .ok shape =>
      if rest.length < shape.operandCount then .error (.missingCell (rest.length + 1))
      else .ok (shape.fill (rest.take shape.operandCount), rest.drop shape.operandCount)

/-! ### The encoder (R93) -/

/-- The digit of a read operand's mode (R57). -/
def Mode.code : Mode → Nat
  | .position => 0
  | .immediate => 1
  | .relative => 2

/-- The digit of a write operand's mode (R57). -/
def DestMode.code : DestMode → Nat
  | .position => 0
  | .relative => 2

/-- Opcode number of each instruction (R84). -/
def Instr.opcode : Instr → Nat
  | .add .. => 1
  | .mul .. => 2
  | .input .. => 3
  | .output .. => 4
  | .jumpIfTrue .. => 5
  | .jumpIfFalse .. => 6
  | .lessThan .. => 7
  | .equals .. => 8
  | .adjustRelativeBase .. => 9
  | .halt .. => 99

/-- The mode digits above the opcode, `m1 + 10·m2 + 100·m3` with 0 for absent operands (R80, R93). -/
def Instr.modeDigits : Instr → Nat
  | .add a b c _ | .mul a b c _ | .lessThan a b c _ | .equals a b c _ =>
    a.mode.code + 10 * b.mode.code + 100 * c.mode.code
  | .jumpIfTrue a b _ | .jumpIfFalse a b _ => a.mode.code + 10 * b.mode.code
  | .output a _ | .adjustRelativeBase a _ => a.mode.code
  | .input a _ => a.mode.code
  | .halt _ => 0

/-- The value of the opcode cell: `opcode + 100·m1 + 1000·m2 + 10000·m3` (R93), and above it the unused
digits at `10^(n+2)` (R86). -/
def Instr.opcellValue (i : Instr) : Nat :=
  i.opcode + 100 * i.modeDigits + 10 ^ (i.operandCount + 2) * i.unused

/-- The opcode cell (R17). -/
def Instr.opcell (i : Instr) : Word := BitVec.ofNat 64 i.opcellValue

/-- The operand cells in order (R80). -/
def Instr.raws : Instr → List Word
  | .add a b c _ | .mul a b c _ | .lessThan a b c _ | .equals a b c _ => [a.raw, b.raw, c.raw]
  | .jumpIfTrue a b _ | .jumpIfFalse a b _ => [a.raw, b.raw]
  | .output a _ | .adjustRelativeBase a _ => [a.raw]
  | .input a _ => [a.raw]
  | .halt _ => []

/-- The cells of an instruction (R93). -/
def encode (i : Instr) : List Word := i.opcell :: i.raws

/-- The pseudo-instruction `jmp t`: `jump-if-true #1, t` (R94). -/
def Instr.jmp (t : Operand) : Instr := .jumpIfTrue ⟨.immediate, 1⟩ t 0

/-! ### The opcode table's numbering -/

/-- Splits a number into `n` cells of 64 bits, the lowest bits in the first cell. -/
def cellsOf : Nat → Nat → List Word
  | 0, _ => []
  | n + 1, w => BitVec.ofNat 64 w :: cellsOf n (w / 2 ^ 64)

/-- The four cells, the longest instruction (R80), of an instruction given as a number of `nbits` bits,
bit 0 the least significant bit of the opcode cell (notes/assumptions/20.md). -/
def tableCells (nbits w : Nat) : List Word := cellsOf 4 (w % 2 ^ nbits)

/-- The instruction the decoder reads from a word of the opcode table, unused digits ignored
(`STRICT_DECODE = false`, the default of R8). -/
def decodeTableWord (nbits w : Nat) : Option Instr :=
  match decode false (tableCells nbits w) with
  | .ok (i, _) => some i
  | .error _ => none

end Sys2Proof
end

