-- ==== Sys2Proof/Config.lean ====
section
/-! DEFINITION. The four parameters the spec leaves open (rules R8, R22; decisions D2, D3, D4, D14).
They are carried as a record inside State that no step changes, so that every statement over all states
is a statement over all their values (notes/assumptions/1.md). -/

namespace Sys2Proof

/-- `OVERFLOW_MODE` (R8, D4): what a result outside int64 does. -/
inductive OverflowMode where
  /-- raise `ArithOverflow` (the default) -/
  | trap
  /-- keep the two's-complement wrap -/
  | wrap
  deriving DecidableEq, Repr

/-- The parameters of one implementation (R8). -/
structure Config where
  /-- `MEM_CELLS`: addresses `0 .. memCells - 1` exist (R50). -/
  memCells : Nat
  /-- `IN_DEPTH`: capacity of the input queue, `none` for the unbounded queue (R36, D3). -/
  inDepth : Option Nat
  /-- `OVERFLOW_MODE` (R13). -/
  overflowMode : OverflowMode
  /-- `STRICT_DECODE`: must unused digits of the opcode cell be zero (R86). -/
  strictDecode : Bool
  deriving DecidableEq, Repr

/-- The ranges of rule R8: `MEM_CELLS` in `[1, 2^63 - 1]`, `IN_DEPTH` at least 1 or infinite. -/
def Config.wf (c : Config) : Bool :=
  decide (1 ≤ c.memCells) && decide ((c.memCells : Int) ≤ int64Max) &&
    (match c.inDepth with
     | none => true
     | some d => decide (1 ≤ d))

/-- The parameters `State.reset` is given: the defaults of rule R8 where it has them, and for the two it
leaves open the start state of 95_test_vectors.md (`MEM_CELLS = 2^20`) and the unbounded queue of D3.
DESIGN CHOICE, unsafe: notes/assumptions/2.md. -/
def Config.initial : Config :=
  { memCells := 1048576, inDepth := none, overflowMode := .trap, strictDecode := false }

end Sys2Proof
end

