-- ==== Sys2Proof/Machine/State.lean ====
section
/-! DEFINITION. The state record of one VM instance (rule R20), as plain data, and reset (rule R200). -/

namespace Sys2Proof.Machine

/-- Memory: the cells that hold a nonzero value, by address. A cell the list does not name holds 0 (R52, R200).
The machine has no bytes (R63), so an entry is a whole cell. -/
abbrev Memory := List (Nat × Word)

/-- The canonical form from address `lo` on: addresses strictly rising, no entry equal to 0. -/
def Memory.wfFrom : Nat → Memory → Bool
  | _, [] => true
  | lo, (k, w) :: m => decide (lo ≤ k) && decide (w ≠ 0) && Memory.wfFrom (k + 1) m

/-- The canonical form: addresses strictly rising, no entry equal to what an unlisted cell reads as. -/
def Memory.wf (m : Memory) : Bool := Memory.wfFrom 0 m

/-- `CAUSE` (R31, R160): the fault that stopped the core. Its 3-bit code is `Cause.code`. -/
inductive Cause where
  | none
  | illegalOpcode
  | illegalMode
  | immediateWrite
  | negativeAddress
  | addressRange
  | arithOverflow
  deriving DecidableEq, Repr

/-- `raise C(v)` (R14): the cause and the value that `FAULT_VALUE` is to hold, computed in ℤ (R161). -/
structure Raise where
  cause : Cause
  value : Int
  deriving DecidableEq, Repr

/-- The state of one VM instance (R20). -/
structure State where
  /-- the parameters of rule R8; not state of the machine (R22), changed by no step -/
  cfg : Config
  /-- `MEM` (R35, R50) -/
  mem : Memory
  /-- `IP`, signed 64-bit (R24, R25) -/
  ip : Word
  /-- `RB`, signed 64-bit (R29) -/
  rb : Word
  /-- `HALTED` (R28) -/
  halted : Bool
  /-- `INQ`, front first (R36) -/
  inq : List Word
  /-- `OUTLOG`, oldest first (R37) -/
  outlog : List Word
  /-- `KEEP_LAST` (R30) -/
  keepLast : Bool
  /-- `CAUSE` (R31) -/
  cause : Cause
  /-- `FAULT_IP` (R32) -/
  faultIp : Word
  /-- `FAULT_VALUE`, signed 65-bit (R33) -/
  faultValue : BitVec 65
  /-- `MEM_EXTENT` (R38, R73) -/
  memExtent : Nat
  deriving DecidableEq, Repr

/-- Reasons for a step to stop outside the spec's own fault entry: there are none. Every fault of rule R160
is taken as rule R162 says and is a NEXT state, and a stall or a disabled core leaves the state as it is
(R111, R170). Nobody raises a member of this type, which is safe (notes/assumptions/7.md). -/
inductive Fault where
  deriving DecidableEq, Repr

/-- Reasons to refuse an instruction. -/
inductive Refusal where
  /-- raised by an arm of `exec` whose instruction has no meaning yet; safe; no arm raises it -/
  | notModelled (mnemonic : String)
  deriving DecidableEq, Repr

/-- The machine right after reset (R200) with no program image placed: `MEM_EXTENT` is 1, the least value
rule R20 allows and that of the one-cell image `0` (DESIGN CHOICE, unsafe: notes/assumptions/3.md). A reset
with an image is `resetWith` in Machine/Loader.lean. -/
def State.reset : State :=
  { cfg := Config.initial
    mem := []
    ip := 0
    rb := 0
    halted := false
    inq := []
    outlog := []
    keepLast := false
    cause := .none
    faultIp := 0
    faultValue := 0
    memExtent := 1 }

end Sys2Proof.Machine
end

