-- ==== Sys2Proof/Machine/Memory.lean ====
section
/-! DEFINITION. Reading and writing one cell of the memory list (rules R50 to R52). The address checks of
rules R54 and R55 stand in Machine/Ops.lean. -/

namespace Sys2Proof.Machine

/-- `MEM[a]`: the listed value, or 0 for a cell the list does not name (R52). -/
def Memory.read : Memory → Nat → Word
  | [], _ => 0
  | (k, w) :: m, a => if k = a then w else Memory.read m a

/-- `MEM[a] <- v`, keeping the canonical form: writing 0 removes the entry. -/
def Memory.write : Memory → Nat → Word → Memory
  | [], a, v => if v = 0 then [] else [(a, v)]
  | (k, w) :: m, a, v =>
    if a < k then
      if v = 0 then (k, w) :: m else (a, v) :: (k, w) :: m
    else if a = k then
      if v = 0 then m else (a, v) :: m
    else (k, w) :: Memory.write m a v

/-- Writes a list of cells from address `a` up (the program image, R200). -/
def Memory.writeList : Memory → Nat → List Word → Memory
  | m, _, [] => m
  | m, a, v :: vs => Memory.writeList (m.write a v) (a + 1) vs

/-- Every listed cell lies below `n`. -/
def Memory.below (m : Memory) (n : Nat) : Bool := m.all fun e => decide (e.1 < n)

end Sys2Proof.Machine
end

