-- ==== Sys2Proof/Machine/Ops.lean ====
section
/-! DEFINITION. The shared operations of a step: the checked memory read (rule R54), the extent bookkeeping
(rule R73), advancing `IP` (rule R26), the commit, and taking a fault (rule R162). -/

namespace Sys2Proof.Machine

/-- The 3-bit code of `CAUSE` (R160). -/
def Cause.code : Cause → BitVec 3
  | .none => 0
  | .illegalOpcode => 1
  | .illegalMode => 2
  | .immediateWrite => 3
  | .negativeAddress => 4
  | .addressRange => 5
  | .arithOverflow => 6

/-- The address check of every access, on an exact integer (R53, R54, R56). -/
def checkAddr (cfg : Config) (a : Int) : Except Raise Nat :=
  if a < 0 then .error ⟨.negativeAddress, a⟩
  else if (cfg.memCells : Int) ≤ a then .error ⟨.addressRange, a⟩
  else .ok a.toNat

/-- `MemRead(a, 1)` (R54). The address it touches is accounted for at commit (`touch`). -/
def memRead (s : State) (a : Int) : Except Raise Word := do
  let n ← checkAddr s.cfg a
  pure (s.mem.read n)

/-- `MEM_EXTENT` after accesses at the given addresses: the largest of the old extent and each address
plus one (R73). -/
def extentAfter (extent : Nat) (touched : List Int) : Nat :=
  touched.foldl (fun e a => max e (a.toNat + 1)) extent

/-- The cells an instruction with `n` operands is fetched from: `IP .. IP + n` (R73, R81, R83). -/
def fetchTouches (s : State) (n : Nat) : List Int :=
  (List.range (n + 1)).map fun (k : Nat) => s.ip.toInt + (k : Int)

/-- The extent bookkeeping of a committing step: its fetches and its further accesses (R73). -/
def touch (s : State) (n : Nat) (touched : List Int) : State :=
  { s with memExtent := extentAfter s.memExtent (fetchTouches s n ++ touched) }

/-- `IP <- IP + 1 + n` for an instruction with `n` operands (R26). It cannot wrap for a fetched
instruction (R27). -/
def nextIp (s : State) (n : Nat) : Word := s.ip + BitVec.ofNat 64 (n + 1)

/-- Commit of an instruction with `n` operands: extent and `IP` (R26, R62, R73). -/
def commit (s : State) (n : Nat) (touched : List Int) : State :=
  { touch s n touched with ip := nextIp s n }

/-- Commit of an instruction whose single write is `MEM[d] <- v` (R55, R62). -/
def commitStore (s : State) (n : Nat) (touched : List Int) (d : Nat) (v : Word) : State :=
  { commit s n (touched ++ [(d : Int)]) with mem := s.mem.write d v }

/-- Fault entry (R162): three registers are written and nothing else changes. -/
def takeFault (s : State) (r : Raise) : State :=
  { s with cause := r.cause, faultIp := s.ip, faultValue := BitVec.ofInt 65 r.value }

/-- The end of a step that began in `s`: it commits, or it takes the fault it raised (R14, R169). -/
def finish (s : State) : Except Raise State → Host.Outcome State Fault Refusal
  | .ok t => .next t
  | .error r => .next (takeFault s r)

end Sys2Proof.Machine
end

