-- ==== Sys2Proof/Machine/Flags.lean ====
section
/-! DEFINITION. The overflow check of the arithmetic instructions (rules R13, R102) and the 1 or 0 a
comparison writes (rules R130, R131). The machine has no condition codes (rule R28). -/

namespace Sys2Proof.Machine

/-- `wrap64(v)`: the int64 value congruent to `v` modulo 2^64 (R13). -/
def wrap64 (v : Int) : Word := BitVec.ofInt 64 v

/-- `arith64(v)` (R13): the exact result when it fits; otherwise `OVERFLOW_MODE` decides.
`opcell` is the opcode cell of the executing instruction. -/
def arith64 (cfg : Config) (opcell : Word) (v : Int) : Except Raise Word :=
  if int64Min ≤ v ∧ v ≤ int64Max then .ok (BitVec.ofInt 64 v)
  else
    match cfg.overflowMode with
    | .trap => .error ⟨.arithOverflow, opcell.toInt⟩
    | .wrap => .ok (wrap64 v)

/-- What a comparison writes: 1 or 0 (R130, R131). -/
def boolCell (b : Bool) : Word := if b then 1 else 0

end Sys2Proof.Machine
end

