-- ==== Sys2Proof/Machine/Operands.lean ====
section
/-! DEFINITION. Operand resolution: every addressing mode of a read operand and of a write operand
(rules R56 to R61, R88). -/

namespace Sys2Proof.Machine

/-- The effective address of a read operand, exact in ℤ; an immediate has none (R56, R58 to R60). -/
def operandAddress (s : State) (o : Operand) : Option Int :=
  match o.mode with
  | .position => some o.raw.toInt
  | .immediate => none
  | .relative => some (o.raw.toInt + s.rb.toInt)

/-- `ReadOperand(k)` (R58 to R60). -/
def readOperand (s : State) (o : Operand) : Except Raise Word :=
  match operandAddress s o with
  | none => .ok o.raw
  | some a => memRead s a

/-- The address a write operand names, exact in ℤ (R56, R61). -/
def destAddress (s : State) (d : Dest) : Int :=
  match d.mode with
  | .position => d.raw.toInt
  | .relative => d.raw.toInt + s.rb.toInt

/-- `WriteAddr(k)` (R61): checked, not written. -/
def writeAddr (s : State) (d : Dest) : Except Raise Nat := checkAddr s.cfg (destAddress s d)

/-- The addresses a read operand touches (R73). -/
def operandTouches (s : State) (o : Operand) : List Int := (operandAddress s o).toList

end Sys2Proof.Machine
end

