-- ==== Sys2Proof/Machine/Arithmetic.lean ====
section
/-! DEFINITION. add and mul (rules R100, R101), and the shape they share with the comparisons: two reads, a
write address, a result, one store (rule R62). -/

namespace Sys2Proof.Machine

/-- The three-operand step of rule R62: read `a`, read `b`, resolve the write address, compute, store. -/
def storeResult (a b : Operand) (c : Dest) (f : Word → Word → Except Raise Word) (s : State) :
    Except Raise State := do
  let x ← readOperand s a
  let y ← readOperand s b
  let d ← writeAddr s c
  let r ← f x y
  pure (commitStore s 3 (operandTouches s a ++ operandTouches s b) d r)

/-- `add a, b, c` (R100). -/
def execAdd (a b : Operand) (c : Dest) (unused : Nat) (s : State) : Host.Outcome State Fault Refusal :=
  finish s <| storeResult a b c
    (fun x y => arith64 s.cfg (Instr.add a b c unused).opcell (x.toInt + y.toInt)) s

/-- `mul a, b, c` (R101). -/
def execMul (a b : Operand) (c : Dest) (unused : Nat) (s : State) : Host.Outcome State Fault Refusal :=
  finish s <| storeResult a b c
    (fun x y => arith64 s.cfg (Instr.mul a b c unused).opcell (x.toInt * y.toInt)) s

end Sys2Proof.Machine
end

