-- ==== Sys2Proof/Machine/Compare.lean ====
section
/-! DEFINITION. The comparisons (rules R130, R131). -/

namespace Sys2Proof.Machine

/-- `less-than a, b, c` (R130): the signed comparison. -/
def execLessThan (a b : Operand) (c : Dest) (_unused : Nat) (s : State) :
    Host.Outcome State Fault Refusal :=
  finish s <| storeResult a b c (fun x y => .ok (boolCell (decide (x.toInt < y.toInt)))) s

/-- `equals a, b, c` (R131): exact 64-bit equality. -/
def execEquals (a b : Operand) (c : Dest) (_unused : Nat) (s : State) :
    Host.Outcome State Fault Refusal :=
  finish s <| storeResult a b c (fun x y => .ok (boolCell (decide (x.toInt = y.toInt)))) s

end Sys2Proof.Machine
end

