-- ==== Sys2Proof/Machine/Halt.lean ====
section
/-! DEFINITION. halt (rules R150, R151). -/

namespace Sys2Proof.Machine

/-- `halt` (R150): `HALTED <- 1`, `IP` unchanged; only the opcode cell was fetched. -/
def execHalt (_unused : Nat) (s : State) : Host.Outcome State Fault Refusal :=
  finish s (.ok { touch s 0 [] with halted := true })

end Sys2Proof.Machine
end

