-- ==== Sys2Proof/Machine/InputOutput.lean ====
section
/-! DEFINITION. input and output (rules R110 to R113). -/

namespace Sys2Proof.Machine

/-- `INQ` after an input instruction has taken its front value: the last value stays when `KEEP_LAST` is
set (R110). -/
def takeInput (keepLast : Bool) (q : List Word) : List Word :=
  if q.length = 1 ∧ keepLast then q else q.tail

/-- `input a` (R110): address faults first, then the stall on an empty queue, which leaves the state as it
was (R111), then the store. -/
def execInput (a : Dest) (_unused : Nat) (s : State) : Host.Outcome State Fault Refusal :=
  finish s <| do
    let d ← writeAddr s a
    match s.inq with
    | [] => pure s
    | v :: _ => pure { commitStore s 1 [] d v with inq := takeInput s.keepLast s.inq }

/-- `output a` (R112). -/
def execOutput (a : Operand) (_unused : Nat) (s : State) : Host.Outcome State Fault Refusal :=
  finish s <| do
    let x ← readOperand s a
    pure { commit s 1 (operandTouches s a) with outlog := s.outlog ++ [x] }

end Sys2Proof.Machine
end

