-- ==== Sys2Proof/Machine/Jumps.lean ====
section
/-! DEFINITION. The conditional jumps (rules R120 to R122). -/

namespace Sys2Proof.Machine

/-- A jump taken when `taken` holds of the condition; the target operand is resolved, and touched, only
then, and may be any int64 value (R120, D17, D33). -/
def jumpWhen (taken : Word → Bool) (a b : Operand) (s : State) : Except Raise State := do
  let x ← readOperand s a
  if taken x then
    let t ← readOperand s b
    pure { touch s 2 (operandTouches s a ++ operandTouches s b) with ip := t }
  else
    pure (commit s 2 (operandTouches s a))

/-- `jump-if-true a, b` (R120). -/
def execJumpIfTrue (a b : Operand) (_unused : Nat) (s : State) : Host.Outcome State Fault Refusal :=
  finish s <| jumpWhen (fun x => x.toInt != 0) a b s

/-- `jump-if-false a, b` (R121). -/
def execJumpIfFalse (a b : Operand) (_unused : Nat) (s : State) : Host.Outcome State Fault Refusal :=
  finish s <| jumpWhen (fun x => x.toInt == 0) a b s

end Sys2Proof.Machine
end

