-- ==== Sys2Proof/Machine/RelativeBase.lean ====
section
/-! DEFINITION. adjust-relative-base (rule R140). -/

namespace Sys2Proof.Machine

/-- `adjust-relative-base a` (R140): the operand is read with the old base. -/
def execAdjustRelativeBase (a : Operand) (unused : Nat) (s : State) :
    Host.Outcome State Fault Refusal :=
  finish s <| do
    let x ← readOperand s a
    let r ← arith64 s.cfg (Instr.adjustRelativeBase a unused).opcell (s.rb.toInt + x.toInt)
    pure { commit s 1 (operandTouches s a) with rb := r }

end Sys2Proof.Machine
end

