-- ==== Sys2Proof/Machine/Dispatch.lean ====
section
/-! DEFINITION. One arm per instruction of the closed opcode map (rule R84): the family rule a step runs
after fetch and decode (rule R89). -/

namespace Sys2Proof.Machine

/-- The effect of a decoded instruction on a state (R100 to R150). -/
def exec (i : Instr) (s : State) : Host.Outcome State Fault Refusal :=
  match i with
  | .add a b c u => Sys2Proof.Machine.execAdd a b c u s
  | .mul a b c u => Sys2Proof.Machine.execMul a b c u s
  | .input a u => Sys2Proof.Machine.execInput a u s
  | .output a u => Sys2Proof.Machine.execOutput a u s
  | .jumpIfTrue a b u => Sys2Proof.Machine.execJumpIfTrue a b u s
  | .jumpIfFalse a b u => Sys2Proof.Machine.execJumpIfFalse a b u s
  | .lessThan a b c u => Sys2Proof.Machine.execLessThan a b c u s
  | .equals a b c u => Sys2Proof.Machine.execEquals a b c u s
  | .adjustRelativeBase a u => Sys2Proof.Machine.execAdjustRelativeBase a u s
  | .halt u => Sys2Proof.Machine.execHalt u s

end Sys2Proof.Machine
end

