-- ==== Sys2Proof/Machine/Fetch.lean ====
section
/-! DEFINITION. The front half of every step (rules R81 to R89): fetch, decode, operand fetch; the state
view `STATUS` (rule R34); and placing cells where the next step fetches. -/

namespace Sys2Proof.Machine

/-- The fault a decode refusal raises, with the opcode cell as its value (R89, R161). -/
def decodeRaise (c : Word) : DecodeFault → Raise
  | .illegalOpcode => ⟨.illegalOpcode, c.toInt⟩
  | .illegalMode => ⟨.illegalMode, c.toInt⟩
  | .immediateWrite => ⟨.immediateWrite, c.toInt⟩

/-- Operand fetch (R83): the cells at `a`, `a + 1`, .. in ascending order, `n` of them. -/
def fetchCells (s : State) : Int → Nat → Except Raise (List Word)
  | _, 0 => .ok []
  | a, n + 1 => do
    let w ← memRead s a
    let ws ← fetchCells s (a + 1) n
    pure (w :: ws)

/-- `Decode()` (R89): the opcode cell, its legality, then the operand cells. -/
def fetch (s : State) : Except Raise Instr := do
  let c ← memRead s s.ip.toInt
  match decodeOpcell s.cfg.strictDecode c with
  | .error f => .error (decodeRaise c f)
  | .ok shape => do
    let raws ← fetchCells s (s.ip.toInt + 1) shape.operandCount
    pure (shape.fill raws)

/-- `STATUS` by name (R34, R193). -/
inductive Status where
  | ready
  | halted
  | awaitingInput
  | faulted
  deriving DecidableEq, Repr

/-- The 2-bit value of `STATUS` (R34, D9). -/
def Status.code : Status → BitVec 2
  | .ready => 0
  | .halted => 1
  | .awaitingInput => 2
  | .faulted => 3

/-- The instruction at `IP` decodes as input with no fault up to its stall check, and `INQ` is empty
(R34, R111). -/
def wouldStall (s : State) : Bool :=
  match fetch s with
  | .ok (.input d _) =>
    (match writeAddr s d with
     | .ok _ => s.inq.isEmpty
     | .error _ => false)
  | _ => false

/-- `STATUS` (R34): the first matching line wins. -/
def status (s : State) : Status :=
  if s.cause ≠ .none then .faulted
  else if s.halted then .halted
  else if wouldStall s then .awaitingInput
  else .ready

/-- The core is enabled to step (R169). -/
def enabled (s : State) : Bool := decide (s.cause = .none) && !s.halted && !wouldStall s

/-- Stores cells from address `a` up, leaving out any address that does not exist; `MEM_EXTENT` covers the
cells stored, as after a poke (R182). -/
def placeCells (s : State) : Int → List Word → State
  | _, [] => s
  | a, w :: ws =>
    match checkAddr s.cfg a with
    | .ok n =>
      placeCells { s with mem := s.mem.write n w, memExtent := max s.memExtent (n + 1) } (a + 1) ws
    | .error _ => placeCells s (a + 1) ws

end Sys2Proof.Machine
end

