-- ==== Sys2Proof/Machine/Step.lean ====
section
/-! DEFINITION. One host STEP command (rules R169, R170, R184), and placing an instruction where the next
step fetches it. -/

namespace Sys2Proof.Machine

/-- One STEP (R184): a halted or faulted core changes nothing (R170); otherwise fetch and decode, which
may fault (R89, R162), then the instruction's own rule. An input stall changes nothing either (R111):
that is `execInput`'s own answer. -/
def step (s : State) : Host.Outcome State Fault Refusal :=
  if s.halted = true ∨ s.cause ≠ .none then .next s
  else
    match fetch s with
    | .error r => .next (takeFault s r)
    | .ok i => exec i s

/-- `s` with the instruction numbered `w` as the opcode table numbers it stored at `IP`, operand cells it
is not given being zero (notes/assumptions/5.md, notes/assumptions/20.md). -/
def State.withFetchWord (s : State) (nbits w : Nat) : State :=
  placeCells s s.ip.toInt (tableCells nbits w)

end Sys2Proof.Machine
end

