-- ==== Sys2Proof/Machine/Loader.lean ====
section
/-! DEFINITION. Reset with a program image (rules R66, R200, R201) and the host's load of a program text
(rule R203). Text is a list of characters. -/

namespace Sys2Proof.Machine

/-- Reset with the program image `image` (R200): refused when the image is empty or does not fit (R203). -/
def resetWith (cfg : Config) (image : List Word) : Option State :=
  if 1 ≤ image.length ∧ image.length ≤ cfg.memCells then
    some { cfg := cfg, mem := Memory.writeList [] 0 image, ip := 0, rb := 0, halted := false,
           inq := [], outlog := [], keepLast := false, cause := .none, faultIp := 0, faultValue := 0,
           memExtent := image.length }
  else none

/-- The white space that is trimmed (DESIGN CHOICE: notes/assumptions/17.md). -/
def isBlank (c : Char) : Bool := c == ' ' || c == '\t' || c == '\n' || c == '\r'

/-- Trim leading and trailing white space (R203). -/
def trimBlanks (cs : List Char) : List Char :=
  ((cs.dropWhile isBlank).reverse.dropWhile isBlank).reverse

/-- Split at every `sep`; one piece more than there are separators (R203). -/
def splitAt (sep : Char) : List Char → List (List Char)
  | [] => [[]]
  | c :: cs =>
    if c == sep then [] :: splitAt sep cs
    else
      match splitAt sep cs with
      | [] => [[c]]
      | p :: ps => (c :: p) :: ps

/-- The value of a decimal digit. -/
def digitValue (c : Char) : Option Nat :=
  if 48 ≤ c.toNat ∧ c.toNat ≤ 57 then some (c.toNat - 48) else none

/-- Continues a decimal number after a value read so far. -/
def parseDigits : Nat → List Char → Option Nat
  | v, [] => some v
  | v, c :: cs =>
    match digitValue c with
    | none => none
    | some d => parseDigits (10 * v + d) cs

/-- One or more decimal digits (R203). -/
def parseNatural : List Char → Option Nat
  | [] => none
  | c :: cs => parseDigits 0 (c :: cs)

/-- An optional `-` and one or more decimal digits (R203). -/
def parseInteger : List Char → Option Int
  | [] => none
  | c :: cs => if c == '-' then (parseNatural cs).map fun (n : Nat) => -(n : Int)
               else (parseNatural (c :: cs)).map fun (n : Nat) => (n : Int)

/-- A cell value: refused when it does not fit in int64 (R203). -/
def cellOfInt (v : Int) : Option Word :=
  if int64Min ≤ v ∧ v ≤ int64Max then some (BitVec.ofInt 64 v) else none

/-- One piece of the program text (R203). -/
def parsePiece (cs : List Char) : Option Word :=
  match parseInteger cs with
  | none => none
  | some v => cellOfInt v

/-- The program image of a text, or `none` for a parse error (R203). -/
def parseImage (text : List Char) : Option (List Word) :=
  (splitAt ',' (trimBlanks text)).mapM parsePiece

/-- Construction from a program text (R200, R203): on any failure there is no instance. -/
def load (cfg : Config) (text : List Char) : Option State :=
  match parseImage text with
  | none => none
  | some image => resetWith cfg image

end Sys2Proof.Machine
end

