-- ==== Sys2Proof/Machine/Assembler.lean ====
section
/-! DEFINITION. The assembler of rules R92 to R94: the spec's own notation for test programs, from text to
cells. The machine itself never uses it. -/

namespace Sys2Proof.Machine

/-- A value in assembly text: a number, or a label standing for its address (R92). -/
inductive AsmValue where
  | number (v : Int)
  | label (name : List Char)
  deriving DecidableEq, Repr

/-- `#v`, `[v]`, `[rb+v]` or `[rb-v]` (R92). -/
inductive AsmOperand where
  | immediate (v : AsmValue)
  | position (v : AsmValue)
  | relative (v : AsmValue)
  | relativeMinus (v : AsmValue)
  deriving DecidableEq, Repr

/-- What a line holds beside its label (R92, R94). -/
inductive AsmItem where
  | instr (opcode : Nat) (ops : List AsmOperand)
  | cells (vs : List AsmValue)
  | blank
  deriving DecidableEq, Repr

/-- One line: the label before `:`, if any, and the rest (R92). -/
structure AsmLine where
  label : Option (List Char)
  item  : AsmItem
  deriving DecidableEq, Repr

/-- The cells an item takes (R80, R92). -/
def AsmItem.size : AsmItem → Nat
  | .instr _ ops => 1 + ops.length
  | .cells vs => vs.length
  | .blank => 0

/-- The address of every label, the first line at `a` (R92); a label defined twice is refused (DESIGN CHOICE:
notes/assumptions/18.md). -/
def labelTable : Nat → List AsmLine → Option (List (List Char × Nat))
  | _, [] => some []
  | a, l :: ls =>
    match labelTable (a + l.item.size) ls, l.label with
    | none, _ => none
    | some t, none => some t
    | some t, some name => if t.any (fun e => e.1 == name) then none else some ((name, a) :: t)

/-- A value as an integer (R92); an unknown label is refused (notes/assumptions/18.md). -/
def AsmValue.resolve (labels : List (List Char × Nat)) : AsmValue → Option Int
  | .number v => some v
  | .label name => (labels.find? fun e => e.1 == name).map fun e => (e.2 : Int)

/-- An operand as a mode and a raw cell (R92, R93); what must fit in int64 is the cell (DESIGN CHOICE:
notes/assumptions/18.md). -/
def AsmOperand.resolve (labels : List (List Char × Nat)) (o : AsmOperand) : Option Operand := do
  match o with
  | .immediate v => pure ⟨.immediate, ← cellOfInt (← v.resolve labels)⟩
  | .position v => pure ⟨.position, ← cellOfInt (← v.resolve labels)⟩
  | .relative v => pure ⟨.relative, ← cellOfInt (← v.resolve labels)⟩
  | .relativeMinus v => pure ⟨.relative, ← cellOfInt (-(← v.resolve labels))⟩

/-- A write operand; the assembler refuses an immediate one (R93). -/
def Operand.toDest (o : Operand) : Option Dest :=
  match o.mode with
  | .position => some ⟨.position, o.raw⟩
  | .relative => some ⟨.relative, o.raw⟩
  | .immediate => none

/-- The instruction of an opcode with its operands in cell order (R84, R92); a wrong operand count is refused
(DESIGN CHOICE: notes/assumptions/18.md). -/
def instrOf : Nat → List Operand → Option Instr
  | 1, [a, b, c] => (Operand.toDest c).map fun d => .add a b d 0
  | 2, [a, b, c] => (Operand.toDest c).map fun d => .mul a b d 0
  | 3, [a] => (Operand.toDest a).map fun d => .input d 0
  | 4, [a] => some (.output a 0)
  | 5, [a, b] => some (.jumpIfTrue a b 0)
  | 6, [a, b] => some (.jumpIfFalse a b 0)
  | 7, [a, b, c] => (Operand.toDest c).map fun d => .lessThan a b d 0
  | 8, [a, b, c] => (Operand.toDest c).map fun d => .equals a b d 0
  | 9, [a] => some (.adjustRelativeBase a 0)
  | 99, [] => some (.halt 0)
  | _, _ => none

/-- The cells of one item (R92, R93). -/
def AsmItem.assemble (labels : List (List Char × Nat)) : AsmItem → Option (List Word)
  | .instr op ops =>
    match ops.mapM (fun (o : AsmOperand) => o.resolve labels) with
    | none => none
    | some os => (instrOf op os).map encode
  | .cells vs => vs.mapM fun v => (v.resolve labels).bind cellOfInt
  | .blank => some []

/-- The cells of a list of lines, from address 0. -/
def assembleLines (ls : List AsmLine) : Option (List Word) :=
  match labelTable 0 ls with
  | none => none
  | some labels => (ls.mapM fun (l : AsmLine) => l.item.assemble labels).map List.flatten

/-! ### From text to lines -/

/-- The mnemonics of rule R92 and their opcodes (R84). -/
def mnemonicTable : List (List Char × Nat) :=
  [("add".toList, 1), ("mul".toList, 2), ("input".toList, 3), ("output".toList, 4),
   ("jump-if-true".toList, 5), ("jump-if-false".toList, 6), ("less-than".toList, 7),
   ("equals".toList, 8), ("adjust-relative-base".toList, 9), ("halt".toList, 99)]

/-- A character of a label (DESIGN CHOICE: notes/assumptions/18.md). -/
def isLabelChar (c : Char) : Bool := c.isAlphanum || c == '_'

/-- A label's name: letters, digits and `_`, no digit first (notes/assumptions/18.md). -/
def isLabel : List Char → Bool
  | [] => false
  | c :: cs => !c.isDigit && (c :: cs).all isLabelChar

/-- A number as in R203, or a label (R92; DESIGN CHOICE: notes/assumptions/18.md). -/
def parseValue (cs : List Char) : Option AsmValue :=
  match parseInteger cs with
  | some v => some (.number v)
  | none => if isLabel cs then some (.label cs) else none

/-- Takes off a closing bracket, and the white space around what stands before it (DESIGN CHOICE:
notes/assumptions/25.md). -/
def dropClosing (cs : List Char) : Option (List Char) :=
  match cs.reverse with
  | ']' :: r => some (trimBlanks r.reverse)
  | _ => none

/-- `#v`, `[v]`, `[rb+v]`, `[rb-v]` (R92). Where white space may stand inside an operand is the model's choice
(DESIGN CHOICE: notes/assumptions/25.md): around `v` inside brackets, and neither after `#` nor within `[rb+` and
`[rb-`. -/
def parseOperand (cs : List Char) : Option AsmOperand :=
  match trimBlanks cs with
  | '#' :: v => (parseValue v).map .immediate
  | '[' :: 'r' :: 'b' :: '+' :: v => (dropClosing v).bind fun v => (parseValue v).map .relative
  | '[' :: 'r' :: 'b' :: '-' :: v => (dropClosing v).bind fun v => (parseValue v).map .relativeMinus
  | '[' :: v => (dropClosing v).bind fun v => (parseValue v).map .position
  | _ => none

/-- Pieces between commas; nothing at all is no piece (DESIGN CHOICE: notes/assumptions/18.md). -/
def parseList (cs : List Char) : List (List Char) :=
  match trimBlanks cs with
  | [] => []
  | c :: cs => splitAt ',' (c :: cs)

/-- An instruction, `.cell` (R92), the pseudo-instruction `jmp t` (R94), or nothing. White space ends the mnemonic
and may stand around each piece, and an empty line is allowed (DESIGN CHOICE: notes/assumptions/18.md, 25.md). -/
def parseItem (cs : List Char) : Option AsmItem :=
  let body := trimBlanks cs
  let word := body.takeWhile fun c => !isBlank c
  let rest := body.dropWhile fun c => !isBlank c
  if body.isEmpty then some .blank
  else if word == ".cell".toList then
    (parseList rest).mapM (fun p => parseValue (trimBlanks p)) |>.map .cells
  else if word == "jmp".toList then
    ((parseList rest).mapM parseOperand).map fun ops => .instr 5 (.immediate (.number 1) :: ops)
  else
    match mnemonicTable.find? fun e => e.1 == word with
    | none => none
    | some e => ((parseList rest).mapM parseOperand).map fun ops => .instr e.2 ops

/-- One line: `label:` at its start, if any, then the item (R92). `;` starts a comment, as in 95_test_vectors.md
(DESIGN CHOICE: notes/assumptions/18.md); white space may stand around the label (notes/assumptions/25.md). -/
def parseLine (cs : List Char) : Option AsmLine :=
  let code := cs.takeWhile (· != ';')
  match splitAt ':' code with
  | [body] => (parseItem body).map fun i => ⟨none, i⟩
  | [name, body] =>
    let name := trimBlanks name
    if isLabel name then (parseItem body).map fun i => ⟨some name, i⟩ else none
  | _ => none

/-- The cells of an assembly text (R92 to R94). -/
def assembleText (text : List Char) : Option (List Word) :=
  ((splitAt '\n' text).mapM parseLine).bind assembleLines

end Sys2Proof.Machine
end

