-- ==== Sys2Proof/Machine/HostPort.lean ====
section
/-! DEFINITION. The host commands of one instance (rules R180 to R188), each between steps (rule R69). A
command the spec refuses has no move: `none`. -/

namespace Sys2Proof.Machine

/-- Room for one more value in the input queue (R36, R180). -/
def queueHasRoom (s : State) : Bool :=
  match s.cfg.inDepth with
  | none => true
  | some d => decide (s.inq.length < d)

/-- `ENQUEUE(v)` (R180); a full queue refuses. -/
def enqueue (s : State) (v : Word) : Option State :=
  if queueHasRoom s then some { s with inq := s.inq ++ [v] } else none

/-- `LAST_OUTPUT()` (R37, R181). -/
def lastOutput (s : State) : Option Word := s.outlog.getLast?

/-- The address `a` of a peek or poke exists (R182). -/
def hostAddress (s : State) (a : Int) : Option Nat :=
  match checkAddr s.cfg a with
  | .ok n => some n
  | .error _ => none

/-- `PEEK(a)` (R182). -/
def peek (s : State) (a : Int) : Option Word := (hostAddress s a).map s.mem.read

/-- `POKE(a, v)` (R73, R182). -/
def poke (s : State) (a : Int) (v : Word) : Option State :=
  (hostAddress s a).map fun n =>
    { s with mem := s.mem.write n v, memExtent := max s.memExtent (n + 1) }

/-- `SET_KEEP_LAST(b)` (R183). -/
def setKeepLast (s : State) (b : Bool) : State := { s with keepLast := b }

/-- The state after `STEP()` (R184): a step answers a next state in every case. -/
def stepState (s : State) : State :=
  match step s with
  | .next t => t
  | .fault _ => s
  | .refused _ => s

/-- A step of the CORE, as against the host's command: `none` where the core is not enabled, which is how
rules R169 and R170 say "no step". -/
def coreStep (s : State) : Option State := if enabled s then some (stepState s) else none

/-- `RUN_UNTIL_HALT()` (R185) within `fuel` steps: `none` when it has not returned by then
(notes/assumptions/13.md). -/
def runUntilHalt : Nat → State → Option State
  | 0, s => if enabled s then none else some s
  | n + 1, s => if enabled s then runUntilHalt n (stepState s) else some s

/-- The loop of `RUN_UNTIL_OUTPUT_OR_HALT()` (R186): step while enabled and the log has its length `k0`. -/
def runWhileSilent (k0 : Nat) : Nat → State → Option State
  | 0, s => if enabled s ∧ s.outlog.length = k0 then none else some s
  | n + 1, s =>
    if enabled s ∧ s.outlog.length = k0 then runWhileSilent k0 n (stepState s) else some s

/-- `RUN_UNTIL_OUTPUT_OR_HALT()` (R186) within `fuel` steps: the state it stops in and the new output. -/
def runUntilOutputOrHalt (fuel : Nat) (s : State) : Option (State × Option Word) :=
  (runWhileSilent s.outlog.length fuel s).map fun t => (t, t.outlog[s.outlog.length]?)

/-- The host commands (R180 to R187, R200). A run command carries the number of steps it may take. -/
inductive HostCommand where
  | reset (image : List Word)
  | enqueue (v : Word)
  | lastOutput
  | outputs
  | peek (a : Int)
  | poke (a : Int) (v : Word)
  | memExtent
  | setKeepLast (b : Bool)
  | step
  | runUntilHalt (fuel : Nat)
  | runUntilOutputOrHalt (fuel : Nat)
  | isHalted
  | status
  | cause
  | faultIp
  | faultValue
  | ip
  | rb
  deriving DecidableEq, Repr

/-- What a host command returns. -/
inductive Reply where
  | done
  | maybeWord (v : Option Word)
  | words (vs : List Word)
  | word (v : Word)
  | extent (n : Nat)
  | flag (b : Bool)
  | status (st : Status)
  | statusAndOutput (st : Status) (v : Option Word)
  | cause (c : BitVec 3)
  | faultValue (v : BitVec 65)
  deriving DecidableEq, Repr

/-- One host command on one instance: the new state and the reply, or `none` where the command is refused
or, for a run command, has not returned within its steps. -/
def hostCommand (c : HostCommand) (s : State) : Option (State × Reply) :=
  match c with
  | .reset image => (resetWith s.cfg image).map fun t => (t, .done)
  | .enqueue v => (enqueue s v).map fun t => (t, .done)
  | .lastOutput => some (s, .maybeWord (lastOutput s))
  | .outputs => some (s, .words s.outlog)
  | .peek a => (peek s a).map fun v => (s, .word v)
  | .poke a v => (poke s a v).map fun t => (t, .done)
  | .memExtent => some (s, .extent s.memExtent)
  | .setKeepLast b => some (setKeepLast s b, .done)
  | .step => some (stepState s, .status (status (stepState s)))
  | .runUntilHalt n => (runUntilHalt n s).map fun t => (t, .status (status t))
  | .runUntilOutputOrHalt n =>
    (runUntilOutputOrHalt n s).map fun p => (p.1, .statusAndOutput (status p.1) p.2)
  | .isHalted => some (s, .flag s.halted)
  | .status => some (s, .status (status s))
  | .cause => some (s, .cause s.cause.code)
  | .faultIp => some (s, .word s.faultIp)
  | .faultValue => some (s, .faultValue s.faultValue)
  | .ip => some (s, .word s.ip)
  | .rb => some (s, .word s.rb)

end Sys2Proof.Machine
end

