-- ==== Sys2Proof/Machine/System.lean ====
section
/-! DEFINITION. Several instances under one host (rules R190, R191): each has its own complete state, and
the host addresses one at a time. -/

namespace Sys2Proof.Machine

/-- The instances, by number. The number is the host's; no program sees it (R190). -/
structure System where
  cores : List State
  deriving DecidableEq, Repr

/-- What the host can do to a system. -/
inductive SystemCommand where
  /-- a command to instance `k` (R180 to R187) -/
  | on (k : Nat) (c : HostCommand)
  /-- `SNAPSHOT()` of instance `k`: a new instance, its state record equal field by field (R191) -/
  | snapshot (k : Nat)
  /-- construct a new instance from a program image (R200) -/
  | create (cfg : Config) (image : List Word)
  /-- read the last output of instance `k` and enqueue it into instance `l` (R190) -/
  | forward (k l : Nat)
  deriving DecidableEq, Repr

/-- The host's action on a system; `none` where there is no such instance or the command is refused. -/
def systemCommand (c : SystemCommand) (y : System) : Option (System × Reply) :=
  match c with
  | .on k c =>
    match y.cores[k]? with
    | none => none
    | some s => (hostCommand c s).map fun p => (⟨y.cores.set k p.1⟩, p.2)
  | .snapshot k =>
    match y.cores[k]? with
    | none => none
    | some s => some (⟨y.cores ++ [s]⟩, .done)
  | .create cfg image => (resetWith cfg image).map fun s => (⟨y.cores ++ [s]⟩, .done)
  | .forward k l =>
    match y.cores[k]?, y.cores[l]? with
    | some s, some t =>
      match lastOutput s with
      | none => none
      | some v => (enqueue t v).map fun t' => (⟨y.cores.set l t'⟩, .done)
    | _, _ => none

end Sys2Proof.Machine
end

