-- ==== Sys2Proof/WellFormed.lean ====
section
/-! DEFINITION. Which instruction terms are instructions of the machine: those whose opcode cell exists.
The types of Syntax.lean already rule out an illegal mode and an immediate write operand (rule R85). -/

namespace Sys2Proof

/-- The opcode cell is a non-negative int64 value (R51, R82). -/
def Instr.opcellFits (i : Instr) : Bool := decide ((i.opcellValue : Int) ≤ int64Max)

/-- The unused digits are zero, as `STRICT_DECODE = true` asks (R86). -/
def Instr.unusedZero (i : Instr) : Bool := i.unused == 0

/-- Well-formed for a value of `STRICT_DECODE`. -/
def Instr.wf (strict : Bool) (i : Instr) : Bool :=
  i.opcellFits && (!strict || i.unusedZero)

end Sys2Proof
end

