-- ==== Sys2Proof/Safety.lean ====
section
/-! DEFINITION. The words claims are written in: what an operand addresses, reads and writes, when an access
faults, what a faulted core looks like, how a run ends (rule R206), and the invariant of the machine. They
are written from the rules, beside the model's own operations and not with them. -/

namespace Sys2Proof.Machine

/-- The cell exists (R50). -/
def InRange (s : State) (a : Int) : Prop := 0 ≤ a ∧ a < s.cfg.memCells

/-- The fault an access to address `a` raises, if it raises one (R53, R54). -/
def AddressFaults (s : State) (a : Int) (c : Cause) : Prop :=
  (a < 0 ∧ c = .negativeAddress) ∨ ((s.cfg.memCells : Int) ≤ a ∧ 0 ≤ a ∧ c = .addressRange)

/-- A read operand's effective address; an immediate has none (R58 to R60). -/
def Addresses (s : State) (o : Operand) (a : Int) : Prop :=
  match o.mode with
  | .position => a = o.raw.toInt
  | .immediate => False
  | .relative => a = o.raw.toInt + s.rb.toInt

/-- The operand is readable and its value is `x` (R58 to R60). -/
def ReadsAs (s : State) (o : Operand) (x : Word) : Prop :=
  (o.mode = .immediate ∧ x = o.raw) ∨
    ∃ a : Int, Addresses s o a ∧ InRange s a ∧ x = s.mem.read a.toNat

/-- Reading the operand faults with this cause and address (R53, R54, R161). -/
def ReadFaults (s : State) (o : Operand) (c : Cause) (v : Int) : Prop :=
  Addresses s o v ∧ AddressFaults s v c

/-- A write operand's address (R61). -/
def DestAddresses (s : State) (d : Dest) (a : Int) : Prop :=
  match d.mode with
  | .position => a = d.raw.toInt
  | .relative => a = d.raw.toInt + s.rb.toInt

/-- The write operand names the existing cell `n` (R61). -/
def WritesTo (s : State) (d : Dest) (n : Nat) : Prop := DestAddresses s d (n : Int) ∧ n < s.cfg.memCells

/-- Resolving the write operand faults with this cause and address (R61, R161). -/
def WriteFaults (s : State) (d : Dest) (c : Cause) (v : Int) : Prop :=
  DestAddresses s d v ∧ AddressFaults s v c

/-- The core after a fault with this cause and value: three registers changed, nothing else (R162). -/
def faultedFrom (s : State) (c : Cause) (v : Int) : State :=
  { s with cause := c, faultIp := s.ip, faultValue := BitVec.ofInt 65 v }

/-- Neither halted nor faulted: the core is ready or awaiting input (R193). -/
def Running (s : State) : Prop := s.halted = false ∧ s.cause = .none

/-- The cell at `a` exists and holds `c`. -/
def CellAt (s : State) (a : Int) (c : Word) : Prop := InRange s a ∧ s.mem.read a.toNat = c

/-- The `n` cells from `a` up, as the memory holds them. -/
def cellsFrom (s : State) (a n : Nat) : List Word := (List.range n).map fun k => s.mem.read (a + k)

/-- A run ends successfully (R206). -/
def EndsSuccessfully (s : State) : Prop := status s = .halted

/-- A run ends in a fault (R206). -/
def EndsInFault (s : State) : Prop := status s = .faulted

/-- A run waits for the host (R206). -/
def Waits (s : State) : Prop := status s = .awaitingInput

/-- The input queue is within its capacity (R36). -/
def QueueFits (s : State) : Prop := ∀ d, s.cfg.inDepth = some d → s.inq.length ≤ d

/-- The invariant of an instance: what holds at reset and after every step and host command. -/
structure State.Inv (s : State) : Prop where
  /-- the parameters are in their ranges (R8) -/
  params : s.cfg.wf = true
  /-- memory is in canonical form -/
  canonical : s.mem.wf = true
  /-- every cell at an address not below `MEM_EXTENT` holds 0 (R38) -/
  zeroBeyond : ∀ a, s.memExtent ≤ a → s.mem.read a = 0
  /-- `MEM_EXTENT` lies in `1 .. MEM_CELLS` (R20) -/
  extentPos : 1 ≤ s.memExtent
  extentMax : s.memExtent ≤ s.cfg.memCells
  /-- the queue's length is bounded by `IN_DEPTH` (R36) -/
  queue : QueueFits s
  /-- a halted core has recorded no fault (R34) -/
  haltedClean : s.halted = true → s.cause = .none
  /-- `FAULT_IP = IP` in a faulted core (R32) -/
  faultIpIsIp : s.cause ≠ .none → s.faultIp = s.ip
  /-- the fault registers hold their reset values until the first fault (R31 to R33, R162) -/
  noFaultYet : s.cause = .none → s.faultIp = 0 ∧ s.faultValue = 0

/-- The opcode map of rule R84 in numbers: opcode, operand count, the write operand if there is one. -/
def opcodeMap : List (Nat × Nat × Option Nat) :=
  [(1, 3, some 3), (2, 3, some 3), (3, 1, some 1), (4, 1, none), (5, 2, none),
   (6, 2, none), (7, 3, some 3), (8, 3, some 3), (9, 1, none), (99, 0, none)]

/-- Some mode digit of the first `n` operands is not 0, 1 or 2 (R85). -/
def BadModeDigit (n v : Nat) : Prop := ∃ k, 1 ≤ k ∧ k ≤ n ∧ 2 < digit (k + 1) v

/-- The write operand, if there is one, has mode digit 1 (R85). -/
def ImmediateWriteDigit (w : Option Nat) (v : Nat) : Prop := ∃ k, w = some k ∧ digit (k + 1) v = 1

/-- The 99 opcode cells legal under `STRICT_DECODE = true`, as the opcode table lists them (R86). -/
def strictLegalCells : List Nat :=
  [1, 101, 201, 1001, 1101, 1201, 2001, 2101, 2201,
   20001, 20101, 20201, 21001, 21101, 21201, 22001, 22101, 22201] ++
  [2, 102, 202, 1002, 1102, 1202, 2002, 2102, 2202,
   20002, 20102, 20202, 21002, 21102, 21202, 22002, 22102, 22202] ++
  [3, 203, 4, 104, 204] ++
  [5, 105, 205, 1005, 1105, 1205, 2005, 2105, 2205] ++
  [6, 106, 206, 1006, 1106, 1206, 2006, 2106, 2206] ++
  [7, 107, 207, 1007, 1107, 1207, 2007, 2107, 2207,
   20007, 20107, 20207, 21007, 21107, 21207, 22007, 22107, 22207] ++
  [8, 108, 208, 1008, 1108, 1208, 2008, 2108, 2208,
   20008, 20108, 20208, 21008, 21108, 21208, 22008, 22108, 22208] ++
  [9, 109, 209, 99]

/-- The write operand of an instruction, if it has one (R17, R84). -/
def destOf : Instr → Option Dest
  | .add _ _ c _ | .mul _ _ c _ | .lessThan _ _ c _ | .equals _ _ c _ => some c
  | .input a _ => some a
  | .output .. | .jumpIfTrue .. | .jumpIfFalse .. | .adjustRelativeBase .. | .halt .. => none

/-- The read operands an instruction resolves in `s`: a jump's target only when the jump is taken (R62, R120,
R121). -/
def Resolves (s : State) (i : Instr) (o : Operand) : Prop :=
  match i with
  | .add a b _ _ | .mul a b _ _ | .lessThan a b _ _ | .equals a b _ _ => o = a ∨ o = b
  | .output a _ | .adjustRelativeBase a _ => o = a
  | .jumpIfTrue a b _ => o = a ∨ (o = b ∧ ∃ x, ReadsAs s a x ∧ x.toInt ≠ 0)
  | .jumpIfFalse a b _ => o = a ∨ (o = b ∧ ∃ x, ReadsAs s a x ∧ x.toInt = 0)
  | .input .. | .halt .. => False

/-- The addresses a committing instruction accesses: its own cells, the cells its read operands name, the
cell it writes (R73). -/
def Accesses (s : State) (i : Instr) (a : Int) : Prop :=
  (∃ k : Nat, k ≤ i.operandCount ∧ a = s.ip.toInt + k) ∨
    (∃ o, Resolves s i o ∧ Addresses s o a) ∨ (∃ d, destOf i = some d ∧ DestAddresses s d a)

/-- The operand address fault of a fetched instruction: the first access, in the order of rule R164, whose
address fails its check. The operands before it resolve; a jump's target counts only when the jump is taken. -/
def OperandFault (s : State) (i : Instr) (c : Cause) (v : Int) : Prop :=
  match i with
  | .add a b d _ | .mul a b d _ | .lessThan a b d _ | .equals a b d _ =>
    ReadFaults s a c v ∨
      ∃ x, ReadsAs s a x ∧ (ReadFaults s b c v ∨ ∃ y, ReadsAs s b y ∧ WriteFaults s d c v)
  | .input d _ => WriteFaults s d c v
  | .output a _ | .adjustRelativeBase a _ => ReadFaults s a c v
  | .jumpIfTrue a b _ => ReadFaults s a c v ∨ ∃ x, ReadsAs s a x ∧ x.toInt ≠ 0 ∧ ReadFaults s b c v
  | .jumpIfFalse a b _ => ReadFaults s a c v ∨ ∃ x, ReadsAs s a x ∧ x.toInt = 0 ∧ ReadFaults s b c v
  | .halt _ => False

/-- Some operand of the instruction is in relative mode (R57). -/
def usesRelative : Instr → Bool
  | .add a b c _ | .mul a b c _ | .lessThan a b c _ | .equals a b c _ =>
    a.mode == .relative || b.mode == .relative || c.mode == .relative
  | .jumpIfTrue a b _ | .jumpIfFalse a b _ => a.mode == .relative || b.mode == .relative
  | .output a _ | .adjustRelativeBase a _ => a.mode == .relative
  | .input a _ => a.mode == .relative
  | .halt _ => false

/-- The address faults of an instruction with two read operands and a write operand, in the order of rule
R164: each is the step's outcome when the operands before it resolve. -/
def FaultsInOrder (s : State) (i : Instr) (a b : Operand) (c : Dest) : Prop :=
  (∀ e v, ReadFaults s a e v → exec i s = .next (faultedFrom s e v)) ∧
    (∀ x e v, ReadsAs s a x → ReadFaults s b e v → exec i s = .next (faultedFrom s e v)) ∧
      ∀ x y e v, ReadsAs s a x → ReadsAs s b y → WriteFaults s c e v →
        exec i s = .next (faultedFrom s e v)

/-- The core after an instruction of `n` operands that touched the listed addresses beside its own cells and
stored `v` in cell `d`: memory, `IP` and the extent changed, nothing else (R26, R62, R73). -/
def storedBy (s : State) (n : Nat) (touched : List Int) (d : Nat) (v : Word) : State :=
  { s with
    mem := s.mem.write d v
    ip := s.ip + BitVec.ofNat 64 (1 + n)
    memExtent := extentAfter s.memExtent (fetchTouches s n ++ (touched ++ [(d : Int)])) }

/-- The core after an instruction of `n` operands that stores nothing and does not jump (R26, R73). -/
def advancedBy (s : State) (n : Nat) (touched : List Int) : State :=
  { s with
    ip := s.ip + BitVec.ofNat 64 (1 + n)
    memExtent := extentAfter s.memExtent (fetchTouches s n ++ touched) }

/-- The core after a taken jump to `target` (R26, R120, R73). -/
def jumpedTo (s : State) (touched : List Int) (target : Word) : State :=
  { s with
    ip := target
    memExtent := extentAfter s.memExtent (fetchTouches s 2 ++ touched) }

/-! ### Program text (R203) -/

/-- White space, as the load trims it (DESIGN CHOICE: notes/assumptions/17.md). -/
def IsWhite (c : Char) : Prop := c = ' ' ∨ c = '\t' ∨ c = '\n' ∨ c = '\r'

/-- One or more decimal digits that denote `n` (R203). -/
def DigitsDenote (cs : List Char) (n : Nat) : Prop :=
  cs ≠ [] ∧ (∀ c ∈ cs, c.isDigit = true) ∧ n = Nat.ofDigitChars 10 cs 0

/-- An optional `-` followed by one or more decimal digits, denoting `v` (R203). -/
def PieceDenotes (cs : List Char) (v : Int) : Prop :=
  (∃ n : Nat, DigitsDenote cs n ∧ v = n) ∨ ∃ ds n, cs = '-' :: ds ∧ DigitsDenote ds n ∧ v = -(n : Int)

/-- The pieces joined by commas. -/
def joinPieces (pieces : List (List Char)) : List Char := List.intercalate [','] pieces

/-- The text, trimmed of white space at both ends and split on `,`, is these pieces (R203): white space, the
pieces joined by commas, white space; no piece holds a comma; and what is between begins and ends with no
white space. -/
def SplitsInto (text : List Char) (pieces : List (List Char)) : Prop :=
  ∃ lead trail, text = lead ++ joinPieces pieces ++ trail ∧
    (∀ c ∈ lead, IsWhite c) ∧ (∀ c ∈ trail, IsWhite c) ∧
    (∀ c ∈ (joinPieces pieces).head?, ¬ IsWhite c) ∧ (∀ c ∈ (joinPieces pieces).getLast?, ¬ IsWhite c) ∧
    pieces ≠ [] ∧ ∀ p ∈ pieces, ',' ∉ p

/-- The decimal text of a cell, as Lean's own library writes an integer. -/
def cellText (w : Word) : List Char := (toString w.toInt).toList

/-- The same core with more memory cells (R52). -/
def grown (M : Nat) (s : State) : State := { s with cfg := { s.cfg with memCells := M } }

end Sys2Proof.Machine
end

