-- ==== Sys2Proof/Certificates/Slice0/Obligations.lean ====
section
/-! DEFINITION. The statements for the provers, from the numbered rules of the spec. OBLIGATIONS.json lists
them with their rules. -/

open Sys2Proof Sys2Proof.Machine

/-! ### Encoding and decode -/

/-- Decode of the cells of a well-formed instruction gives it back, whatever stands behind it, for both
values of `STRICT_DECODE` (R80, R89, R93). -/
def Obligations.DecodeInvertsEncode : Prop :=
  ∀ (strict : Bool) (i : Instr) (rest : List Word), i.wf strict = true →
    decode strict (encode i ++ rest) = .ok (i, rest)

/-- Every list of cells that decodes is the cells of the instruction it decodes to, which is well-formed:
no digit and no operand cell is lost (R80 to R89). -/
def Obligations.EncodeInvertsDecode : Prop :=
  ∀ (strict : Bool) (cells : List Word) (i : Instr) (rest : List Word),
    decode strict cells = .ok (i, rest) → cells = encode i ++ rest ∧ i.wf strict = true

/-- Cells written out in 30_encoding.md and 95_test_vectors.md decode to the instructions they stand for. -/
def Obligations.WrittenOutCellsDecode : Prop :=
  decode false [1, 9, 10, 3] = .ok (.add ⟨.position, 9⟩ ⟨.position, 10⟩ ⟨.position, 3⟩ 0, []) ∧
  decode false [1002, 4, 3, 4] = .ok (.mul ⟨.position, 4⟩ ⟨.immediate, 3⟩ ⟨.position, 4⟩ 0, []) ∧
  decode false [203, -1] = .ok (.input ⟨.relative, -1⟩ 0, []) ∧
  decode false [104, -7, 99] = .ok (.output ⟨.immediate, -7⟩ 0, [99]) ∧
  decode false [1105, 1, 7] = .ok (.jumpIfTrue ⟨.immediate, 1⟩ ⟨.immediate, 7⟩ 0, []) ∧
  decode false [1006, 101, 0] = .ok (.jumpIfFalse ⟨.position, 101⟩ ⟨.immediate, 0⟩ 0, []) ∧
  decode false [1107, 3, 5, 9] = .ok (.lessThan ⟨.immediate, 3⟩ ⟨.immediate, 5⟩ ⟨.position, 9⟩ 0, []) ∧
  decode false [8, 9, 10, 9] = .ok (.equals ⟨.position, 9⟩ ⟨.position, 10⟩ ⟨.position, 9⟩ 0, []) ∧
  decode false [109, 1] = .ok (.adjustRelativeBase ⟨.immediate, 1⟩ 0, []) ∧
  decode false [99] = .ok (.halt 0, []) ∧
  decode false [22201, 0, 1, 3] = .ok (.add ⟨.relative, 0⟩ ⟨.relative, 1⟩ ⟨.relative, 3⟩ 0, []) ∧
  decode false [10099] = .ok (.halt 100, []) ∧
  decode true [10099] = .error (.illegal .illegalMode) ∧
  decode false [11101, 1, 1, 4] = .error (.illegal .immediateWrite) ∧
  decode false [98] = .error (.illegal .illegalOpcode)

/-- The closed opcode map and the order of the decode faults (R84, R85): for the cell at `IP` of a running
core, an opcode outside the map is `IllegalOpcode`; a used mode digit above 2 is `IllegalMode`; then an
immediate write operand is `ImmediateWrite`; then a nonzero unused digit under `STRICT_DECODE` is
`IllegalMode`; and every other cell is legal, with the opcode, operand count, width, mode digits and unused
digits the map and the digits give. -/
def Obligations.OpcodeMapAndDecodeFaults : Prop :=
  ∀ (s : State) (c : Word), Running s → CellAt s s.ip.toInt c →
    ((c.toInt < 0 ∨ ∀ e ∈ opcodeMap, c.toNat % 100 ≠ e.1) →
      step s = .next (faultedFrom s .illegalOpcode c.toInt)) ∧
    ∀ n w, 0 ≤ c.toInt → (c.toNat % 100, n, w) ∈ opcodeMap →
      (BadModeDigit n c.toNat → step s = .next (faultedFrom s .illegalMode c.toInt)) ∧
      (¬ BadModeDigit n c.toNat → ImmediateWriteDigit w c.toNat →
        step s = .next (faultedFrom s .immediateWrite c.toInt)) ∧
      (¬ BadModeDigit n c.toNat → ¬ ImmediateWriteDigit w c.toNat →
        s.cfg.strictDecode = true → c.toNat / 10 ^ (n + 2) ≠ 0 →
        step s = .next (faultedFrom s .illegalMode c.toInt)) ∧
      (¬ BadModeDigit n c.toNat → ¬ ImmediateWriteDigit w c.toNat →
        (s.cfg.strictDecode = true → c.toNat / 10 ^ (n + 2) = 0) →
        ∃ i, decodeOpcell s.cfg.strictDecode c = .ok i ∧ i.opcode = c.toNat % 100 ∧
          i.operandCount = n ∧ i.width = 1 + n ∧ i.modeDigits = c.toNat / 100 % 10 ^ n ∧
          i.unused = c.toNat / 10 ^ (n + 2))

/-- Unused digits (R86): ignored when `STRICT_DECODE = false`; `IllegalMode(opcell)` when it is true and they
are not zero; and then the legal opcode cells are exactly the 99 the opcode table lists. -/
def Obligations.UnusedDigitsAndStrictCells : Prop :=
  (∀ (c d : Word) (i : Instr), decodeOpcell false c = .ok i → 0 ≤ d.toInt →
    d.toNat % 10 ^ (i.operandCount + 2) = c.toNat % 10 ^ (i.operandCount + 2) →
    ∃ j, decodeOpcell false d = .ok j ∧ j.opcode = i.opcode ∧ j.modeDigits = i.modeDigits) ∧
  (∀ (s : State) (c : Word) (i : Instr), Running s → CellAt s s.ip.toInt c →
    s.cfg.strictDecode = true → decodeOpcell false c = .ok i →
    c.toNat / 10 ^ (i.operandCount + 2) ≠ 0 →
    step s = .next (faultedFrom s .illegalMode c.toInt)) ∧
  (∀ c : Word, (∃ i, decodeOpcell true c = .ok i) ↔ c.toNat ∈ strictLegalCells) ∧
  strictLegalCells.length = 99

/-! ### Fetch, addresses, operands -/

/-- Every address check raises `NegativeAddress(a)` for `a < 0`: fetch, operand fetch, operand reads and
writes (R53). -/
def Obligations.NegativeAddressesFault : Prop :=
  ∀ (s : State) (a : Int), a < 0 →
    (Running s → s.ip.toInt = a → step s = .next (faultedFrom s .negativeAddress a)) ∧
    (∀ n, fetchCells s a (n + 1) = .error ⟨.negativeAddress, a⟩) ∧
    memRead s a = .error ⟨.negativeAddress, a⟩ ∧
    (∀ o, Addresses s o a → readOperand s o = .error ⟨.negativeAddress, a⟩) ∧
    ∀ d, DestAddresses s d a → writeAddr s d = .error ⟨.negativeAddress, a⟩

/-- Fetch and operand fetch (R81, R83): where the opcode cell does not exist; the zero cell at or beyond
`MEM_EXTENT`; the operand cells in ascending order, the first that does not exist faulting; and where all
exist, the operands are those cells. -/
def Obligations.FetchRule : Prop :=
  ∀ s : State, Running s →
    (s.ip.toInt < 0 → step s = .next (faultedFrom s .negativeAddress s.ip.toInt)) ∧
    ((s.cfg.memCells : Int) ≤ s.ip.toInt → step s = .next (faultedFrom s .addressRange s.ip.toInt)) ∧
    (s.Inv → (s.memExtent : Int) ≤ s.ip.toInt → s.ip.toInt < s.cfg.memCells →
      step s = .next (faultedFrom s .illegalOpcode 0)) ∧
    ∀ (c : Word) (i : Instr), CellAt s s.ip.toInt c → decodeOpcell s.cfg.strictDecode c = .ok i →
      (∀ k : Nat, 1 ≤ k → k ≤ i.operandCount →
        (∀ j : Nat, 1 ≤ j → j < k → s.ip.toInt + j < s.cfg.memCells) →
        (s.cfg.memCells : Int) ≤ s.ip.toInt + k →
        step s = .next (faultedFrom s .addressRange (s.ip.toInt + k))) ∧
      (s.ip.toInt + i.operandCount < s.cfg.memCells →
        fetch s = .ok (i.fill (cellsFrom s (s.ip.toInt.toNat + 1) i.operandCount)))

/-- The three read modes (R58 to R60): an immediate operand is its raw cell; a position operand reads the
cell its raw value names; a relative operand the cell at raw plus `RB`, exact in ℤ; an address below 0 or
not below `MEM_CELLS` faults. -/
def Obligations.ReadResolver : Prop :=
  ∀ (s : State) (raw : Word),
    readOperand s ⟨.immediate, raw⟩ = .ok raw ∧
    (∀ m, m = Mode.position ∨ m = Mode.relative →
      ∀ a, (m = .position → a = raw.toInt) → (m = .relative → a = raw.toInt + s.rb.toInt) →
        (InRange s a → readOperand s ⟨m, raw⟩ = .ok (s.mem.read a.toNat)) ∧
        ∀ c, AddressFaults s a c → readOperand s ⟨m, raw⟩ = .error ⟨c, a⟩)

/-- The write address (R61), by mode, checked. -/
def Obligations.WriteResolver : Prop :=
  ∀ (s : State) (m : DestMode) (raw : Word) (a : Int), (m = .position → a = raw.toInt) →
    (m = .relative → a = raw.toInt + s.rb.toInt) →
    (InRange s a → writeAddr s ⟨m, raw⟩ = .ok a.toNat) ∧
    ∀ c, AddressFaults s a c → writeAddr s ⟨m, raw⟩ = .error ⟨c, a⟩

/-- Addresses are never wrapped (R56): a relative address above `INT64_MAX` faults with `AddressRange` and
its exact value, as a read and as a write, whatever `OVERFLOW_MODE` is, and `FAULT_VALUE` holds every
relative address exactly (R33). -/
def Obligations.AddressesNeverWrap : Prop :=
  ∀ (s : State) (raw : Word),
    (s.cfg.wf = true → int64Max < raw.toInt + s.rb.toInt →
      ∀ mode, readOperand { s with cfg := { s.cfg with overflowMode := mode } } ⟨.relative, raw⟩ =
          .error ⟨.addressRange, raw.toInt + s.rb.toInt⟩ ∧
        writeAddr { s with cfg := { s.cfg with overflowMode := mode } } ⟨.relative, raw⟩ =
          .error ⟨.addressRange, raw.toInt + s.rb.toInt⟩) ∧
    ∀ c, (faultedFrom s c (raw.toInt + s.rb.toInt)).faultValue.toInt = raw.toInt + s.rb.toInt

/-- `wrap64` and `arith64` (R13): `wrap64(v)` is the one int64 value congruent to `v` modulo 2^64; `arith64`
keeps a value that fits, and for another raises `ArithOverflow(opcell)` under `trap` and wraps under `wrap`. -/
def Obligations.OverflowCheck : Prop :=
  (∀ v w : Int, (FitsInt64 w ∧ w % 18446744073709551616 = v % 18446744073709551616) ↔
    w = (wrap64 v).toInt) ∧
  ∀ (cfg : Config) (opcell : Word) (v : Int),
    (FitsInt64 v → ∃ r, arith64 cfg opcell v = .ok r ∧ r.toInt = v) ∧
    (¬ FitsInt64 v → cfg.overflowMode = .trap →
      arith64 cfg opcell v = .error ⟨.arithOverflow, opcell.toInt⟩) ∧
    (¬ FitsInt64 v → cfg.overflowMode = .wrap → arith64 cfg opcell v = .ok (wrap64 v))

/-! ### The instructions -/

/-- add (R100): its result, its frame, its overflow in both modes, its address faults in their order, and
its encoding. -/
def Obligations.AddRule : Prop :=
  ∀ (a b : Operand) (c : Dest) (u : Nat) (s : State),
    (∀ x y d, ReadsAs s a x → ReadsAs s b y → WritesTo s c d → FitsInt64 (x.toInt + y.toInt) →
      exec (.add a b c u) s = .next (storedBy s 3 (operandTouches s a ++ operandTouches s b) d
        (BitVec.ofInt 64 (x.toInt + y.toInt)))) ∧
    (∀ x y d, ReadsAs s a x → ReadsAs s b y → WritesTo s c d → ¬ FitsInt64 (x.toInt + y.toInt) →
      (s.cfg.overflowMode = .trap →
        exec (.add a b c u) s =
          .next (faultedFrom s .arithOverflow (Instr.add a b c u).opcell.toInt)) ∧
      (s.cfg.overflowMode = .wrap →
        exec (.add a b c u) s = .next (storedBy s 3 (operandTouches s a ++ operandTouches s b) d
          (wrap64 (x.toInt + y.toInt))))) ∧
    FaultsInOrder s (.add a b c u) a b c ∧
    (Instr.add a b c u).width = 4 ∧
    (Instr.add a b c u).opcellValue =
      c.mode.code * 10000 + b.mode.code * 1000 + a.mode.code * 100 + 1 + u * 100000

/-- mul (R101). -/
def Obligations.MulRule : Prop :=
  ∀ (a b : Operand) (c : Dest) (u : Nat) (s : State),
    (∀ x y d, ReadsAs s a x → ReadsAs s b y → WritesTo s c d → FitsInt64 (x.toInt * y.toInt) →
      exec (.mul a b c u) s = .next (storedBy s 3 (operandTouches s a ++ operandTouches s b) d
        (BitVec.ofInt 64 (x.toInt * y.toInt)))) ∧
    (∀ x y d, ReadsAs s a x → ReadsAs s b y → WritesTo s c d → ¬ FitsInt64 (x.toInt * y.toInt) →
      (s.cfg.overflowMode = .trap →
        exec (.mul a b c u) s =
          .next (faultedFrom s .arithOverflow (Instr.mul a b c u).opcell.toInt)) ∧
      (s.cfg.overflowMode = .wrap →
        exec (.mul a b c u) s = .next (storedBy s 3 (operandTouches s a ++ operandTouches s b) d
          (wrap64 (x.toInt * y.toInt))))) ∧
    FaultsInOrder s (.mul a b c u) a b c ∧
    (Instr.mul a b c u).width = 4 ∧
    (Instr.mul a b c u).opcellValue =
      c.mode.code * 10000 + b.mode.code * 1000 + a.mode.code * 100 + 2 + u * 100000

/-- input (R110): the front value is stored and consumed, unless it is the last and `KEEP_LAST` is set; the
address fault of the write comes before the stall on an empty queue. -/
def Obligations.InputRule : Prop :=
  ∀ (a : Dest) (u : Nat) (s : State),
    (∀ d v q, WritesTo s a d → s.inq = v :: q → (q ≠ [] ∨ s.keepLast = false) →
      exec (.input a u) s = .next { storedBy s 1 [] d v with inq := q }) ∧
    (∀ d v, WritesTo s a d → s.inq = [v] → s.keepLast = true →
      exec (.input a u) s = .next (storedBy s 1 [] d v)) ∧
    (∀ d, WritesTo s a d → s.inq = [] → exec (.input a u) s = .next s) ∧
    (∀ e v, WriteFaults s a e v → exec (.input a u) s = .next (faultedFrom s e v)) ∧
    (Instr.input a u).width = 2 ∧
    (Instr.input a u).opcellValue = a.mode.code * 100 + 3 + u * 1000

/-- output (R112). -/
def Obligations.OutputRule : Prop :=
  ∀ (a : Operand) (u : Nat) (s : State),
    (∀ x, ReadsAs s a x →
      exec (.output a u) s =
        .next { advancedBy s 1 (operandTouches s a) with outlog := s.outlog ++ [x] }) ∧
    (∀ e v, ReadFaults s a e v → exec (.output a u) s = .next (faultedFrom s e v)) ∧
    (Instr.output a u).width = 2 ∧
    (Instr.output a u).opcellValue = a.mode.code * 100 + 4 + u * 1000

/-- jump-if-true (R120): the target is resolved, and can fault, only when the jump is taken; any int64 target
is set. -/
def Obligations.JumpIfTrueRule : Prop :=
  ∀ (a b : Operand) (u : Nat) (s : State),
    (∀ x t, ReadsAs s a x → x.toInt ≠ 0 → ReadsAs s b t →
      exec (.jumpIfTrue a b u) s =
        .next (jumpedTo s (operandTouches s a ++ operandTouches s b) t)) ∧
    (∀ x, ReadsAs s a x → x.toInt = 0 →
      exec (.jumpIfTrue a b u) s = .next (advancedBy s 2 (operandTouches s a))) ∧
    (∀ e v, ReadFaults s a e v → exec (.jumpIfTrue a b u) s = .next (faultedFrom s e v)) ∧
    (∀ x e v, ReadsAs s a x → x.toInt ≠ 0 → ReadFaults s b e v →
      exec (.jumpIfTrue a b u) s = .next (faultedFrom s e v)) ∧
    (Instr.jumpIfTrue a b u).width = 3 ∧
    (Instr.jumpIfTrue a b u).opcellValue =
      b.mode.code * 1000 + a.mode.code * 100 + 5 + u * 10000

/-- jump-if-false (R121). -/
def Obligations.JumpIfFalseRule : Prop :=
  ∀ (a b : Operand) (u : Nat) (s : State),
    (∀ x t, ReadsAs s a x → x.toInt = 0 → ReadsAs s b t →
      exec (.jumpIfFalse a b u) s =
        .next (jumpedTo s (operandTouches s a ++ operandTouches s b) t)) ∧
    (∀ x, ReadsAs s a x → x.toInt ≠ 0 →
      exec (.jumpIfFalse a b u) s = .next (advancedBy s 2 (operandTouches s a))) ∧
    (∀ e v, ReadFaults s a e v → exec (.jumpIfFalse a b u) s = .next (faultedFrom s e v)) ∧
    (∀ x e v, ReadsAs s a x → x.toInt = 0 → ReadFaults s b e v →
      exec (.jumpIfFalse a b u) s = .next (faultedFrom s e v)) ∧
    (Instr.jumpIfFalse a b u).width = 3 ∧
    (Instr.jumpIfFalse a b u).opcellValue =
      b.mode.code * 1000 + a.mode.code * 100 + 6 + u * 10000

/-- less-than (R130): the signed comparison writes 1 or 0; no overflow is possible. -/
def Obligations.LessThanRule : Prop :=
  ∀ (a b : Operand) (c : Dest) (u : Nat) (s : State),
    (∀ x y d, ReadsAs s a x → ReadsAs s b y → WritesTo s c d →
      exec (.lessThan a b c u) s = .next (storedBy s 3 (operandTouches s a ++ operandTouches s b) d
        (if x.toInt < y.toInt then 1 else 0))) ∧
    FaultsInOrder s (.lessThan a b c u) a b c ∧
    (Instr.lessThan a b c u).width = 4 ∧
    (Instr.lessThan a b c u).opcellValue =
      c.mode.code * 10000 + b.mode.code * 1000 + a.mode.code * 100 + 7 + u * 100000

/-- equals (R131). -/
def Obligations.EqualsRule : Prop :=
  ∀ (a b : Operand) (c : Dest) (u : Nat) (s : State),
    (∀ x y d, ReadsAs s a x → ReadsAs s b y → WritesTo s c d →
      exec (.equals a b c u) s = .next (storedBy s 3 (operandTouches s a ++ operandTouches s b) d
        (if x.toInt = y.toInt then 1 else 0))) ∧
    FaultsInOrder s (.equals a b c u) a b c ∧
    (Instr.equals a b c u).width = 4 ∧
    (Instr.equals a b c u).opcellValue =
      c.mode.code * 10000 + b.mode.code * 1000 + a.mode.code * 100 + 8 + u * 100000

/-- adjust-relative-base (R140): the operand is read with the old base, and the sum goes through the overflow
check. -/
def Obligations.AdjustRelativeBaseRule : Prop :=
  ∀ (a : Operand) (u : Nat) (s : State),
    (∀ x, ReadsAs s a x → FitsInt64 (s.rb.toInt + x.toInt) →
      exec (.adjustRelativeBase a u) s =
        .next { advancedBy s 1 (operandTouches s a) with
                rb := BitVec.ofInt 64 (s.rb.toInt + x.toInt) }) ∧
    (∀ x, ReadsAs s a x → ¬ FitsInt64 (s.rb.toInt + x.toInt) →
      (s.cfg.overflowMode = .trap →
        exec (.adjustRelativeBase a u) s =
          .next (faultedFrom s .arithOverflow (Instr.adjustRelativeBase a u).opcell.toInt)) ∧
      (s.cfg.overflowMode = .wrap →
        exec (.adjustRelativeBase a u) s =
          .next { advancedBy s 1 (operandTouches s a) with
                  rb := wrap64 (s.rb.toInt + x.toInt) })) ∧
    (∀ e v, ReadFaults s a e v → exec (.adjustRelativeBase a u) s = .next (faultedFrom s e v)) ∧
    (Instr.adjustRelativeBase a u).width = 2 ∧
    (Instr.adjustRelativeBase a u).opcellValue = a.mode.code * 100 + 9 + u * 1000

/-- halt (R150): `HALTED <- 1`, `IP` unchanged, only the opcode cell touched; every later step is disabled;
and with `STRICT_DECODE = false` every non-negative cell with `cell mod 100 = 99` is halt, in the last memory
cell too. -/
def Obligations.HaltRule : Prop :=
  ∀ (u : Nat) (s : State),
    exec (.halt u) s =
      .next { s with halted := true, memExtent := max s.memExtent (s.ip.toInt.toNat + 1) } ∧
    (∀ t, exec (.halt u) s = .next t → enabled t = false ∧ step t = .next t) ∧
    (Instr.halt u).width = 1 ∧ (Instr.halt u).opcellValue = 99 + u * 100 ∧
    ∀ c : Word, Running s → CellAt s s.ip.toInt c → s.cfg.strictDecode = false → 0 ≤ c.toInt →
      c.toNat % 100 = 99 →
      step s = .next { s with halted := true, memExtent := max s.memExtent (s.ip.toInt.toNat + 1) }

/-- What a storing instruction stores is what every later fetch and read of that cell sees, and every other
cell reads as before, the instruction's own cells included (R62, R71). -/
def Obligations.StoresAreSeenByLaterFetches : Prop :=
  ∀ (s t : State) (i : Instr) (d : Dest) (n : Nat) (v : Word), s.mem.wf = true →
    destOf i = some d → WritesTo s d n →
    ((∃ a b u x y, i = .add a b d u ∧ ReadsAs s a x ∧ ReadsAs s b y ∧ x.toInt + y.toInt = v.toInt) ∨
      (∃ a b u x y, i = .mul a b d u ∧ ReadsAs s a x ∧ ReadsAs s b y ∧ x.toInt * y.toInt = v.toInt) ∨
      (∃ u q, i = .input d u ∧ s.inq = v :: q) ∨
      (∃ a b u x y, i = .lessThan a b d u ∧ ReadsAs s a x ∧ ReadsAs s b y ∧
        v = if x.toInt < y.toInt then 1 else 0) ∨
      (∃ a b u x y, i = .equals a b d u ∧ ReadsAs s a x ∧ ReadsAs s b y ∧
        v = if x.toInt = y.toInt then 1 else 0)) →
    exec i s = .next t →
    memRead t n = .ok v ∧ ∀ a : Int, a ≠ n → memRead t a = memRead s a

/-- The frame of the storing instructions (add, mul, input, less-than, equals): every cell but the one the
write operand addresses reads as before; `RB`, `HALTED`, `OUTLOG`, `KEEP_LAST` and the parameters are
unchanged; `INQ` is unchanged but for input; and the fault registers are unchanged unless the step is a
fault entry, which changes nothing else. -/
def Obligations.FrameOfStoringInstructions : Prop :=
  ∀ (i : Instr) (d : Dest) (s t : State), destOf i = some d → exec i s = .next t →
    (∀ n : Nat, (n : Int) ≠ destAddress s d → t.mem.read n = s.mem.read n) ∧
    t.rb = s.rb ∧ t.halted = s.halted ∧ t.outlog = s.outlog ∧ t.keepLast = s.keepLast ∧
    t.cfg = s.cfg ∧ ((∀ u, i ≠ .input d u) → t.inq = s.inq) ∧
    ((t.cause = s.cause ∧ t.faultIp = s.faultIp ∧ t.faultValue = s.faultValue) ∨
      ∃ c v, t = faultedFrom s c v)

/-- The frame of the instructions that store nothing (output, the jumps, adjust-relative-base, halt): every
cell reads as before; `INQ`, `KEEP_LAST` and the parameters are unchanged; `OUTLOG` but for output, `RB` but
for adjust-relative-base, `HALTED` but for halt; and the fault registers as above. -/
def Obligations.FrameOfNonStoringInstructions : Prop :=
  ∀ (i : Instr) (s t : State), destOf i = none → exec i s = .next t →
    (∀ n : Nat, t.mem.read n = s.mem.read n) ∧
    t.inq = s.inq ∧ t.keepLast = s.keepLast ∧ t.cfg = s.cfg ∧
    ((∀ a u, i ≠ .output a u) → t.outlog = s.outlog) ∧
    ((∀ a u, i ≠ .adjustRelativeBase a u) → t.rb = s.rb) ∧
    ((∀ u, i ≠ .halt u) → t.halted = s.halted) ∧
    ((t.cause = s.cause ∧ t.faultIp = s.faultIp ∧ t.faultValue = s.faultValue) ∨
      ∃ c v, t = faultedFrom s c v)

/-! ### The step -/

/-- A step of a running core whose cells at `IP` decode to an instruction is that instruction's `exec`. -/
def Obligations.StepRunsTheDecodedInstruction : Prop :=
  ∀ (s : State) (i : Instr) (rest : List Word), Running s → InRange s s.ip.toInt →
    s.ip.toInt + i.operandCount < s.cfg.memCells →
    decode s.cfg.strictDecode (cellsFrom s s.ip.toInt.toNat 4) = .ok (i, rest) →
    step s = exec i s

/-- How `IP` advances at commit (R26), exactly and without wrapping (R27): by the width, but for a taken
jump, which sets it to its target, and halt, which leaves it. -/
def Obligations.HowIpAdvances : Prop :=
  ∀ (s t : State) (i : Instr), s.cfg.wf = true → enabled s = true → fetch s = .ok i →
    step s = .next t → t.cause = .none →
    match i with
    | .jumpIfTrue a b _ =>
      ∃ x, ReadsAs s a x ∧
        ((x.toInt ≠ 0 ∧ ReadsAs s b t.ip) ∨ (x.toInt = 0 ∧ t.ip.toInt = s.ip.toInt + 3))
    | .jumpIfFalse a b _ =>
      ∃ x, ReadsAs s a x ∧
        ((x.toInt = 0 ∧ ReadsAs s b t.ip) ∨ (x.toInt ≠ 0 ∧ t.ip.toInt = s.ip.toInt + 3))
    | .halt _ => t.ip = s.ip
    | _ => t.ip.toInt = s.ip.toInt + 1 + i.operandCount

/-- Faults are precise (R162): a step of a running core that ends with a fault recorded has written `CAUSE`,
`FAULT_IP` and `FAULT_VALUE` and nothing else, and the core reads as faulted. -/
def Obligations.FaultEntryIsPrecise : Prop :=
  ∀ s t : State, Running s → step s = .next t → t.cause ≠ .none →
    t.faultIp = s.ip ∧ status t = .faulted ∧
    t = { s with cause := t.cause, faultIp := t.faultIp, faultValue := t.faultValue }

/-- What `FAULT_VALUE` holds (R161): the whole opcode cell for causes 1, 2, 3 and 6; for causes 4 and 5 the
exact address that failed its check, which is `IP` where the opcode cell itself does not exist, `IP + k` where
operand cell k is the first that does not, and else the address of the fetched instruction's first operand
access that fails. -/
def Obligations.FaultValueByCause : Prop :=
  ∀ s t : State, Running s → step s = .next t →
    ((t.cause = .illegalOpcode ∨ t.cause = .illegalMode ∨ t.cause = .immediateWrite ∨
        t.cause = .arithOverflow) →
      ∃ c, CellAt s s.ip.toInt c ∧ t.faultValue.toInt = c.toInt) ∧
    ((t.cause = .negativeAddress ∨ t.cause = .addressRange) →
      AddressFaults s t.faultValue.toInt t.cause ∧
      ((¬ InRange s s.ip.toInt ∧ t.faultValue.toInt = s.ip.toInt) ∨
        (∃ c i, ∃ k : Nat, CellAt s s.ip.toInt c ∧ decodeOpcell s.cfg.strictDecode c = .ok i ∧
          1 ≤ k ∧ k ≤ i.operandCount ∧ (∀ j : Nat, j < k → InRange s (s.ip.toInt + j)) ∧
          t.faultValue.toInt = s.ip.toInt + k) ∨
        ∃ i, fetch s = .ok i ∧ OperandFault s i t.cause t.faultValue.toInt)) ∧
    (¬ InRange s s.ip.toInt →
      AddressFaults s s.ip.toInt t.cause ∧ t.faultValue.toInt = s.ip.toInt) ∧
    ∀ c i, CellAt s s.ip.toInt c → decodeOpcell s.cfg.strictDecode c = .ok i →
      (s.cfg.memCells : Int) ≤ s.ip.toInt + i.operandCount →
      t.cause = .addressRange ∧ t.faultValue.toInt = s.cfg.memCells ∧
        ∃ k : Nat, 1 ≤ k ∧ k ≤ i.operandCount ∧ t.faultValue.toInt = s.ip.toInt + k

/-- Faults are terminal (R163): a faulted core has no step; no host command but a reset changes its fault
registers; a reset clears them; and the host may still peek and read every register. -/
def Obligations.FaultsAreTerminal : Prop :=
  ∀ s : State, s.cause ≠ .none →
    step s = .next s ∧ coreStep s = none ∧
    (∀ c t r, hostCommand c s = some (t, r) → (∀ image, c ≠ .reset image) →
      t.cause = s.cause ∧ t.faultIp = s.faultIp ∧ t.faultValue = s.faultValue) ∧
    (∀ image t r, hostCommand (.reset image) s = some (t, r) →
      t.cause = .none ∧ t.faultIp = 0 ∧ t.faultValue = 0) ∧
    (∀ a, InRange s a → hostCommand (.peek a) s = some (s, .word (s.mem.read a.toNat))) ∧
    hostCommand .faultIp s = some (s, .word s.faultIp) ∧
    hostCommand .faultValue s = some (s, .faultValue s.faultValue) ∧
    hostCommand .cause s = some (s, .cause s.cause.code) ∧
    hostCommand .status s = some (s, .status .faulted) ∧
    hostCommand .isHalted s = some (s, .flag s.halted) ∧
    hostCommand .ip s = some (s, .word s.ip) ∧ hostCommand .rb s = some (s, .word s.rb)

/-- A STEP issued to a core that is not enabled changes no state (R170). -/
def Obligations.DisabledStepChangesNothing : Prop :=
  ∀ s : State, enabled s = false →
    step s = .next s ∧ coreStep s = none ∧ hostCommand .step s = some (s, .status (status s))

/-- The step enable (R169): enabled means no fault, not halted, no stall; and an enabled step does one of two
things, it commits the decoded instruction's effects or it raises one fault. -/
def Obligations.EnabledStepCommitsOrFaults : Prop :=
  ∀ s : State,
    (enabled s = true ↔ s.cause = .none ∧ s.halted = false ∧ status s ≠ .awaitingInput) ∧
    (enabled s = true → ∃ t, step s = .next t ∧ coreStep s = some t ∧
      ((t.cause = .none ∧ ∃ i, fetch s = .ok i ∧ exec i s = .next t) ∨
        (t.cause ≠ .none ∧ ∃ v, t = faultedFrom s t.cause v)))

/-- `STATUS` (R34): its four lines, the first that matches winning, and its codes; and under the invariant a
halted core has no fault recorded. -/
def Obligations.StatusLines : Prop :=
  ∀ s : State,
    (s.cause ≠ .none → status s = .faulted) ∧
    (s.cause = .none → s.halted = true → status s = .halted) ∧
    (Running s → ∀ a u d, fetch s = .ok (.input a u) → WritesTo s a d → s.inq = [] →
      status s = .awaitingInput) ∧
    (Running s → (¬ ∃ a u d, fetch s = .ok (.input a u) ∧ WritesTo s a d ∧ s.inq = []) →
      status s = .ready) ∧
    (s.Inv → ¬ (s.halted = true ∧ s.cause ≠ .none)) ∧
    Status.faulted.code = 3 ∧ Status.halted.code = 1 ∧ Status.awaitingInput.code = 2 ∧
    Status.ready.code = 0

/-- The codes of `CAUSE` (R160); 7 is never produced (R31). -/
def Obligations.CauseCodes : Prop :=
  Cause.none.code = 0 ∧ Cause.illegalOpcode.code = 1 ∧ Cause.illegalMode.code = 2 ∧
  Cause.immediateWrite.code = 3 ∧ Cause.negativeAddress.code = 4 ∧ Cause.addressRange.code = 5 ∧
  Cause.arithOverflow.code = 6 ∧ ∀ c : Cause, c.code ≠ 7

/-! ### Whole-machine rules -/

/-- `HALTED` is set exactly when the halt opcode executes, only a reset clears it, and a halted core has no
step (R28). -/
def Obligations.OnlyHaltSetsHalted : Prop :=
  (∀ s t : State, step s = .next t →
    (t.halted = true ↔ s.halted = true ∨ (Running s ∧ ∃ u, fetch s = .ok (.halt u)))) ∧
  (∀ s t c r, hostCommand c s = some (t, r) → (∀ image, c ≠ .reset image) → s.halted = true →
    t.halted = true) ∧
  (∀ s t image r, hostCommand (.reset image) s = some (t, r) → t.halted = false) ∧
  ∀ s : State, s.halted = true →
    step s = .next s ∧ coreStep s = none ∧ hostCommand .isHalted s = some (s, .flag true)

/-- Only adjust-relative-base writes `RB`, and only its commit does (R29). -/
def Obligations.OnlyAdjustWritesRelativeBase : Prop :=
  ∀ s t : State, step s = .next t → t.rb ≠ s.rb →
    t.cause = .none ∧ ∃ a u, fetch s = .ok (.adjustRelativeBase a u)

/-- Only relative-mode operands and adjust-relative-base read `RB` (R29): any other instruction does the same
whatever `RB` holds. -/
def Obligations.RelativeBaseReadOnlyByRelative : Prop :=
  ∀ (i : Instr) (s t : State) (r : Word), usesRelative i = false →
    (∀ a u, i ≠ .adjustRelativeBase a u) → exec i s = .next t →
    exec i { s with rb := r } = .next { t with rb := r }

/-- `OUTLOG` is append-only (R37): a step leaves it, or is an output instruction and appends its operand's
value, which is then `LAST_OUTPUT`; no other host command but a reset changes it. -/
def Obligations.OutputLogIsAppendOnly : Prop :=
  (∀ s t : State, step s = .next t →
    t.outlog = s.outlog ∨
      ∃ a u x, fetch s = .ok (.output a u) ∧ ReadsAs s a x ∧ t.outlog = s.outlog ++ [x] ∧
        lastOutput t = some x) ∧
  ∀ s t c r, hostCommand c s = some (t, r) → (∀ image, c ≠ .reset image) →
    s.outlog <+: t.outlog

/-- `INQ` is a FIFO (R36): a step leaves it, or is an input instruction and takes the front value, which it
stores; the host appends at the back. -/
def Obligations.InputQueueIsFifo : Prop :=
  (∀ s t : State, step s = .next t →
    t.inq = s.inq ∨
      ∃ a u d v, fetch s = .ok (.input a u) ∧ WritesTo s a d ∧ s.inq = v :: t.inq ∧
        t.mem = s.mem.write d v) ∧
  ∀ s t v, enqueue s v = some t → t = { s with inq := s.inq ++ [v] }

/-- `KEEP_LAST` is read only by the input instruction, and there only with one value queued (R30); no step
changes it, nor a parameter (R22). -/
def Obligations.KeepLastReadOnlyByInput : Prop :=
  (∀ (i : Instr) (s t : State) (b : Bool), ((∀ a u, i ≠ .input a u) ∨ s.inq.length ≠ 1) →
    exec i s = .next t → exec i { s with keepLast := b } = .next { t with keepLast := b }) ∧
  ∀ s t : State, step s = .next t → t.keepLast = s.keepLast ∧ t.cfg = s.cfg

/-- The extent bookkeeping (R73): a committing step sets `MEM_EXTENT` to the largest of its old value and the
accessed addresses plus one; a fault and a stall leave it; a poke raises it and a peek does not; and a store
beyond it leaves every other cell beyond it 0. -/
def Obligations.ExtentBookkeeping : Prop :=
  (∀ (s t : State) (i : Instr), enabled s = true → fetch s = .ok i → step s = .next t →
    t.cause = .none →
    s.memExtent ≤ t.memExtent ∧ (∀ a, Accesses s i a → a < t.memExtent) ∧
    (t.memExtent = s.memExtent ∨ ∃ a, Accesses s i a ∧ (t.memExtent : Int) = a + 1)) ∧
  (∀ s t : State, step s = .next t → (t.cause ≠ .none ∨ enabled s = false) →
    t.memExtent = s.memExtent) ∧
  (∀ s t a v, poke s a v = some t → (t.memExtent : Int) = max (s.memExtent : Int) (a + 1)) ∧
  (∀ s t a r, hostCommand (.peek a) s = some (t, r) → t.memExtent = s.memExtent) ∧
  ∀ (s t : State) (i : Instr) (d : Dest) (n : Nat), s.Inv → enabled s = true → fetch s = .ok i →
    destOf i = some d → WritesTo s d n → step s = .next t → t.cause = .none →
    n < t.memExtent ∧ ∀ a, s.memExtent ≤ a → a ≠ n → t.mem.read a = 0

/-- No program can observe `MEM_EXTENT` (R38): a step does the same to everything else whatever it holds. -/
def Obligations.ExtentIsUnobservable : Prop :=
  ∀ (s t : State) (e : Nat), step s = .next t →
    status { s with memExtent := e } = status s ∧
    ∃ e', step { s with memExtent := e } = .next { t with memExtent := e' }

/-- Zero-fill replaces growth (R52): a run that raises no `AddressRange` is, step for step, the run of a core
with any larger memory. -/
def Obligations.LargerMemoryRunsTheSame : Prop :=
  ∀ (M n : Nat) (s : State), s.cfg.memCells ≤ M →
    (stepState^[n] s).cause ≠ .addressRange →
    stepState^[n] (grown M s) = grown M (stepState^[n] s)

/-! ### Invariants -/

/-- Every step keeps the invariant, from every state that has it. -/
def Obligations.StepKeepsInvariant : Prop :=
  ∀ s t : State, s.Inv → step s = .next t → t.Inv

/-- Every host command keeps the invariant. -/
def Obligations.HostCommandsKeepInvariant : Prop :=
  ∀ (s t : State) (c : HostCommand) (r : Reply), s.Inv → hostCommand c s = some (t, r) → t.Inv

/-- The invariant holds at `State.reset`; the parameters and `MEM_EXTENT` there are the model's choices
(notes/assumptions/2.md, notes/assumptions/3.md). -/
def Obligations.ResetHasInvariant : Prop := State.reset.Inv

/-- The values rule R200 gives for reset hold at `State.reset`, where no image is placed. -/
def Obligations.ResetLeavesTheSpecsValues : Prop :=
  State.reset.ip = 0 ∧ State.reset.rb = 0 ∧ State.reset.halted = false ∧ State.reset.inq = [] ∧
  State.reset.outlog = [] ∧ lastOutput State.reset = none ∧ State.reset.keepLast = false ∧
  State.reset.cause.code = 0 ∧ State.reset.faultIp = 0 ∧ State.reset.faultValue = 0 ∧
  ∀ a, State.reset.mem.read a = 0

/-- Construction and reset with a program image: every piece of state holds the value R200 gives it, and the
invariant holds. Two clauses are not R200's own. An empty or too long image is refused: R203 asks this of the
load, and that the model gives such a construction no move is notes/assumptions/14.md. `STATUS` follows its
definition R34: awaiting input exactly where the image starts with an input instruction that resolves its
write address, ready otherwise (notes/assumptions/24.md). -/
def Obligations.ConstructionFromImage : Prop :=
  ∀ (cfg : Config) (P : List Word),
    ((P = [] ∨ cfg.memCells < P.length) → resetWith cfg P = none) ∧
    (P ≠ [] → P.length ≤ cfg.memCells → ∃ s, resetWith cfg P = some s ∧ s.cfg = cfg ∧
      (∀ (a : Nat) (h : a < P.length), s.mem.read a = P[a]) ∧
      (∀ a, P.length ≤ a → s.mem.read a = 0) ∧
      s.ip = 0 ∧ s.rb = 0 ∧ s.halted = false ∧ s.inq = [] ∧ s.outlog = [] ∧ lastOutput s = none ∧
      s.keepLast = false ∧ s.cause = .none ∧ s.faultIp = 0 ∧ s.faultValue = 0 ∧
      s.memExtent = P.length ∧
      (status s = .awaitingInput ↔ ∃ a u d, fetch s = .ok (.input a u) ∧ WritesTo s a d) ∧
      (status s ≠ .awaitingInput → status s = .ready) ∧
      (cfg.wf = true → s.Inv) ∧
      ∀ t : State, t.cfg = cfg → hostCommand (.reset P) t = some (s, .done))

/-! ### The host's commands -/

/-- Starvation stalls (R111): at its stall check with an empty queue, input ends the step with no state
change, no fault and `STATUS = AWAITING_INPUT`; an enqueue makes the core ready, and its next step runs the
whole instruction; and no command but an enqueue, a reset, or a poke into the instruction's own two cells
ends the waiting. -/
def Obligations.StarvationStalls : Prop :=
  ∀ (s : State) (a : Dest) (u : Nat) (n : Nat), Running s → fetch s = .ok (.input a u) →
    WritesTo s a n → s.inq = [] →
    step s = .next s ∧ status s = .awaitingInput ∧ enabled s = false ∧
    (∀ v t, enqueue s v = some t → status t = .ready ∧ step t = exec (.input a u) t ∧
      ∃ t', step t = .next t' ∧ t'.cause = .none ∧ t'.ip = s.ip + 2) ∧
    ∀ c t r, hostCommand c s = some (t, r) → status t ≠ .awaitingInput →
      (∃ v, c = .enqueue v) ∨ (∃ image, c = .reset image) ∨
        ∃ k v, c = .poke k v ∧ (k = s.ip.toInt ∨ k = s.ip.toInt + 1)

/-- `ENQUEUE` (R180): appended where there is room, refused where the queue is full, in every status. -/
def Obligations.EnqueueAppendsOrRefuses : Prop :=
  ∀ (s : State) (v : Word),
    ((∀ d, s.cfg.inDepth = some d → s.inq.length < d) →
      hostCommand (.enqueue v) s = some ({ s with inq := s.inq ++ [v] }, .done)) ∧
    ∀ d, s.cfg.inDepth = some d → d ≤ s.inq.length → hostCommand (.enqueue v) s = none

/-- The output queries (R181): the last value or none, and the whole log; neither changes state. -/
def Obligations.OutputQueries : Prop :=
  ∀ s : State,
    (s.outlog = [] → hostCommand .lastOutput s = some (s, .maybeWord none)) ∧
    (∀ l x, s.outlog = l ++ [x] → hostCommand .lastOutput s = some (s, .maybeWord (some x))) ∧
    hostCommand .outputs s = some (s, .words s.outlog)

/-- Peek and poke (R182): the cell and no change; the cell set and the extent raised, `HALTED` and `CAUSE`
never cleared; refused at an address that does not exist; in every status. -/
def Obligations.PeekAndPoke : Prop :=
  ∀ (s : State) (a : Int) (v : Word), s.mem.wf = true →
    (InRange s a →
      hostCommand (.peek a) s = some (s, .word (s.mem.read a.toNat)) ∧
      ∃ t, hostCommand (.poke a v) s = some (t, .done) ∧ t.mem.wf = true ∧
        t = { s with mem := t.mem, memExtent := max s.memExtent (a.toNat + 1) } ∧
        ∀ b : Nat, t.mem.read b = if (b : Int) = a then v else s.mem.read b) ∧
    (¬ InRange s a → hostCommand (.peek a) s = none ∧ hostCommand (.poke a v) s = none) ∧
    hostCommand .memExtent s = some (s, .extent s.memExtent)

/-- `SET_KEEP_LAST` (R183), in every status. -/
def Obligations.SetKeepLast : Prop :=
  ∀ (s : State) (b : Bool), hostCommand (.setKeepLast b) s = some ({ s with keepLast := b }, .done)

/-- The status queries (R187): each returns its register and changes nothing. -/
def Obligations.StatusQueries : Prop :=
  ∀ s : State,
    hostCommand .isHalted s = some (s, .flag s.halted) ∧
    hostCommand .status s = some (s, .status (status s)) ∧
    hostCommand .cause s = some (s, .cause s.cause.code) ∧
    hostCommand .faultIp s = some (s, .word s.faultIp) ∧
    hostCommand .faultValue s = some (s, .faultValue s.faultValue) ∧
    hostCommand .ip s = some (s, .word s.ip) ∧ hostCommand .rb s = some (s, .word s.rb)

/-- `RUN_UNTIL_HALT` (R185): it repeats the step while the core is enabled; it returns, within `n` steps,
exactly when one of the first `n + 1` states is not enabled, and then the status of the first such state,
which is halted, faulted or awaiting input. The bound `n` is the model's (notes/assumptions/13.md). -/
def Obligations.RunUntilHaltStopsFirst : Prop :=
  ∀ (n : Nat) (s t : State),
    hostCommand (.runUntilHalt n) s = some (t, .status (status t)) ↔
      ∃ k, k ≤ n ∧ t = stepState^[k] s ∧
        (status t = .halted ∨ status t = .faulted ∨ status t = .awaitingInput) ∧
        ∀ j, j < k → enabled (stepState^[j] s) = true

/-- `RUN_UNTIL_OUTPUT_OR_HALT` (R186): it returns, within `n` steps, exactly when one of the first `n + 1`
states has one new value in the log, and then that value, or is not enabled with the log as it was; it stops
in the first such state. The bound `n` is the model's (notes/assumptions/13.md). -/
def Obligations.RunUntilOutputStopsFirst : Prop :=
  ∀ (n : Nat) (s t : State) (v : Option Word),
    hostCommand (.runUntilOutputOrHalt n) s = some (t, .statusAndOutput (status t) v) ↔
      ∃ k, k ≤ n ∧ t = stepState^[k] s ∧
        (∀ j, j < k → enabled (stepState^[j] s) = true ∧ (stepState^[j] s).outlog = s.outlog) ∧
        ((∃ x, t.outlog = s.outlog ++ [x] ∧ v = some x) ∨
          (t.outlog = s.outlog ∧ v = none ∧ enabled t = false))

/-- Instances share nothing (R190, R191): a command to one leaves every other as it was; a forward changes
only the queue of the instance it feeds; a snapshot adds an equal instance and a construction a reset one, and
neither changes any. That the instances are a list, that a new one stands at its end, and that a forward (a
read of one output and an enqueue) is one command are the model's choices: notes/assumptions/19.md. -/
def Obligations.InstancesShareNothing : Prop :=
  (∀ (y z : System) k c r, systemCommand (.on k c) y = some (z, r) →
    z.cores.length = y.cores.length ∧ ∀ j, j ≠ k → z.cores[j]? = y.cores[j]?) ∧
  (∀ (y z : System) k l r, systemCommand (.forward k l) y = some (z, r) →
    (∀ j, j ≠ l → z.cores[j]? = y.cores[j]?) ∧
    ∃ s t v, y.cores[k]? = some s ∧ lastOutput s = some v ∧ y.cores[l]? = some t ∧
      z.cores[l]? = some { t with inq := t.inq ++ [v] }) ∧
  (∀ (y z : System) k r, systemCommand (.snapshot k) y = some (z, r) →
    z.cores.length = y.cores.length + 1 ∧
    (∀ j, j < y.cores.length → z.cores[j]? = y.cores[j]?) ∧
    z.cores[y.cores.length]? = y.cores[k]? ∧ y.cores[k]?.isSome = true) ∧
  ∀ (y z : System) cfg image r, systemCommand (.create cfg image) y = some (z, r) →
    z.cores.length = y.cores.length + 1 ∧
    (∀ j, j < y.cores.length → z.cores[j]? = y.cores[j]?) ∧
    ∃ s, resetWith cfg image = some s ∧ z.cores[y.cores.length]? = some s

/-! ### Load and assembler -/

/-- The load (R203), in the rule's own terms: every text is trimmed and split on `,` into pieces in some way;
a piece that is not an optional `-` followed by one or more decimal digits, or whose value does not fit in
int64, gives no instance; pieces that denote cell values give the instance reset with that image if it fits
and none if it does not; and the decimal text of any non-empty list of cells that fits loads to that image.
Which characters are white space is the model's choice: notes/assumptions/17.md. -/
def Obligations.LoadRefusesMalformedText : Prop :=
  ∀ (cfg : Config),
    (∀ text, ∃ pieces, SplitsInto text pieces) ∧
    (∀ text pieces, SplitsInto text pieces →
      ((∃ p ∈ pieces, ¬ ∃ v, PieceDenotes p v ∧ FitsInt64 v) → load cfg text = none) ∧
      ∀ P : List Word, List.Forall₂ (fun p (w : Word) => PieceDenotes p w.toInt) pieces P →
        (cfg.memCells < P.length → load cfg text = none) ∧
        (P.length ≤ cfg.memCells → ∃ s, load cfg text = some s ∧ resetWith cfg P = some s)) ∧
    ∀ P : List Word, P ≠ [] → P.length ≤ cfg.memCells →
      ∃ s, load cfg (joinPieces (P.map cellText)) = some s ∧ resetWith cfg P = some s

/-- The assembler's instruction encoding (R93): it encodes every instruction of the opcode map whose operands
are as many as the map says and whose write operand, if there is one, is not immediate; the opcode cell is
`opcode + 100·m1 + 1000·m2 + 10000·m3` with 0 for absent operands and the operand cells follow; and an
immediate write operand is refused. -/
def Obligations.AssemblerEncodes : Prop :=
  (∀ op os i, instrOf op os = some i →
    i.wf true = true ∧ i.opcode = op ∧
    encode i = BitVec.ofNat 64 (op + 100 * ((os[0]?.map fun (o : Operand) => o.mode.code).getD 0) +
      1000 * ((os[1]?.map fun (o : Operand) => o.mode.code).getD 0) +
      10000 * ((os[2]?.map fun (o : Operand) => o.mode.code).getD 0)) ::
        os.map fun (o : Operand) => o.raw) ∧
  (∀ op n w os, (op, n, w) ∈ opcodeMap → os.length = n →
    (∀ (k : Nat) (o : Operand), w = some (k + 1) → os[k]? = some o → o.mode ≠ .immediate) →
    ∃ i, instrOf op os = some i) ∧
  (∀ labels op ops os i, ops.mapM (fun (o : AsmOperand) => o.resolve labels) = some os →
    instrOf op os = some i → (AsmItem.instr op ops).assemble labels = some (encode i)) ∧
  (∀ a b raw, instrOf 1 [a, b, ⟨.immediate, raw⟩] = none ∧ instrOf 2 [a, b, ⟨.immediate, raw⟩] = none ∧
    instrOf 7 [a, b, ⟨.immediate, raw⟩] = none ∧ instrOf 8 [a, b, ⟨.immediate, raw⟩] = none ∧
    instrOf 3 [⟨.immediate, raw⟩] = none)

/-- The pseudo-instruction `jmp t` (R94): three cells, `jump-if-true #1, t`, an unconditional jump to the
value of any readable target operand. -/
def Obligations.JmpIsUnconditional : Prop :=
  ∀ (o : Operand), (Instr.jmp o).width = 3 ∧ Instr.jmp o = .jumpIfTrue ⟨.immediate, 1⟩ o 0 ∧
    ∀ (s : State) (t : Word), ReadsAs s o t →
      ∃ s', exec (Instr.jmp o) s = .next s' ∧ s'.ip = t ∧ s'.mem = s.mem
end

