-- ==== Sys2Proof/Laws/Ops.lean ====
section
/-! SUPPORT. One lemma per shared operation that says everything it can answer: the address check, the
memory read, operand resolution, the overflow check, the extent bookkeeping, the end of a step. -/

namespace Sys2Proof.Machine

/-! ### Sequencing -/

theorem bind_eq_ok {ε α β : Type} {x : Except ε α} {f : α → Except ε β} {b : β} :
    (x >>= f) = .ok b ↔ ∃ a, x = .ok a ∧ f a = .ok b := by
  cases x <;> simp [bind, Except.bind]

theorem bind_eq_error {ε α β : Type} {x : Except ε α} {f : α → Except ε β} {e : ε} :
    (x >>= f) = .error e ↔ x = .error e ∨ ∃ a, x = .ok a ∧ f a = .error e := by
  cases x <;> simp [bind, Except.bind]

@[simp] theorem ok_bind {ε α β : Type} (a : α) (f : α → Except ε β) :
    ((Except.ok a : Except ε α) >>= f) = f a := rfl

@[simp] theorem error_bind {ε α β : Type} (e : ε) (f : α → Except ε β) :
    ((Except.error e : Except ε α) >>= f) = .error e := rfl

@[simp] theorem pure_eq_ok {ε α : Type} (a : α) : (pure a : Except ε α) = .ok a := rfl

/-! ### Addresses and reads -/

theorem checkAddr_eq_ok {cfg : Config} {a : Int} {n : Nat} :
    checkAddr cfg a = .ok n ↔ 0 ≤ a ∧ a < cfg.memCells ∧ n = a.toNat := by
  unfold checkAddr
  split
  · simp; omega
  · split
    · simp; omega
    · simp; constructor
      · rintro rfl; omega
      · rintro ⟨_, _, rfl⟩; rfl

theorem checkAddr_eq_error {cfg : Config} {a : Int} {r : Raise} :
    checkAddr cfg a = .error r ↔
      (a < 0 ∧ r = ⟨.negativeAddress, a⟩) ∨
        (0 ≤ a ∧ (cfg.memCells : Int) ≤ a ∧ r = ⟨.addressRange, a⟩) := by
  unfold checkAddr
  split
  · simp only [Except.error.injEq]
    constructor
    · rintro rfl; exact .inl ⟨‹_›, rfl⟩
    · rintro (⟨_, rfl⟩ | ⟨h, _⟩)
      · rfl
      · omega
  · split
    · simp only [Except.error.injEq]
      constructor
      · rintro rfl; exact .inr ⟨by omega, ‹_›, rfl⟩
      · rintro (⟨h, _⟩ | ⟨_, _, rfl⟩)
        · omega
        · rfl
    · simp only [reduceCtorEq, false_iff]
      omega

theorem checkAddr_ok_of_inRange {s : State} {a : Int} (h : InRange s a) :
    checkAddr s.cfg a = .ok a.toNat := checkAddr_eq_ok.mpr ⟨h.1, h.2, rfl⟩

theorem checkAddr_error_of_faults {s : State} {a : Int} {c : Cause} (h : AddressFaults s a c) :
    checkAddr s.cfg a = .error ⟨c, a⟩ := by
  rw [checkAddr_eq_error]
  rcases h with ⟨h, rfl⟩ | ⟨h, h0, rfl⟩
  · exact .inl ⟨h, rfl⟩
  · exact .inr ⟨h0, h, rfl⟩

theorem memRead_eq_ok {s : State} {a : Int} {w : Word} :
    memRead s a = .ok w ↔ InRange s a ∧ w = s.mem.read a.toNat := by
  simp only [memRead, bind_eq_ok, checkAddr_eq_ok, pure_eq_ok, Except.ok.injEq, InRange]
  constructor
  · rintro ⟨n, ⟨h0, h1, rfl⟩, rfl⟩; exact ⟨⟨h0, h1⟩, rfl⟩
  · rintro ⟨⟨h0, h1⟩, rfl⟩; exact ⟨_, ⟨h0, h1, rfl⟩, rfl⟩

theorem memRead_eq_error {s : State} {a : Int} {r : Raise} :
    memRead s a = .error r ↔ AddressFaults s a r.cause ∧ r.value = a := by
  simp only [memRead, bind_eq_error, checkAddr_eq_error, pure_eq_ok, reduceCtorEq, and_false,
    exists_false, or_false, AddressFaults]
  obtain ⟨c, v⟩ := r
  simp only [Raise.mk.injEq]
  constructor
  · rintro (⟨h, rfl, rfl⟩ | ⟨h0, h, rfl, rfl⟩)
    · exact ⟨.inl ⟨h, rfl⟩, rfl⟩
    · exact ⟨.inr ⟨h, h0, rfl⟩, rfl⟩
  · rintro ⟨⟨h, rfl⟩ | ⟨h, h0, rfl⟩, rfl⟩
    · exact .inl ⟨h, rfl, rfl⟩
    · exact .inr ⟨h0, h, rfl, rfl⟩

/-- An address either exists or faults. -/
theorem inRange_or_faults (s : State) (a : Int) : InRange s a ∨ ∃ c, AddressFaults s a c := by
  by_cases h0 : a < 0
  · exact .inr ⟨_, .inl ⟨h0, rfl⟩⟩
  · by_cases h1 : (s.cfg.memCells : Int) ≤ a
    · exact .inr ⟨_, .inr ⟨h1, by omega, rfl⟩⟩
    · exact .inl ⟨by omega, by omega⟩

/-! ### Operands -/

theorem operandAddress_eq_some {s : State} {o : Operand} {a : Int} :
    operandAddress s o = some a ↔ Addresses s o a := by
  unfold operandAddress Addresses
  cases o.mode <;> simp [eq_comm]

theorem operandAddress_eq_none {s : State} {o : Operand} :
    operandAddress s o = none ↔ o.mode = .immediate := by
  unfold operandAddress
  cases o.mode <;> simp

theorem readOperand_eq_ok {s : State} {o : Operand} {x : Word} :
    readOperand s o = .ok x ↔ ReadsAs s o x := by
  unfold readOperand ReadsAs
  cases h : operandAddress s o with
  | none =>
    have hm := operandAddress_eq_none.mp h
    simp only [Except.ok.injEq, hm, true_and]
    constructor
    · rintro rfl; exact .inl rfl
    · rintro (rfl | ⟨a, ha, _⟩)
      · rfl
      · rw [← operandAddress_eq_some, h] at ha; cases ha
  | some a =>
    have hm : o.mode ≠ .immediate := by
      intro hm; rw [operandAddress_eq_none.mpr hm] at h; cases h
    simp only [memRead_eq_ok, hm, false_and, false_or]
    constructor
    · rintro ⟨hr, rfl⟩; exact ⟨a, operandAddress_eq_some.mp h, hr, rfl⟩
    · rintro ⟨b, hb, hr, rfl⟩
      rw [← operandAddress_eq_some, h] at hb
      cases hb
      exact ⟨hr, rfl⟩

theorem readOperand_eq_error {s : State} {o : Operand} {r : Raise} :
    readOperand s o = .error r ↔ ReadFaults s o r.cause r.value := by
  unfold readOperand ReadFaults
  cases h : operandAddress s o with
  | none =>
    simp only [reduceCtorEq, false_iff]
    rintro ⟨ha, _⟩
    rw [← operandAddress_eq_some, h] at ha; cases ha
  | some a =>
    simp only [memRead_eq_error]
    constructor
    · rintro ⟨hf, hv⟩
      rw [hv]; exact ⟨operandAddress_eq_some.mp h, hf⟩
    · rintro ⟨ha, hf⟩
      rw [← operandAddress_eq_some, h] at ha
      cases ha
      exact ⟨hf, rfl⟩

theorem destAddress_eq {s : State} {d : Dest} {a : Int} : destAddress s d = a ↔ DestAddresses s d a := by
  unfold destAddress DestAddresses
  cases d.mode <;> simp [eq_comm]

theorem writeAddr_eq_ok {s : State} {d : Dest} {n : Nat} :
    writeAddr s d = .ok n ↔ WritesTo s d n := by
  unfold writeAddr WritesTo
  rw [checkAddr_eq_ok, ← destAddress_eq]
  omega

theorem writeAddr_eq_error {s : State} {d : Dest} {r : Raise} :
    writeAddr s d = .error r ↔ WriteFaults s d r.cause r.value := by
  unfold writeAddr WriteFaults AddressFaults
  rw [checkAddr_eq_error, ← destAddress_eq]
  obtain ⟨c, v⟩ := r
  simp only [Raise.mk.injEq]
  constructor
  · rintro (⟨h, rfl, rfl⟩ | ⟨h0, h, rfl, rfl⟩)
    · exact ⟨rfl, .inl ⟨h, rfl⟩⟩
    · exact ⟨rfl, .inr ⟨h, h0, rfl⟩⟩
  · rintro ⟨rfl, ⟨h, rfl⟩ | ⟨h, h0, rfl⟩⟩
    · exact .inl ⟨h, rfl, rfl⟩
    · exact .inr ⟨h0, h, rfl, rfl⟩

/-! ### Arithmetic -/

theorem arith64_of_fits {cfg : Config} {c : Word} {v : Int} (h : FitsInt64 v) :
    arith64 cfg c v = .ok (BitVec.ofInt 64 v) := by
  unfold arith64
  rw [if_pos h]

theorem arith64_of_not_fits {cfg : Config} {c : Word} {v : Int} (h : ¬ FitsInt64 v) :
    arith64 cfg c v =
      match cfg.overflowMode with
      | .trap => .error ⟨.arithOverflow, c.toInt⟩
      | .wrap => .ok (wrap64 v) := by
  unfold arith64
  exact if_neg h

/-- The only fault of the overflow check. -/
theorem arith64_eq_error {cfg : Config} {c : Word} {v : Int} {r : Raise}
    (h : arith64 cfg c v = .error r) :
    ¬ FitsInt64 v ∧ cfg.overflowMode = .trap ∧ r = ⟨.arithOverflow, c.toInt⟩ := by
  by_cases hv : FitsInt64 v
  · rw [arith64_of_fits hv] at h; cases h
  · rw [arith64_of_not_fits hv] at h
    cases hm : cfg.overflowMode
    · rw [hm] at h; exact ⟨hv, rfl, (Except.error.inj h).symm⟩
    · rw [hm] at h; cases h

/-- A value that fits is kept exactly. -/
theorem toInt_ofInt_of_fits {v : Int} (h : FitsInt64 v) : (BitVec.ofInt 64 v).toInt = v := by
  unfold FitsInt64 int64Min int64Max at h
  rw [BitVec.toInt_ofInt]
  exact Int.bmod_eq_of_le (by norm_num; omega) (by norm_num; omega)

/-! ### Extent -/

theorem extentAfter_append (e : Nat) (l m : List Int) :
    extentAfter e (l ++ m) = extentAfter (extentAfter e l) m := by
  simp [extentAfter]

theorem le_extentAfter (e : Nat) : ∀ l : List Int, e ≤ extentAfter e l := by
  intro l
  induction l generalizing e with
  | nil => exact le_rfl
  | cons a l ih => exact (le_max_left _ _).trans (ih _)

theorem lt_extentAfter {e : Nat} {l : List Int} {a : Int} (h : a ∈ l) : a.toNat < extentAfter e l := by
  induction l generalizing e with
  | nil => cases h
  | cons b l ih =>
    rcases List.mem_cons.mp h with rfl | h
    · exact Nat.lt_of_lt_of_le (Nat.lt_of_lt_of_le (Nat.lt_succ_self _) (le_max_right _ _))
        (le_extentAfter _ _)
    · exact ih h

theorem extentAfter_le {e n : Nat} {l : List Int} (he : e ≤ n) (h : ∀ a ∈ l, a.toNat < n) :
    extentAfter e l ≤ n := by
  induction l generalizing e with
  | nil => exact he
  | cons b l ih =>
    exact ih (max_le he (h b (by simp))) fun a ha => h a (by simp [ha])

/-- The extent after some accesses is the old one or one access plus one. -/
theorem extentAfter_cases (e : Nat) (l : List Int) :
    extentAfter e l = e ∨ ∃ a ∈ l, extentAfter e l = a.toNat + 1 := by
  induction l generalizing e with
  | nil => exact .inl rfl
  | cons b l ih =>
    have hstep : extentAfter e (b :: l) = extentAfter (max e (b.toNat + 1)) l := rfl
    rcases ih (max e (b.toNat + 1)) with h | ⟨a, ha, h⟩
    · by_cases hb : b.toNat + 1 ≤ e
      · left; rw [hstep, h]; omega
      · right; exact ⟨b, by simp, by rw [hstep, h]; omega⟩
    · exact .inr ⟨a, by simp [ha], hstep.trans h⟩

theorem mem_fetchTouches {s : State} {n : Nat} {a : Int} :
    a ∈ fetchTouches s n ↔ ∃ k, k ≤ n ∧ a = s.ip.toInt + (k : Int) := by
  simp only [fetchTouches, List.mem_map, List.mem_range]
  constructor
  · rintro ⟨k, hk, rfl⟩; exact ⟨k, by omega, rfl⟩
  · rintro ⟨k, hk, rfl⟩; exact ⟨k, by omega, rfl⟩

theorem mem_operandTouches {s : State} {o : Operand} {a : Int} :
    a ∈ operandTouches s o ↔ Addresses s o a := by
  rw [← operandAddress_eq_some]; simp [operandTouches]

/-- A readable operand's addresses exist. -/
theorem touches_inRange {s : State} {o : Operand} {x : Word} (h : ReadsAs s o x) {a : Int}
    (ha : a ∈ operandTouches s o) : InRange s a := by
  rw [mem_operandTouches] at ha
  rcases h with ⟨hm, _⟩ | ⟨b, hb, hr, _⟩
  · rw [← operandAddress_eq_some, operandAddress_eq_none.mpr hm] at ha; cases ha
  · rw [← operandAddress_eq_some] at ha hb
    rw [ha] at hb; cases hb; exact hr

/-! ### Bounds -/

/-- Every cell is a signed 64-bit value (R51). -/
theorem toInt_bounds (w : Word) : -9223372036854775808 ≤ w.toInt ∧ w.toInt ≤ 9223372036854775807 := by
  have h1 := BitVec.le_toInt w
  have h2 := BitVec.toInt_lt (x := w)
  norm_num at h1 h2
  omega

/-- `FAULT_VALUE` holds every value in its range exactly (R33). -/
theorem toInt_ofInt_65 {v : Int} (h : -18446744073709551616 ≤ v) (h' : v < 18446744073709551616) :
    (BitVec.ofInt 65 v).toInt = v := by
  rw [BitVec.toInt_ofInt]
  exact Int.bmod_eq_of_le (by norm_num; omega) (by norm_num; omega)

/-- The range of `MEM_CELLS` (R8). -/
theorem memCells_of_wf {c : Config} (h : c.wf = true) : 1 ≤ c.memCells ∧ (c.memCells : Int) ≤ int64Max := by
  unfold Config.wf at h
  simp only [Bool.and_eq_true, decide_eq_true_eq] at h
  exact h.1

/-- A read operand's address fits in 65 bits (R33). -/
theorem addresses_bounds {s : State} {o : Operand} {v : Int} (h : Addresses s o v) :
    -18446744073709551616 ≤ v ∧ v < 18446744073709551616 := by
  have h1 := toInt_bounds o.raw
  have h2 := toInt_bounds s.rb
  unfold Addresses at h
  split at h <;> first | omega | exact h.elim

/-- A write operand's address fits in 65 bits (R33). -/
theorem destAddresses_bounds {s : State} {d : Dest} {v : Int} (h : DestAddresses s d v) :
    -18446744073709551616 ≤ v ∧ v < 18446744073709551616 := by
  have h1 := toInt_bounds d.raw
  have h2 := toInt_bounds s.rb
  unfold DestAddresses at h
  split at h <;> omega

/-- An operand address fault is the fault of an address that fits in 65 bits (R33, R161). -/
theorem operandFault_address {s : State} {i : Instr} {c : Cause} {v : Int} (h : OperandFault s i c v) :
    AddressFaults s v c ∧ -18446744073709551616 ≤ v ∧ v < 18446744073709551616 := by
  have r : ∀ {o}, ReadFaults s o c v →
      AddressFaults s v c ∧ -18446744073709551616 ≤ v ∧ v < 18446744073709551616 :=
    fun h => ⟨h.2, addresses_bounds h.1⟩
  have w : ∀ {d}, WriteFaults s d c v →
      AddressFaults s v c ∧ -18446744073709551616 ≤ v ∧ v < 18446744073709551616 :=
    fun h => ⟨h.2, destAddresses_bounds h.1⟩
  cases i with
  | add a b d u | mul a b d u | lessThan a b d u | equals a b d u =>
    rcases h with h | ⟨_, _, h | ⟨_, _, h⟩⟩
    · exact r h
    · exact r h
    · exact w h
  | input d u => exact w h
  | output a u | adjustRelativeBase a u => exact r h
  | jumpIfTrue a b u | jumpIfFalse a b u =>
    rcases h with h | ⟨_, _, _, h⟩
    · exact r h
    · exact r h
  | halt u => exact h.elim

/-- A readable operand has one value. -/
theorem readsAs_unique {s : State} {o : Operand} {x y : Word} (h1 : ReadsAs s o x) (h2 : ReadsAs s o y) :
    x = y := by
  rw [← readOperand_eq_ok] at h1 h2
  rw [h1] at h2
  cases h2
  rfl

/-- A write operand that names a cell names that cell alone. -/
theorem destAddresses_iff {s : State} {d : Dest} {n : Nat} (h : WritesTo s d n) (a : Int) :
    DestAddresses s d a ↔ a = (n : Int) := by
  rw [← destAddress_eq, destAddress_eq.mpr h.1, eq_comm]

theorem inRange_of_writesTo {s : State} {d : Dest} {n : Nat} (h : WritesTo s d n) :
    InRange s (n : Int) := ⟨by omega, by exact_mod_cast h.2⟩

/-! ### The end of a step -/

theorem takeFault_eq_faultedFrom (s : State) (r : Raise) :
    takeFault s r = faultedFrom s r.cause r.value := rfl

theorem finish_ok (s t : State) : finish s (.ok t) = .next t := rfl

theorem finish_error (s : State) (r : Raise) :
    finish s (.error r) = .next (faultedFrom s r.cause r.value) := rfl

/-- What the end of a step can answer. -/
theorem finish_eq_next {s t : State} {x : Except Raise State} :
    finish s x = .next t ↔ x = .ok t ∨ ∃ r, x = .error r ∧ t = faultedFrom s r.cause r.value := by
  cases x with
  | ok u => simp [finish]
  | error r => simp [finish_error, eq_comm]

end Sys2Proof.Machine
end

