-- ==== Sys2Proof/Laws/Decode.lean ====
section
/-! SUPPORT. One lemma per decoding helper, and the value of an opcode cell (rules R57, R82, R85, R86, R93). -/

namespace Sys2Proof

open Sys2Proof.Machine

theorem modeOf_eq_ok {d : Nat} {m : Mode} : modeOf d = .ok m ↔ d = m.code := by
  unfold modeOf
  cases m <;> split <;> simp_all [Mode.code]

theorem modeOf_eq_error {d : Nat} {f : DecodeFault} :
    modeOf d = .error f ↔ 2 < d ∧ f = .illegalMode := by
  unfold modeOf
  split
  · simp
  · simp
  · simp
  · rename_i h0 h1 h2
    simp only [Except.error.injEq, eq_comm (a := DecodeFault.illegalMode)]
    constructor
    · rintro rfl
      refine ⟨?_, rfl⟩
      rcases d with _ | _ | _ | d
      · exact absurd rfl h0
      · exact absurd rfl h1
      · exact absurd rfl h2
      · omega
    · exact fun h => h.2

theorem destModeOf_eq_ok {d : Nat} {m : DestMode} : destModeOf d = .ok m ↔ d = m.code := by
  unfold destModeOf
  cases m <;> split <;> simp_all [DestMode.code]

theorem destModeOf_eq_error {d : Nat} {f : DecodeFault} :
    destModeOf d = .error f ↔ (d = 1 ∧ f = .immediateWrite) ∨ (2 < d ∧ f = .illegalMode) := by
  unfold destModeOf
  split
  · simp
  · simp [eq_comm]
  · simp
  · rename_i h0 h1 h2
    simp only [Except.error.injEq, eq_comm (a := DecodeFault.illegalMode)]
    rcases d with _ | _ | _ | d
    · exact absurd rfl h0
    · exact absurd rfl h1
    · exact absurd rfl h2
    · simp

theorem unusedOf_eq_ok {strict : Bool} {u v : Nat} :
    unusedOf strict u = .ok v ↔ (strict = true → u = 0) ∧ v = u := by
  unfold unusedOf
  by_cases h : u = 0
  · subst u; cases strict <;> simp [Eq.comm (a := v)]
  · cases strict <;> simp [h, Eq.comm (a := v)]

theorem unusedOf_eq_error {strict : Bool} {u : Nat} {f : DecodeFault} :
    unusedOf strict u = .error f ↔ strict = true ∧ u ≠ 0 ∧ f = .illegalMode := by
  unfold unusedOf
  by_cases h : u = 0
  · subst u; cases strict <;> simp
  · cases strict <;> simp [h, Eq.comm (a := f)]

theorem Mode.code_le (m : Mode) : m.code ≤ 2 := by cases m <;> decide

theorem DestMode.code_cases (m : DestMode) : m.code = 0 ∨ m.code = 2 := by cases m <;> decide

/-- A cell that is not negative holds its natural value (R82). -/
theorem toInt_eq_toNat_of_nonneg {c : Word} (h : 0 ≤ c.toInt) :
    c.toInt = c.toNat ∧ c.toNat < 9223372036854775808 := by
  rw [BitVec.toInt_eq_toNat_cond] at h ⊢
  have := c.isLt
  split at h
  · rw [if_pos ‹_›]; exact ⟨rfl, by omega⟩
  · omega

theorem opcellFits_iff {i : Instr} : i.opcellFits = true ↔ i.opcellValue < 9223372036854775808 := by
  unfold Instr.opcellFits int64Max
  rw [decide_eq_true_iff]
  omega

/-- The opcode cell of an instruction whose cell exists. -/
theorem opcell_toNat {i : Instr} (h : i.opcellFits = true) : i.opcell.toNat = i.opcellValue := by
  have h := opcellFits_iff.mp h
  simp only [Instr.opcell, BitVec.toNat_ofNat]
  omega

theorem opcell_toInt {i : Instr} (h : i.opcellFits = true) : i.opcell.toInt = i.opcellValue := by
  rw [BitVec.toInt_eq_toNat_cond, opcell_toNat h]
  have h := opcellFits_iff.mp h
  rw [if_pos (by omega)]

/-- The mode digits of an instruction take `n` decimal places (R80). -/
theorem modeDigits_lt (i : Instr) : i.modeDigits < 10 ^ i.operandCount := by
  cases i with
  | add a b c _ | mul a b c _ | lessThan a b c _ | equals a b c _ =>
    have := a.mode.code_le
    have := b.mode.code_le
    have := c.mode.code_cases
    simp only [Instr.modeDigits, Instr.operandCount]
    omega
  | jumpIfTrue a b _ | jumpIfFalse a b _ =>
    have := a.mode.code_le
    have := b.mode.code_le
    simp only [Instr.modeDigits, Instr.operandCount]
    omega
  | output a _ | adjustRelativeBase a _ =>
    have := a.mode.code_le
    simp only [Instr.modeDigits, Instr.operandCount]
    omega
  | input a _ =>
    have := a.mode.code_cases
    simp only [Instr.modeDigits, Instr.operandCount]
    omega
  | halt _ => simp [Instr.modeDigits, Instr.operandCount]

/-- The two lowest digits of an opcode cell are the opcode (R82). -/
theorem opcellValue_mod (i : Instr) : i.opcellValue % 100 = i.opcode := by
  cases i <;> simp only [Instr.opcellValue, Instr.operandCount, Instr.opcode] <;> omega

end Sys2Proof
end

