-- ==== Sys2Proof/Laws/State.lean ====
section
/-! SUPPORT. What each shared update of State leaves in each field, one lemma per field per update, so that
no later proof unfolds a record update. -/

namespace Sys2Proof.Machine

variable (s : State)

/-! `touch` -/

@[simp] theorem touch_cfg (n : Nat) (l : List Int) : (touch s n l).cfg = s.cfg := rfl
@[simp] theorem touch_mem (n : Nat) (l : List Int) : (touch s n l).mem = s.mem := rfl
@[simp] theorem touch_ip (n : Nat) (l : List Int) : (touch s n l).ip = s.ip := rfl
@[simp] theorem touch_rb (n : Nat) (l : List Int) : (touch s n l).rb = s.rb := rfl
@[simp] theorem touch_halted (n : Nat) (l : List Int) : (touch s n l).halted = s.halted := rfl
@[simp] theorem touch_inq (n : Nat) (l : List Int) : (touch s n l).inq = s.inq := rfl
@[simp] theorem touch_outlog (n : Nat) (l : List Int) : (touch s n l).outlog = s.outlog := rfl
@[simp] theorem touch_keepLast (n : Nat) (l : List Int) : (touch s n l).keepLast = s.keepLast := rfl
@[simp] theorem touch_cause (n : Nat) (l : List Int) : (touch s n l).cause = s.cause := rfl
@[simp] theorem touch_faultIp (n : Nat) (l : List Int) : (touch s n l).faultIp = s.faultIp := rfl
@[simp] theorem touch_faultValue (n : Nat) (l : List Int) : (touch s n l).faultValue = s.faultValue := rfl
@[simp] theorem touch_memExtent (n : Nat) (l : List Int) : (touch s n l).memExtent = extentAfter s.memExtent (fetchTouches s n ++ l) := rfl

/-! `commit` -/

@[simp] theorem commit_cfg (n : Nat) (l : List Int) : (commit s n l).cfg = s.cfg := rfl
@[simp] theorem commit_mem (n : Nat) (l : List Int) : (commit s n l).mem = s.mem := rfl
@[simp] theorem commit_ip (n : Nat) (l : List Int) : (commit s n l).ip = nextIp s n := rfl
@[simp] theorem commit_rb (n : Nat) (l : List Int) : (commit s n l).rb = s.rb := rfl
@[simp] theorem commit_halted (n : Nat) (l : List Int) : (commit s n l).halted = s.halted := rfl
@[simp] theorem commit_inq (n : Nat) (l : List Int) : (commit s n l).inq = s.inq := rfl
@[simp] theorem commit_outlog (n : Nat) (l : List Int) : (commit s n l).outlog = s.outlog := rfl
@[simp] theorem commit_keepLast (n : Nat) (l : List Int) : (commit s n l).keepLast = s.keepLast := rfl
@[simp] theorem commit_cause (n : Nat) (l : List Int) : (commit s n l).cause = s.cause := rfl
@[simp] theorem commit_faultIp (n : Nat) (l : List Int) : (commit s n l).faultIp = s.faultIp := rfl
@[simp] theorem commit_faultValue (n : Nat) (l : List Int) : (commit s n l).faultValue = s.faultValue := rfl
@[simp] theorem commit_memExtent (n : Nat) (l : List Int) : (commit s n l).memExtent = extentAfter s.memExtent (fetchTouches s n ++ l) := rfl

/-! `commitStore` -/

@[simp] theorem commitStore_cfg (n : Nat) (l : List Int) (d : Nat) (v : Word) : (commitStore s n l d v).cfg = s.cfg := rfl
@[simp] theorem commitStore_mem (n : Nat) (l : List Int) (d : Nat) (v : Word) : (commitStore s n l d v).mem = s.mem.write d v := rfl
@[simp] theorem commitStore_ip (n : Nat) (l : List Int) (d : Nat) (v : Word) : (commitStore s n l d v).ip = nextIp s n := rfl
@[simp] theorem commitStore_rb (n : Nat) (l : List Int) (d : Nat) (v : Word) : (commitStore s n l d v).rb = s.rb := rfl
@[simp] theorem commitStore_halted (n : Nat) (l : List Int) (d : Nat) (v : Word) : (commitStore s n l d v).halted = s.halted := rfl
@[simp] theorem commitStore_inq (n : Nat) (l : List Int) (d : Nat) (v : Word) : (commitStore s n l d v).inq = s.inq := rfl
@[simp] theorem commitStore_outlog (n : Nat) (l : List Int) (d : Nat) (v : Word) : (commitStore s n l d v).outlog = s.outlog := rfl
@[simp] theorem commitStore_keepLast (n : Nat) (l : List Int) (d : Nat) (v : Word) : (commitStore s n l d v).keepLast = s.keepLast := rfl
@[simp] theorem commitStore_cause (n : Nat) (l : List Int) (d : Nat) (v : Word) : (commitStore s n l d v).cause = s.cause := rfl
@[simp] theorem commitStore_faultIp (n : Nat) (l : List Int) (d : Nat) (v : Word) : (commitStore s n l d v).faultIp = s.faultIp := rfl
@[simp] theorem commitStore_faultValue (n : Nat) (l : List Int) (d : Nat) (v : Word) : (commitStore s n l d v).faultValue = s.faultValue := rfl
@[simp] theorem commitStore_memExtent (n : Nat) (l : List Int) (d : Nat) (v : Word) : (commitStore s n l d v).memExtent = extentAfter s.memExtent (fetchTouches s n ++ (l ++ [(d : Int)])) := rfl

/-! `takeFault` -/

@[simp] theorem takeFault_cfg (r : Raise) : (takeFault s r).cfg = s.cfg := rfl
@[simp] theorem takeFault_mem (r : Raise) : (takeFault s r).mem = s.mem := rfl
@[simp] theorem takeFault_ip (r : Raise) : (takeFault s r).ip = s.ip := rfl
@[simp] theorem takeFault_rb (r : Raise) : (takeFault s r).rb = s.rb := rfl
@[simp] theorem takeFault_halted (r : Raise) : (takeFault s r).halted = s.halted := rfl
@[simp] theorem takeFault_inq (r : Raise) : (takeFault s r).inq = s.inq := rfl
@[simp] theorem takeFault_outlog (r : Raise) : (takeFault s r).outlog = s.outlog := rfl
@[simp] theorem takeFault_keepLast (r : Raise) : (takeFault s r).keepLast = s.keepLast := rfl
@[simp] theorem takeFault_cause (r : Raise) : (takeFault s r).cause = r.cause := rfl
@[simp] theorem takeFault_faultIp (r : Raise) : (takeFault s r).faultIp = s.ip := rfl
@[simp] theorem takeFault_faultValue (r : Raise) : (takeFault s r).faultValue = BitVec.ofInt 65 r.value := rfl
@[simp] theorem takeFault_memExtent (r : Raise) : (takeFault s r).memExtent = s.memExtent := rfl

end Sys2Proof.Machine
end

