-- ==== Sys2Proof/Laws/Exec.lean ====
section
/-! SUPPORT. What each meaning can answer, said once: it commits (`Commits`), it stalls (`Stalls`), or it
takes a fault (`Raises`). Later proofs cite `exec_cases` and the converse lemmas and unfold no meaning. -/

namespace Sys2Proof.Machine

/-! ### The two shared shapes -/

theorem storeResult_eq_ok {a b : Operand} {c : Dest} {f : Word → Word → Except Raise Word}
    {s t : State} :
    storeResult a b c f s = .ok t ↔
      ∃ x y d r, ReadsAs s a x ∧ ReadsAs s b y ∧ WritesTo s c d ∧ f x y = .ok r ∧
        t = commitStore s 3 (operandTouches s a ++ operandTouches s b) d r := by
  simp only [storeResult, bind_eq_ok, readOperand_eq_ok, writeAddr_eq_ok, pure_eq_ok,
    Except.ok.injEq]
  constructor
  · rintro ⟨x, hx, y, hy, d, hd, r, hr, rfl⟩; exact ⟨x, y, d, r, hx, hy, hd, hr, rfl⟩
  · rintro ⟨x, y, d, r, hx, hy, hd, hr, rfl⟩; exact ⟨x, hx, y, hy, d, hd, r, hr, rfl⟩

/-- The faults of the three-operand step, in the order of rule R164. -/
theorem storeResult_eq_error {a b : Operand} {c : Dest} {f : Word → Word → Except Raise Word}
    {s : State} {e : Raise} :
    storeResult a b c f s = .error e ↔
      ReadFaults s a e.cause e.value ∨
        ∃ x, ReadsAs s a x ∧ (ReadFaults s b e.cause e.value ∨
          ∃ y, ReadsAs s b y ∧ (WriteFaults s c e.cause e.value ∨
            ∃ d, WritesTo s c d ∧ f x y = .error e)) := by
  simp only [storeResult, bind_eq_error, readOperand_eq_ok, writeAddr_eq_ok, readOperand_eq_error,
    writeAddr_eq_error, pure_eq_ok, reduceCtorEq, and_false, exists_false, or_false]

theorem jumpWhen_eq_ok {p : Word → Bool} {a b : Operand} {s t : State} :
    jumpWhen p a b s = .ok t ↔
      ∃ x, ReadsAs s a x ∧
        ((p x = true ∧ ∃ y, ReadsAs s b y ∧
            t = { touch s 2 (operandTouches s a ++ operandTouches s b) with ip := y }) ∨
          (p x = false ∧ t = commit s 2 (operandTouches s a))) := by
  simp only [jumpWhen, bind_eq_ok, readOperand_eq_ok]
  refine exists_congr fun x => and_congr_right fun _ => ?_
  cases p x
  · simp only [Bool.false_eq_true, if_false, pure_eq_ok, Except.ok.injEq, false_and, true_and,
      false_or]
    exact eq_comm
  · simp only [if_true, bind_eq_ok, readOperand_eq_ok, pure_eq_ok, Except.ok.injEq, true_and,
      Bool.true_eq_false, false_and, or_false]
    exact exists_congr fun y => and_congr_right fun _ => eq_comm

theorem jumpWhen_eq_error {p : Word → Bool} {a b : Operand} {s : State} {e : Raise} :
    jumpWhen p a b s = .error e ↔
      ReadFaults s a e.cause e.value ∨
        ∃ x, ReadsAs s a x ∧ p x = true ∧ ReadFaults s b e.cause e.value := by
  simp only [jumpWhen, bind_eq_error, readOperand_eq_ok, readOperand_eq_error]
  refine or_congr_right (exists_congr fun x => and_congr_right fun _ => ?_)
  cases p x <;> simp [bind_eq_error, readOperand_eq_error]

/-! ### Commit, stall, fault -/

/-- `Commits s i t`: instruction `i` commits in `s` and leaves `t` (rules R100 to R150). -/
inductive Commits (s : State) : Instr → State → Prop where
  | add {a b c u x y d r} (ha : ReadsAs s a x) (hb : ReadsAs s b y) (hd : WritesTo s c d)
      (hr : arith64 s.cfg (Instr.add a b c u).opcell (x.toInt + y.toInt) = .ok r) :
      Commits s (.add a b c u) (commitStore s 3 (operandTouches s a ++ operandTouches s b) d r)
  | mul {a b c u x y d r} (ha : ReadsAs s a x) (hb : ReadsAs s b y) (hd : WritesTo s c d)
      (hr : arith64 s.cfg (Instr.mul a b c u).opcell (x.toInt * y.toInt) = .ok r) :
      Commits s (.mul a b c u) (commitStore s 3 (operandTouches s a ++ operandTouches s b) d r)
  | input {a u d v q} (hd : WritesTo s a d) (hq : s.inq = v :: q) :
      Commits s (.input a u)
        { commitStore s 1 [] d v with inq := takeInput s.keepLast s.inq }
  | output {a u x} (ha : ReadsAs s a x) :
      Commits s (.output a u) { commit s 1 (operandTouches s a) with outlog := s.outlog ++ [x] }
  | jumpIfTrueTaken {a b u x y} (ha : ReadsAs s a x) (hx : x.toInt ≠ 0) (hb : ReadsAs s b y) :
      Commits s (.jumpIfTrue a b u)
        { touch s 2 (operandTouches s a ++ operandTouches s b) with ip := y }
  | jumpIfTrueNot {a b u x} (ha : ReadsAs s a x) (hx : x.toInt = 0) :
      Commits s (.jumpIfTrue a b u) (commit s 2 (operandTouches s a))
  | jumpIfFalseTaken {a b u x y} (ha : ReadsAs s a x) (hx : x.toInt = 0) (hb : ReadsAs s b y) :
      Commits s (.jumpIfFalse a b u)
        { touch s 2 (operandTouches s a ++ operandTouches s b) with ip := y }
  | jumpIfFalseNot {a b u x} (ha : ReadsAs s a x) (hx : x.toInt ≠ 0) :
      Commits s (.jumpIfFalse a b u) (commit s 2 (operandTouches s a))
  | lessThan {a b c u x y d} (ha : ReadsAs s a x) (hb : ReadsAs s b y) (hd : WritesTo s c d) :
      Commits s (.lessThan a b c u)
        (commitStore s 3 (operandTouches s a ++ operandTouches s b) d
          (boolCell (decide (x.toInt < y.toInt))))
  | equals {a b c u x y d} (ha : ReadsAs s a x) (hb : ReadsAs s b y) (hd : WritesTo s c d) :
      Commits s (.equals a b c u)
        (commitStore s 3 (operandTouches s a ++ operandTouches s b) d
          (boolCell (decide (x.toInt = y.toInt))))
  | adjustRelativeBase {a u x r} (ha : ReadsAs s a x)
      (hr : arith64 s.cfg (Instr.adjustRelativeBase a u).opcell (s.rb.toInt + x.toInt) = .ok r) :
      Commits s (.adjustRelativeBase a u) { commit s 1 (operandTouches s a) with rb := r }
  | halt {u} : Commits s (.halt u) { touch s 0 [] with halted := true }

/-- `Stalls s i`: the input instruction reaches its stall check with an empty queue (R111). -/
def Stalls (s : State) (i : Instr) : Prop := ∃ a u d, i = .input a u ∧ WritesTo s a d ∧ s.inq = []

/-- `Raises s i e`: instruction `i` raises `e` in `s`. -/
def Raises (s : State) (i : Instr) (e : Raise) : Prop := exec i s = .next (takeFault s e) ∧
  (e.cause = .negativeAddress ∨ e.cause = .addressRange ∨ e.cause = .arithOverflow)

theorem cause_of_addressFaults {s : State} {v : Int} {c : Cause} (h : AddressFaults s v c) :
    c = .negativeAddress ∨ c = .addressRange := by
  rcases h with ⟨_, rfl⟩ | ⟨_, _, rfl⟩
  · exact .inl rfl
  · exact .inr rfl

theorem cause_of_storeResult_error {a b : Operand} {c : Dest} {f : Word → Word → Except Raise Word}
    {s : State} {e : Raise} (hf : ∀ x y, f x y = .error e → e.cause = .arithOverflow)
    (h : storeResult a b c f s = .error e) :
    e.cause = .negativeAddress ∨ e.cause = .addressRange ∨ e.cause = .arithOverflow := by
  rcases storeResult_eq_error.mp h with h | ⟨x, _, h | ⟨y, _, h | ⟨d, _, h⟩⟩⟩
  · rcases cause_of_addressFaults h.2 with h | h <;> simp [h]
  · rcases cause_of_addressFaults h.2 with h | h <;> simp [h]
  · rcases cause_of_addressFaults h.2 with h | h <;> simp [h]
  · simp [hf x y h]

theorem cause_of_arith64_error {cfg : Config} {c : Word} {v : Int} {e : Raise}
    (h : arith64 cfg c v = .error e) : e.cause = .arithOverflow := by
  rw [(arith64_eq_error h).2.2]

/-- Everything an instruction can do. -/
theorem exec_cases (i : Instr) (s : State) :
    (∃ t, exec i s = .next t ∧ Commits s i t) ∨ (exec i s = .next s ∧ Stalls s i) ∨
      ∃ e, Raises s i e := by
  have done : ∀ {x : Except Raise State}, exec i s = finish s x →
      (∀ t, x = .ok t → Commits s i t ∨ (t = s ∧ Stalls s i)) →
      (∀ e, x = .error e →
        e.cause = .negativeAddress ∨ e.cause = .addressRange ∨ e.cause = .arithOverflow) →
      (∃ t, exec i s = .next t ∧ Commits s i t) ∨ (exec i s = .next s ∧ Stalls s i) ∨
        ∃ e, Raises s i e := by
    intro x hx hok herr
    cases x with
    | ok t =>
      rcases hok t rfl with h | ⟨rfl, h⟩
      · exact .inl ⟨t, hx, h⟩
      · exact .inr (.inl ⟨hx, h⟩)
    | error e => exact .inr (.inr ⟨e, hx, herr e rfl⟩)
  cases i with
  | add a b c u =>
    refine done rfl (fun t ht => ?_) fun e he =>
      cause_of_storeResult_error (fun x y h => cause_of_arith64_error h) he
    obtain ⟨x, y, d, r, ha, hb, hd, hr, rfl⟩ := storeResult_eq_ok.mp ht
    exact .inl (.add ha hb hd hr)
  | mul a b c u =>
    refine done rfl (fun t ht => ?_) fun e he =>
      cause_of_storeResult_error (fun x y h => cause_of_arith64_error h) he
    obtain ⟨x, y, d, r, ha, hb, hd, hr, rfl⟩ := storeResult_eq_ok.mp ht
    exact .inl (.mul ha hb hd hr)
  | lessThan a b c u =>
    refine done rfl (fun t ht => ?_) fun e he =>
      cause_of_storeResult_error (by intro x y h; cases h) he
    obtain ⟨x, y, d, r, ha, hb, hd, hr, rfl⟩ := storeResult_eq_ok.mp ht
    cases hr
    exact .inl (.lessThan ha hb hd)
  | equals a b c u =>
    refine done rfl (fun t ht => ?_) fun e he =>
      cause_of_storeResult_error (by intro x y h; cases h) he
    obtain ⟨x, y, d, r, ha, hb, hd, hr, rfl⟩ := storeResult_eq_ok.mp ht
    cases hr
    exact .inl (.equals ha hb hd)
  | input a u =>
    refine done rfl (fun t ht => ?_) fun e he => ?_
    · obtain ⟨d, hd, ht⟩ := bind_eq_ok.mp ht
      rw [writeAddr_eq_ok] at hd
      cases hq : s.inq with
      | nil => rw [hq] at ht; cases ht; exact .inr ⟨rfl, a, u, d, rfl, hd, hq⟩
      | cons v q =>
        rw [hq] at ht
        cases ht
        rw [← hq]
        exact .inl (.input hd hq)
    · rcases bind_eq_error.mp he with he | ⟨d, _, he⟩
      · rcases cause_of_addressFaults (writeAddr_eq_error.mp he).2 with h | h <;> simp [h]
      · cases hq : s.inq <;> rw [hq] at he <;> cases he
  | output a u =>
    refine done rfl (fun t ht => ?_) fun e he => ?_
    · obtain ⟨x, hx, ht⟩ := bind_eq_ok.mp ht
      cases ht
      exact .inl (.output (readOperand_eq_ok.mp hx))
    · rcases bind_eq_error.mp he with he | ⟨d, _, he⟩
      · rcases cause_of_addressFaults (readOperand_eq_error.mp he).2 with h | h <;> simp [h]
      · cases he
  | jumpIfTrue a b u =>
    refine done rfl (fun t ht => ?_) fun e he => ?_
    · rcases jumpWhen_eq_ok.mp ht with ⟨x, hx, ⟨hp, y, hy, rfl⟩ | ⟨hp, rfl⟩⟩
      · exact .inl (.jumpIfTrueTaken hx (by simpa using hp) hy)
      · exact .inl (.jumpIfTrueNot hx (by simpa using hp))
    · rcases jumpWhen_eq_error.mp he with h | ⟨x, _, _, h⟩ <;>
        rcases cause_of_addressFaults h.2 with h | h <;> simp [h]
  | jumpIfFalse a b u =>
    refine done rfl (fun t ht => ?_) fun e he => ?_
    · rcases jumpWhen_eq_ok.mp ht with ⟨x, hx, ⟨hp, y, hy, rfl⟩ | ⟨hp, rfl⟩⟩
      · exact .inl (.jumpIfFalseTaken hx (by simpa using hp) hy)
      · exact .inl (.jumpIfFalseNot hx (by simpa using hp))
    · rcases jumpWhen_eq_error.mp he with h | ⟨x, _, _, h⟩ <;>
        rcases cause_of_addressFaults h.2 with h | h <;> simp [h]
  | adjustRelativeBase a u =>
    refine done rfl (fun t ht => ?_) fun e he => ?_
    · obtain ⟨x, hx, ht⟩ := bind_eq_ok.mp ht
      obtain ⟨r, hr, ht⟩ := bind_eq_ok.mp ht
      cases ht
      exact .inl (.adjustRelativeBase (readOperand_eq_ok.mp hx) hr)
    · rcases bind_eq_error.mp he with he | ⟨x, _, he⟩
      · rcases cause_of_addressFaults (readOperand_eq_error.mp he).2 with h | h <;> simp [h]
      · rcases bind_eq_error.mp he with he | ⟨r, _, he⟩
        · simp [cause_of_arith64_error he]
        · cases he
  | halt u =>
    exact .inl ⟨_, rfl, .halt⟩

/-- The answer of a meaning that ends well is that answer. -/
theorem exec_eq_of_finish {i : Instr} {s t : State} {x : Except Raise State}
    (h : exec i s = finish s x) (hx : x = .ok t) : exec i s = .next t := by rw [h, hx]; rfl

/-! ### What each outcome leaves -/

/-- A commit leaves the parameters, the fault registers and `KEEP_LAST` as they were. -/
theorem commits_fields {s t : State} {i : Instr} (h : Commits s i t) :
    t.cfg = s.cfg ∧ t.cause = s.cause ∧ t.faultIp = s.faultIp ∧ t.faultValue = s.faultValue ∧
      t.keepLast = s.keepLast := by
  cases h <;> exact ⟨rfl, rfl, rfl, rfl, rfl⟩

/-- A commit leaves memory as it was or writes the one cell its write operand names. -/
theorem commits_mem {s t : State} {i : Instr} (h : Commits s i t) :
    t.mem = s.mem ∨
      ∃ d n v, destOf i = some d ∧ WritesTo s d n ∧ t.mem = s.mem.write n v := by
  cases h <;> first | exact .inl rfl | exact .inr ⟨_, _, _, rfl, ‹_›, rfl⟩

/-- A next state of an instruction is a commit, the stalled state itself, or a fault entry. -/
theorem exec_eq_next {i : Instr} {s t : State} (h : exec i s = .next t) :
    Commits s i t ∨ (t = s ∧ Stalls s i) ∨ ∃ e, Raises s i e ∧ t = takeFault s e := by
  rcases exec_cases i s with ⟨u, hu, hc⟩ | ⟨hu, hs⟩ | ⟨e, he⟩
  · rw [hu] at h; cases h; exact .inl hc
  · rw [hu] at h; cases h; exact .inr (.inl ⟨rfl, hs⟩)
  · have hu := he.1
    rw [hu] at h; cases h; exact .inr (.inr ⟨e, he, rfl⟩)

/-- Where an instruction's fault comes from: its first operand access whose address fails, or the overflow
check with the opcode cell as its value (R161, R164). -/
def RaiseOrigin (s : State) (i : Instr) (e : Raise) : Prop :=
  OperandFault s i e.cause e.value ∨ e = ⟨.arithOverflow, i.opcell.toInt⟩

theorem storeResult_origin {a b : Operand} {c : Dest} {f : Word → Word → Except Raise Word}
    {s : State} {e : Raise} {w : Word}
    (hf : ∀ x y, f x y = .error e → e = ⟨.arithOverflow, w.toInt⟩)
    (h : storeResult a b c f s = .error e) :
    (ReadFaults s a e.cause e.value ∨
      ∃ x, ReadsAs s a x ∧
        (ReadFaults s b e.cause e.value ∨ ∃ y, ReadsAs s b y ∧ WriteFaults s c e.cause e.value)) ∨
      e = ⟨.arithOverflow, w.toInt⟩ := by
  rcases storeResult_eq_error.mp h with h | ⟨x, hx, h | ⟨y, hy, h | ⟨d, _, h⟩⟩⟩
  · exact .inl (.inl h)
  · exact .inl (.inr ⟨x, hx, .inl h⟩)
  · exact .inl (.inr ⟨x, hx, .inr ⟨y, hy, h⟩⟩)
  · exact .inr (hf _ _ h)

/-- A fault that an instruction answers came from one of the two origins. -/
theorem exec_fault_origin {i : Instr} {s t : State} (h : exec i s = .next t) (hs : s.cause = .none)
    (hc : t.cause ≠ .none) : ∃ e, RaiseOrigin s i e ∧ t = takeFault s e := by
  have go : ∀ x : Except Raise State, exec i s = finish s x →
      (∀ u, x = .ok u → u.cause = s.cause) → (∀ e, x = .error e → RaiseOrigin s i e) →
      ∃ e, RaiseOrigin s i e ∧ t = takeFault s e := by
    intro x hx ho he
    rw [hx] at h
    cases x with
    | ok u => cases h; exact absurd ((ho _ rfl).trans hs) hc
    | error e => cases h; exact ⟨e, he e rfl, rfl⟩
  cases i with
  | add a b c u | mul a b c u =>
    refine go _ rfl (fun u hu => ?_) fun e he =>
      storeResult_origin (fun x y h => (arith64_eq_error h).2.2) he
    obtain ⟨x, y, d, r, _, _, _, _, rfl⟩ := storeResult_eq_ok.mp hu
    rfl
  | lessThan a b c u | equals a b c u =>
    refine go _ rfl (fun u hu => ?_) fun e he => storeResult_origin (fun x y h => by cases h) he
    obtain ⟨x, y, d, r, _, _, _, _, rfl⟩ := storeResult_eq_ok.mp hu
    rfl
  | jumpIfTrue a b u | jumpIfFalse a b u =>
    refine go _ rfl (fun u hu => ?_) fun e he => ?_
    · rcases jumpWhen_eq_ok.mp hu with ⟨x, hx, ⟨hp, y, hy, rfl⟩ | ⟨hp, rfl⟩⟩ <;> rfl
    · rcases jumpWhen_eq_error.mp he with h | ⟨x, hx, hp, h⟩
      · exact .inl (.inl h)
      · exact .inl (.inr ⟨x, hx, by simpa using hp, h⟩)
  | input a u =>
    refine go _ rfl (fun u hu => ?_) fun e he => ?_
    · obtain ⟨d, hd, ht⟩ := bind_eq_ok.mp hu
      cases hq : s.inq <;> rw [hq] at ht <;> cases ht <;> rfl
    · rcases bind_eq_error.mp he with he | ⟨d, _, he⟩
      · exact .inl (writeAddr_eq_error.mp he)
      · cases hq : s.inq <;> rw [hq] at he <;> cases he
  | output a u =>
    refine go _ rfl (fun u hu => ?_) fun e he => ?_
    · obtain ⟨x, hx, ht⟩ := bind_eq_ok.mp hu
      cases ht
      rfl
    · rcases bind_eq_error.mp he with he | ⟨d, _, he⟩
      · exact .inl (readOperand_eq_error.mp he)
      · cases he
  | adjustRelativeBase a u =>
    refine go _ rfl (fun u hu => ?_) fun e he => ?_
    · obtain ⟨x, hx, ht⟩ := bind_eq_ok.mp hu
      obtain ⟨r, hr, ht⟩ := bind_eq_ok.mp ht
      cases ht
      rfl
    · rcases bind_eq_error.mp he with he | ⟨d, _, he⟩
      · exact .inl (readOperand_eq_error.mp he)
      · rcases bind_eq_error.mp he with he | ⟨r, _, he⟩
        · exact .inr (arith64_eq_error he).2.2
        · cases he
  | halt u => exact go (.ok _) rfl (fun u hu => by cases hu; rfl) fun e he => by cases he

end Sys2Proof.Machine
end

