-- ==== Sys2Proof/Laws/Memory.lean ====
section
/-! SUPPORT. The laws of memory: every operation keeps the canonical form, a read after a write, and equal
reads give equal memories. -/

namespace Sys2Proof.Machine

theorem Memory.wfFrom_cons {lo k : Nat} {w : Word} {m : Memory} :
    Memory.wfFrom lo ((k, w) :: m) = true ↔ lo ≤ k ∧ w ≠ 0 ∧ Memory.wfFrom (k + 1) m = true := by
  simp [Memory.wfFrom, and_assoc]

/-- A weaker lower bound. -/
theorem Memory.wfFrom_le {lo hi : Nat} (h : lo ≤ hi) :
    ∀ {m : Memory}, Memory.wfFrom hi m = true → Memory.wfFrom lo m = true
  | [], _ => rfl
  | (k, w) :: m, hm => by
    rw [Memory.wfFrom_cons] at hm ⊢
    exact ⟨h.trans hm.1, hm.2⟩

/-- A canonical list from `lo` reads 0 below `lo`. -/
theorem Memory.read_of_lt : ∀ {m : Memory} {lo a : Nat}, Memory.wfFrom lo m = true → a < lo →
    Memory.read m a = 0
  | [], _, _, _, _ => rfl
  | (k, w) :: m, lo, a, hm, ha => by
    rw [Memory.wfFrom_cons] at hm
    have hk : k ≠ a := by omega
    simp only [Memory.read, if_neg hk]
    exact Memory.read_of_lt hm.2.2 (by omega)

/-- A write keeps the canonical form from any bound not above the address. -/
theorem Memory.write_wfFrom : ∀ {m : Memory} {lo a : Nat} {v : Word}, Memory.wfFrom lo m = true →
    lo ≤ a → Memory.wfFrom lo (Memory.write m a v) = true
  | [], lo, a, v, _, ha => by
    unfold Memory.write
    split
    · rfl
    · exact Memory.wfFrom_cons.mpr ⟨ha, ‹_›, rfl⟩
  | (k, w) :: m, lo, a, v, hm, ha => by
    rw [Memory.wfFrom_cons] at hm
    obtain ⟨hlo, hw, hm⟩ := hm
    unfold Memory.write
    split
    · split
      · exact Memory.wfFrom_cons.mpr ⟨hlo, hw, hm⟩
      · exact Memory.wfFrom_cons.mpr ⟨ha, ‹_›, Memory.wfFrom_cons.mpr ⟨by omega, hw, hm⟩⟩
    · split
      · subst a
        split
        · exact Memory.wfFrom_le (by omega) hm
        · exact Memory.wfFrom_cons.mpr ⟨ha, ‹_›, hm⟩
      · exact Memory.wfFrom_cons.mpr ⟨hlo, hw, Memory.write_wfFrom hm (by omega)⟩

/-- A write keeps the canonical form. -/
theorem Memory.write_wf {m : Memory} {a : Nat} {v : Word} (h : m.wf = true) : (m.write a v).wf = true :=
  Memory.write_wfFrom h (Nat.zero_le a)

/-- Writing a list of cells keeps the canonical form. -/
theorem Memory.writeList_wf : ∀ {vs : List Word} {m : Memory} {a : Nat}, m.wf = true →
    (Memory.writeList m a vs).wf = true
  | [], _, _, h => h
  | v :: vs, m, a, h => by
    rw [Memory.writeList]
    exact Memory.writeList_wf (Memory.write_wf h)

/-- A write leaves every other cell alone, canonical or not. -/
theorem Memory.read_write_other : ∀ {m : Memory} {a b : Nat} {v : Word}, b ≠ a →
    (m.write a v).read b = m.read b
  | [], a, b, v, h => by
    unfold Memory.write
    split
    · rfl
    · simp [Memory.read, h.symm]
  | (k, w) :: m, a, b, v, h => by
    have hab : a ≠ b := h.symm
    unfold Memory.write
    split
    · split
      · rfl
      · simp [Memory.read, hab]
    · split
      · subst a
        split <;> simp [Memory.read, hab]
      · simp only [Memory.read]
        rw [Memory.read_write_other h]

/-- A cell written reads back, from any lower bound. -/
theorem Memory.read_write_same_from : ∀ {m : Memory} {lo a : Nat} {v : Word},
    Memory.wfFrom lo m = true → (m.write a v).read a = v
  | [], _, a, v, _ => by
    unfold Memory.write
    split
    · exact ‹v = 0›.symm
    · simp [Memory.read]
  | (k, w) :: m, lo, a, v, hm => by
    have hm' := Memory.wfFrom_cons.mp hm
    unfold Memory.write
    split
    · split
      · rw [‹v = 0›]
        refine Memory.read_of_lt (lo := a + 1) ?_ (by omega)
        exact Memory.wfFrom_cons.mpr ⟨by omega, hm'.2⟩
      · simp [Memory.read]
    · split
      · subst a
        split
        · rw [‹v = 0›]
          exact Memory.read_of_lt hm'.2.2 (by omega)
        · simp [Memory.read]
      · have hk : k ≠ a := by omega
        simp only [Memory.read, if_neg hk]
        exact Memory.read_write_same_from hm'.2.2

/-- A cell written reads back. -/
theorem Memory.read_write_same {m : Memory} {a : Nat} {v : Word} (h : m.wf = true) :
    (m.write a v).read a = v := Memory.read_write_same_from h

/-- A read after a write, in one equation. -/
theorem Memory.read_write {m : Memory} {a b : Nat} {v : Word} (h : m.wf = true) :
    (m.write a v).read b = if b = a then v else m.read b := by
  split
  · subst b; exact Memory.read_write_same h
  · exact Memory.read_write_other ‹_›

/-- Two canonical memories with equal reads are equal. -/
theorem Memory.ext_from : ∀ {m n : Memory} {lo : Nat}, Memory.wfFrom lo m = true →
    Memory.wfFrom lo n = true → (∀ a, m.read a = n.read a) → m = n
  | [], [], _, _, _, _ => rfl
  | [], (k, w) :: n, lo, _, hn, h => by
    have := h k
    simp [Memory.read] at this
    exact absurd this.symm (Memory.wfFrom_cons.mp hn).2.1
  | (k, w) :: m, [], lo, hm, _, h => by
    have := h k
    simp [Memory.read] at this
    exact absurd this (Memory.wfFrom_cons.mp hm).2.1
  | (k, w) :: m, (l, x) :: n, lo, hm, hn, h => by
    have hm' := Memory.wfFrom_cons.mp hm
    have hn' := Memory.wfFrom_cons.mp hn
    have hkl : k = l := by
      rcases Nat.lt_trichotomy k l with hlt | heq | hgt
      · have h1 := h k
        rw [Memory.read_of_lt (m := (l, x) :: n) (lo := l)
          (Memory.wfFrom_cons.mpr ⟨le_rfl, hn'.2⟩) hlt] at h1
        simp [Memory.read] at h1
        exact absurd h1 hm'.2.1
      · exact heq
      · have h1 := h l
        rw [Memory.read_of_lt (m := (k, w) :: m) (lo := k)
          (Memory.wfFrom_cons.mpr ⟨le_rfl, hm'.2⟩) hgt] at h1
        simp [Memory.read] at h1
        exact absurd h1.symm hn'.2.1
    subst l
    have hw : w = x := by simpa [Memory.read] using h k
    subst x
    rw [Memory.ext_from hm'.2.2 hn'.2.2]
    intro a
    by_cases ha : k = a
    · subst a
      rw [Memory.read_of_lt hm'.2.2 (by omega), Memory.read_of_lt hn'.2.2 (by omega)]
    · simpa [Memory.read, ha] using h a

/-- Two canonical memories with equal reads are equal. -/
theorem Memory.ext {m n : Memory} (hm : m.wf = true) (hn : n.wf = true)
    (h : ∀ a, m.read a = n.read a) : m = n := Memory.ext_from hm hn h

/-- Every cell of a list written to a canonical memory, and every other cell. -/
theorem Memory.read_writeList : ∀ {vs : List Word} {m : Memory} {a b : Nat}, m.wf = true →
    (Memory.writeList m a vs).read b =
      if a ≤ b ∧ b < a + vs.length then vs.getD (b - a) 0 else m.read b
  | [], m, a, b, _ => by
    have : ¬ (a ≤ b ∧ b < a + ([] : List Word).length) := by simp
    rw [if_neg this]; rfl
  | v :: vs, m, a, b, h => by
    rw [Memory.writeList, Memory.read_writeList (Memory.write_wf h), Memory.read_write h]
    by_cases hb : b = a
    · subst b
      simp
    · by_cases hlt : a < b
      · obtain ⟨k, rfl⟩ := Nat.exists_eq_add_of_lt hlt
        have e1 : a + k + 1 - a = k + 1 := by omega
        have e2 : a + k + 1 - (a + 1) = k := by omega
        simp only [e1, e2, List.getD_cons_succ, List.length_cons, if_neg hb]
        by_cases hk : k < vs.length
        · rw [if_pos (by omega), if_pos (by omega)]
        · rw [if_neg (by omega), if_neg (by omega)]
      · rw [if_neg (by omega), if_neg hb, if_neg (by simp only [List.length_cons]; omega)]

end Sys2Proof.Machine
end

