-- ==== Sys2Proof/Laws/Step.lean ====
section
/-! SUPPORT. What the front half of a step and a step itself can answer (rules R81 to R89, R169, R170). -/

namespace Sys2Proof.Machine

theorem fetchCells_eq_ok {s : State} : ∀ {n : Nat} {a : Int} {ws : List Word},
    fetchCells s a n = .ok ws ↔
      (∀ k : Nat, k < n → InRange s (a + k)) ∧
        ws = (List.range n).map fun (k : Nat) => s.mem.read (a + k).toNat
  | 0, a, ws => by simp [fetchCells, eq_comm]
  | n + 1, a, ws => by
    simp only [fetchCells, bind_eq_ok, memRead_eq_ok, fetchCells_eq_ok, pure_eq_ok, Except.ok.injEq]
    constructor
    · rintro ⟨w, ⟨h0, rfl⟩, _, ⟨hs, rfl⟩, rfl⟩
      refine ⟨fun k hk => ?_, ?_⟩
      · rcases k with _ | k
        · simpa using h0
        · have := hs k (by omega)
          rwa [show a + ((k + 1 : Nat) : Int) = a + 1 + k by push_cast; ring]
      · rw [List.range_succ_eq_map]
        simp only [List.map_cons, List.map_map, Nat.cast_zero, add_zero, List.cons.injEq, true_and]
        refine List.map_congr_left fun k _ => ?_
        simp only [Function.comp]
        rw [show a + ((k.succ : Nat) : Int) = a + 1 + k by push_cast; ring]
    · rintro ⟨hr, rfl⟩
      refine ⟨_, ⟨by simpa using hr 0 (by omega), rfl⟩, _, ⟨fun k hk => ?_, rfl⟩, ?_⟩
      · have := hr (k + 1) (by omega)
        rwa [show a + ((k + 1 : Nat) : Int) = a + 1 + k by push_cast; ring] at this
      · rw [List.range_succ_eq_map]
        simp only [List.map_cons, List.map_map, Nat.cast_zero, add_zero, List.cons.injEq, true_and]
        refine List.map_congr_left fun k _ => ?_
        simp only [Function.comp]
        rw [show a + ((k.succ : Nat) : Int) = a + 1 + k by push_cast; ring]

theorem fetchCells_eq_error {s : State} : ∀ {n : Nat} {a : Int} {e : Raise},
    fetchCells s a n = .error e ↔
      ∃ k : Nat, k < n ∧ (∀ j : Nat, j < k → InRange s (a + j)) ∧
        AddressFaults s (a + k) e.cause ∧ e.value = a + k
  | 0, a, e => by simp [fetchCells]
  | n + 1, a, e => by
    simp only [fetchCells, bind_eq_error, memRead_eq_ok, memRead_eq_error, fetchCells_eq_error,
      pure_eq_ok, reduceCtorEq, and_false, exists_false, or_false]
    constructor
    · rintro (⟨h, hv⟩ | ⟨w, ⟨h0, _⟩, k, hk, hj, hf, hv⟩)
      · exact ⟨0, by omega, by simp, by simpa using h, by simpa using hv⟩
      · refine ⟨k + 1, by omega, fun j hlt => ?_, ?_, ?_⟩
        · rcases j with _ | j
          · simpa using h0
          · have := hj j (by omega)
            rwa [show a + ((j + 1 : Nat) : Int) = a + 1 + j by push_cast; ring]
        · rwa [show a + ((k + 1 : Nat) : Int) = a + 1 + k by push_cast; ring]
        · rw [hv]; push_cast; ring
    · rintro ⟨k, hk, hj, hf, hv⟩
      rcases k with _ | k
      · exact .inl ⟨by simpa using hf, by simpa using hv⟩
      · refine .inr ⟨_, ⟨by simpa using hj 0 (by omega), rfl⟩, k, by omega, fun j hlt => ?_, ?_, ?_⟩
        · have := hj (j + 1) (by omega)
          rwa [show a + ((j + 1 : Nat) : Int) = a + 1 + j by push_cast; ring] at this
        · rwa [show a + ((k + 1 : Nat) : Int) = a + 1 + k by push_cast; ring] at hf
        · rw [hv]; push_cast; ring

@[simp] theorem operandCount_fill (i : Instr) (ws : List Word) :
    (i.fill ws).operandCount = i.operandCount := by cases i <;> rfl

/-- What a successful fetch says (R81 to R89). -/
theorem fetch_eq_ok {s : State} {i : Instr} :
    fetch s = .ok i ↔
      InRange s s.ip.toInt ∧ ∃ shape,
        decodeOpcell s.cfg.strictDecode (s.mem.read s.ip.toInt.toNat) = .ok shape ∧
        (∀ k : Nat, k < shape.operandCount → InRange s (s.ip.toInt + 1 + k)) ∧
        i = shape.fill ((List.range shape.operandCount).map
          fun (k : Nat) => s.mem.read (s.ip.toInt + 1 + k).toNat) := by
  simp only [fetch, bind_eq_ok, memRead_eq_ok]
  constructor
  · rintro ⟨c, ⟨hr, rfl⟩, h⟩
    refine ⟨hr, ?_⟩
    cases hd : decodeOpcell s.cfg.strictDecode (s.mem.read s.ip.toInt.toNat) with
    | error f => rw [hd] at h; cases h
    | ok shape =>
      rw [hd] at h
      obtain ⟨ws, hws, h⟩ := bind_eq_ok.mp h
      cases h
      rw [fetchCells_eq_ok] at hws
      obtain ⟨hr, rfl⟩ := hws
      exact ⟨shape, rfl, hr, rfl⟩
  · rintro ⟨hr, shape, hd, hk, rfl⟩
    refine ⟨_, ⟨hr, rfl⟩, ?_⟩
    rw [hd]
    exact bind_eq_ok.mpr ⟨_, fetchCells_eq_ok.mpr ⟨hk, rfl⟩, rfl⟩

/-- Every way a fetch can fault, in the order of rules R89 and R164. -/
theorem fetch_eq_error {s : State} {e : Raise} :
    fetch s = .error e ↔
      (AddressFaults s s.ip.toInt e.cause ∧ e.value = s.ip.toInt) ∨
        (InRange s s.ip.toInt ∧
          ((∃ f, decodeOpcell s.cfg.strictDecode (s.mem.read s.ip.toInt.toNat) = .error f ∧
              e = decodeRaise (s.mem.read s.ip.toInt.toNat) f) ∨
            ∃ shape, decodeOpcell s.cfg.strictDecode (s.mem.read s.ip.toInt.toNat) = .ok shape ∧
              fetchCells s (s.ip.toInt + 1) shape.operandCount = .error e)) := by
  simp only [fetch, bind_eq_error, memRead_eq_ok, memRead_eq_error]
  refine or_congr_right ?_
  constructor
  · rintro ⟨c, ⟨hr, rfl⟩, h⟩
    refine ⟨hr, ?_⟩
    cases hd : decodeOpcell s.cfg.strictDecode (s.mem.read s.ip.toInt.toNat) with
    | error f => rw [hd] at h; cases h; exact .inl ⟨f, rfl, rfl⟩
    | ok shape =>
      rw [hd] at h
      rcases bind_eq_error.mp h with h | ⟨ws, _, h⟩
      · exact .inr ⟨shape, rfl, h⟩
      · cases h
  · rintro ⟨hr, ⟨f, hd, rfl⟩ | ⟨shape, hd, h⟩⟩
    · exact ⟨_, ⟨hr, rfl⟩, by rw [hd]⟩
    · exact ⟨_, ⟨hr, rfl⟩, by rw [hd]; exact bind_eq_error.mpr (.inl h)⟩

/-- A fetched instruction's cells all exist (R27, R83). -/
theorem fetch_touches_inRange {s : State} {i : Instr} (h : fetch s = .ok i) {a : Int}
    (ha : a ∈ fetchTouches s i.operandCount) : InRange s a := by
  obtain ⟨hip, shape, _, hk, rfl⟩ := fetch_eq_ok.mp h
  rw [operandCount_fill, mem_fetchTouches] at ha
  obtain ⟨k, hk', rfl⟩ := ha
  rcases k with _ | k
  · simpa using hip
  · have := hk k (by omega)
    rwa [show s.ip.toInt + ((k + 1 : Nat) : Int) = s.ip.toInt + 1 + k by push_cast; ring]

theorem decodeRaise_cause (c : Word) (f : DecodeFault) : (decodeRaise c f).cause ≠ .none := by
  cases f <;> simp [decodeRaise]

theorem cause_ne_none_of_addressFaults {s : State} {a : Int} {c : Cause} (h : AddressFaults s a c) :
    c ≠ .none := by
  rcases cause_of_addressFaults h with rfl | rfl <;> simp

/-- A fetch never raises the absence of a fault. -/
theorem fetch_error_cause {s : State} {e : Raise} (h : fetch s = .error e) : e.cause ≠ .none := by
  rcases fetch_eq_error.mp h with ⟨h, _⟩ | ⟨_, ⟨f, _, rfl⟩ | ⟨shape, _, h⟩⟩
  · exact cause_ne_none_of_addressFaults h
  · exact decodeRaise_cause _ f
  · obtain ⟨k, _, _, h, _⟩ := fetchCells_eq_error.mp h
    exact cause_ne_none_of_addressFaults h

theorem step_of_not_running {s : State} (h : ¬ Running s) : step s = .next s := by
  unfold step
  rw [if_pos]
  unfold Running at h
  by_cases hh : s.halted = true
  · exact .inl hh
  · exact .inr fun hc => h ⟨by simpa using hh, hc⟩

theorem step_of_running {s : State} (h : Running s) :
    step s = match fetch s with
      | .error r => .next (takeFault s r)
      | .ok i => exec i s := by
  unfold step
  exact if_neg (by rw [h.1, h.2]; simp)

/-- Everything a step can do: nothing in a stopped core; a fault at fetch or decode; or the instruction
commits, stalls or raises. -/
theorem step_cases (s : State) :
    (¬ Running s ∧ step s = .next s) ∨
      (Running s ∧
        ((∃ e, fetch s = .error e ∧ e.cause ≠ .none ∧ step s = .next (takeFault s e)) ∨
          ∃ i, fetch s = .ok i ∧ step s = exec i s ∧
            ((∃ t, step s = .next t ∧ Commits s i t) ∨ (step s = .next s ∧ Stalls s i) ∨
              ∃ e, e.cause ≠ .none ∧ Raises s i e ∧ step s = .next (takeFault s e)))) := by
  by_cases h : Running s
  · refine .inr ⟨h, ?_⟩
    rw [step_of_running h]
    cases hf : fetch s with
    | error e => exact .inl ⟨e, rfl, fetch_error_cause hf, rfl⟩
    | ok i =>
      refine .inr ⟨i, rfl, rfl, ?_⟩
      rcases exec_cases i s with h | h | ⟨e, he⟩
      · exact .inl h
      · exact .inr (.inl h)
      · refine .inr (.inr ⟨e, ?_, he, he.1⟩)
        rcases he.2 with h | h | h <;> rw [h] <;> simp
  · exact .inl ⟨h, step_of_not_running h⟩

/-- A step always answers a next state. -/
theorem step_total (s : State) : ∃ t, step s = .next t := by
  rcases step_cases s with ⟨_, h⟩ | ⟨_, ⟨e, _, _, h⟩ | ⟨i, _, _, ⟨t, h, _⟩ | ⟨h, _⟩ | ⟨e, _, _, h⟩⟩⟩ <;>
    exact ⟨_, h⟩

/-- A next state of a step: nothing happened in a stopped core; a fetch or decode fault; or the fetched
instruction committed, stalled or raised. -/
theorem step_eq_next {s t : State} (h : step s = .next t) :
    (¬ Running s ∧ t = s) ∨
      (Running s ∧
        ((∃ e, fetch s = .error e ∧ e.cause ≠ .none ∧ t = takeFault s e) ∨
          ∃ i, fetch s = .ok i ∧ exec i s = .next t ∧
            (Commits s i t ∨ (t = s ∧ Stalls s i) ∨
              ∃ e, e.cause ≠ .none ∧ Raises s i e ∧ t = takeFault s e))) := by
  rcases step_cases s with ⟨hr, hs⟩ | ⟨hr, ⟨e, hf, hc, hs⟩ | ⟨i, hf, hx, hs⟩⟩
  · rw [hs] at h; cases h; exact .inl ⟨hr, rfl⟩
  · rw [hs] at h; cases h; exact .inr ⟨hr, .inl ⟨e, hf, hc, rfl⟩⟩
  · refine .inr ⟨hr, .inr ⟨i, hf, by rw [← hx, h], ?_⟩⟩
    rcases hs with ⟨u, hu, hc⟩ | ⟨hu, hst⟩ | ⟨e, hc, he, hu⟩
    · rw [hu] at h; cases h; exact .inl hc
    · rw [hu] at h; cases h; exact .inr (.inl ⟨rfl, hst⟩)
    · rw [hu] at h; cases h; exact .inr (.inr ⟨e, hc, he, rfl⟩)

/-! ### The step enable and the status -/

theorem wouldStall_iff {s : State} :
    wouldStall s = true ↔
      ∃ a u d, fetch s = .ok (.input a u) ∧ WritesTo s a d ∧ s.inq = [] := by
  unfold wouldStall
  cases hf : fetch s with
  | error e => simp
  | ok i =>
    cases i <;> simp
    rename_i a u
    cases hw : writeAddr s a with
    | error e =>
      simp only [Bool.false_eq_true, false_iff, not_and]
      rintro ⟨x, hx⟩
      rw [← writeAddr_eq_ok, hw] at hx
      cases hx
    | ok d =>
      simp only [List.isEmpty_iff]
      exact ⟨fun h => ⟨⟨d, writeAddr_eq_ok.mp hw⟩, h⟩, fun h => h.2⟩

theorem running_of_enabled {s : State} (h : enabled s = true) : Running s := by
  simp only [enabled, Bool.and_eq_true, decide_eq_true_eq, Bool.not_eq_true'] at h
  exact ⟨h.1.2, h.1.1⟩

theorem enabled_eq_false {s : State} : enabled s = false ↔ ¬ Running s ∨ wouldStall s = true := by
  simp only [enabled, Running]
  cases s.halted <;> cases wouldStall s <;> by_cases h : s.cause = .none <;> simp [h]

theorem not_stalls_of_enabled {s : State} {i : Instr} (he : enabled s = true) (hf : fetch s = .ok i) :
    ¬ Stalls s i := by
  rintro ⟨a, u, d, rfl, hw, hq⟩
  have h : wouldStall s = true := wouldStall_iff.mpr ⟨a, u, d, hf, hw, hq⟩
  rw [enabled_eq_false.mpr (.inr h)] at he
  cases he

/-- An enabled step that records no fault is its instruction's commit. -/
theorem commits_of_step {s t : State} {i : Instr} (he : enabled s = true) (hf : fetch s = .ok i)
    (hs : step s = .next t) (hc : t.cause = .none) : Commits s i t := by
  rcases step_eq_next hs with ⟨hr, _⟩ | ⟨hr, ⟨e, hf', he', rfl⟩ | ⟨j, hf', hx, h⟩⟩
  · exact absurd (running_of_enabled he) hr
  · exact absurd hc he'
  · rw [hf] at hf'
    cases hf'
    rcases h with h | ⟨_, h⟩ | ⟨e, he', _, rfl⟩
    · exact h
    · exact absurd h (not_stalls_of_enabled he hf)
    · exact absurd hc he'

/-- A fetched instruction's next `IP` is exact (R27). -/
theorem nextIp_toInt {s : State} {i : Instr} (hw : s.cfg.wf = true) (h : fetch s = .ok i) :
    (nextIp s i.operandCount).toInt = s.ip.toInt + 1 + i.operandCount := by
  have h0 := fetch_touches_inRange h (a := s.ip.toInt + i.operandCount)
    (mem_fetchTouches.mpr ⟨_, le_rfl, rfl⟩)
  have hm := (memCells_of_wf hw).2
  have hip := (fetch_eq_ok.mp h).1
  unfold InRange at *
  simp only [int64Max] at hm
  have hn : i.operandCount ≤ 3 := by cases i <;> simp [Instr.operandCount]
  unfold nextIp
  have e : (BitVec.ofNat 64 (i.operandCount + 1)).toInt = (i.operandCount : Int) + 1 := by
    generalize i.operandCount = n at *
    have hn : n = 0 ∨ n = 1 ∨ n = 2 ∨ n = 3 := by omega
    rcases hn with rfl | rfl | rfl | rfl <;> rfl
  rw [BitVec.toInt_add, e, Int.bmod_eq_of_le (by norm_num; omega) (by norm_num; omega)]
  ring

end Sys2Proof.Machine
end

