-- ==== Sys2Proof/Laws/HostPort.lean ====
section
/-! SUPPORT. What each host command does to an instance (rules R180 to R187), and what a run command's
answer says about the steps it took. -/

namespace Sys2Proof.Machine

theorem stepState_eq {s t : State} (h : step s = .next t) : stepState s = t := by simp [stepState, h]

theorem step_stepState (s : State) : step s = .next (stepState s) := by
  obtain ⟨t, h⟩ := step_total s
  rw [stepState_eq h, h]

theorem enqueue_eq_some {s t : State} {v : Word} :
    enqueue s v = some t ↔ queueHasRoom s = true ∧ t = { s with inq := s.inq ++ [v] } := by
  unfold enqueue
  split
  · rename_i h; simp [h, eq_comm]
  · rename_i h; simp [h]

theorem queueHasRoom_iff {s : State} :
    queueHasRoom s = true ↔ ∀ d, s.cfg.inDepth = some d → s.inq.length < d := by
  unfold queueHasRoom
  cases s.cfg.inDepth <;> simp

theorem hostAddress_eq_some {s : State} {a : Int} {n : Nat} :
    hostAddress s a = some n ↔ InRange s a ∧ n = a.toNat := by
  unfold hostAddress
  cases h : checkAddr s.cfg a with
  | error e =>
    simp only [reduceCtorEq, false_iff, not_and]
    intro hr
    rw [checkAddr_ok_of_inRange hr] at h
    cases h
  | ok m =>
    obtain ⟨h0, h1, rfl⟩ := checkAddr_eq_ok.mp h
    simp [InRange, h0, h1, eq_comm]

theorem poke_eq_some {s t : State} {a : Int} {v : Word} :
    poke s a v = some t ↔
      InRange s a ∧
        t = { s with
              mem := s.mem.write a.toNat v
              memExtent := max s.memExtent (a.toNat + 1) } := by
  simp only [poke, Option.map_eq_some_iff, hostAddress_eq_some]
  constructor
  · rintro ⟨n, ⟨h, rfl⟩, rfl⟩; exact ⟨h, rfl⟩
  · rintro ⟨h, rfl⟩; exact ⟨_, ⟨h, rfl⟩, rfl⟩

theorem resetWith_eq_some {cfg : Config} {image : List Word} {s : State} :
    resetWith cfg image = some s ↔
      (1 ≤ image.length ∧ image.length ≤ cfg.memCells) ∧
        s = { cfg := cfg, mem := Memory.writeList [] 0 image, ip := 0, rb := 0, halted := false,
              inq := [], outlog := [], keepLast := false, cause := .none, faultIp := 0,
              faultValue := 0, memExtent := image.length } := by
  unfold resetWith
  split
  · rename_i h; simp [h, eq_comm]
  · rename_i h; simp [h]

/-- A run that returns has taken enabled steps and stopped in a core that is not enabled (R185). -/
theorem runUntilHalt_steps : ∀ {n : Nat} {s t : State}, runUntilHalt n s = some t →
    ∃ k, k ≤ n ∧ t = stepState^[k] s ∧ enabled t = false ∧
      ∀ j, j < k → enabled (stepState^[j] s) = true
  | 0, s, t, h => by
    simp only [runUntilHalt] at h
    split at h
    · cases h
    · cases h
      exact ⟨0, le_rfl, rfl, Bool.eq_false_of_not_eq_true ‹_›, by simp⟩
  | n + 1, s, t, h => by
    simp only [runUntilHalt] at h
    split at h
    · obtain ⟨k, hk, rfl, he, hj⟩ := runUntilHalt_steps h
      refine ⟨k + 1, by omega, rfl, he, ?_⟩
      rintro (_ | j) hlt
      · assumption
      · exact hj j (by omega)
    · cases h
      exact ⟨0, by omega, rfl, Bool.eq_false_of_not_eq_true ‹_›, by simp⟩

/-- A run to the next output that returns (R186). -/
theorem runWhileSilent_steps {k0 : Nat} : ∀ {n : Nat} {s t : State}, runWhileSilent k0 n s = some t →
    ∃ k, k ≤ n ∧ t = stepState^[k] s ∧ (enabled t = false ∨ t.outlog.length ≠ k0) ∧
      ∀ j, j < k → enabled (stepState^[j] s) = true ∧ (stepState^[j] s).outlog.length = k0
  | 0, s, t, h => by
    simp only [runWhileSilent] at h
    split at h
    · cases h
    · cases h
      refine ⟨0, le_rfl, rfl, ?_, by simp⟩
      rename_i hh
      simpa [-not_and, not_and_or] using hh
  | n + 1, s, t, h => by
    simp only [runWhileSilent] at h
    split at h
    · obtain ⟨k, hk, rfl, he, hj⟩ := runWhileSilent_steps h
      refine ⟨k + 1, by omega, rfl, he, ?_⟩
      rintro (_ | j) hlt
      · assumption
      · exact hj j (by omega)
    · cases h
      refine ⟨0, by omega, rfl, ?_, by simp⟩
      rename_i hh
      simpa [-not_and, not_and_or] using hh

/-- What every step keeps, every run keeps. -/
theorem iterate_keeps {P : State → Prop} (h : ∀ s, P s → P (stepState s)) :
    ∀ (k : Nat) (s : State), P s → P (stepState^[k] s)
  | 0, _, hs => hs
  | k + 1, s, hs => iterate_keeps h k _ (h s hs)

/-- Everything a host command can do to an instance: nothing, a reset, an enqueue, a poke, a change of
`KEEP_LAST`, or some number of steps. -/
theorem hostCommand_cases {c : HostCommand} {s t : State} {r : Reply}
    (h : hostCommand c s = some (t, r)) :
    t = s ∨ (∃ image, c = .reset image ∧ resetWith s.cfg image = some t) ∨
      (∃ v, c = .enqueue v ∧ enqueue s v = some t) ∨
      (∃ a v, c = .poke a v ∧ poke s a v = some t) ∨
      (∃ b, c = .setKeepLast b ∧ t = setKeepLast s b) ∨
      ∃ k, t = stepState^[k] s ∧
        (c = .step ∨ (∃ n, c = .runUntilHalt n) ∨ ∃ n, c = .runUntilOutputOrHalt n) := by
  cases c <;> simp only [hostCommand, Option.map_eq_some_iff, Option.some.injEq, Prod.mk.injEq] at h
  case reset image =>
    obtain ⟨u, hu, rfl, rfl⟩ := h
    exact .inr (.inl ⟨_, rfl, hu⟩)
  case enqueue v =>
    obtain ⟨u, hu, rfl, rfl⟩ := h
    exact .inr (.inr (.inl ⟨_, rfl, hu⟩))
  case poke a v =>
    obtain ⟨u, hu, rfl, rfl⟩ := h
    exact .inr (.inr (.inr (.inl ⟨_, _, rfl, hu⟩)))
  case peek a =>
    obtain ⟨u, _, rfl, rfl⟩ := h
    exact .inl rfl
  case setKeepLast b =>
    obtain ⟨rfl, _⟩ := h
    exact .inr (.inr (.inr (.inr (.inl ⟨_, rfl, rfl⟩))))
  case step =>
    obtain ⟨rfl, _⟩ := h
    exact .inr (.inr (.inr (.inr (.inr ⟨1, rfl, .inl rfl⟩))))
  case runUntilHalt n =>
    obtain ⟨u, hu, rfl, rfl⟩ := h
    obtain ⟨k, _, rfl, _⟩ := runUntilHalt_steps hu
    exact .inr (.inr (.inr (.inr (.inr ⟨k, rfl, .inr (.inl ⟨_, rfl⟩)⟩))))
  case runUntilOutputOrHalt n =>
    obtain ⟨u, hu, rfl, rfl⟩ := h
    simp only [runUntilOutputOrHalt, Option.map_eq_some_iff] at hu
    obtain ⟨u, hu, rfl⟩ := hu
    obtain ⟨k, _, rfl, _⟩ := runWhileSilent_steps hu
    exact .inr (.inr (.inr (.inr (.inr ⟨k, rfl, .inr (.inr ⟨_, rfl⟩)⟩))))
  all_goals
    obtain ⟨rfl, _⟩ := h
    exact .inl rfl

/-- Placing cells changes memory and the extent alone, and keeps the canonical form. -/
theorem placeCells_frame : ∀ (ws : List Word) (s : State) (a : Int), s.mem.wf = true →
    (placeCells s a ws).mem.wf = true ∧
      placeCells s a ws =
        { s with mem := (placeCells s a ws).mem, memExtent := (placeCells s a ws).memExtent }
  | [], _, _, h => ⟨h, rfl⟩
  | w :: ws, s, a, h => by
    unfold placeCells
    split
    · rename_i n _
      have ih := placeCells_frame ws
        { s with mem := s.mem.write n w, memExtent := max s.memExtent (n + 1) } (a + 1)
        (Memory.write_wf h)
      exact ⟨ih.1, ih.2⟩
    · exact placeCells_frame ws s (a + 1) h

end Sys2Proof.Machine
end

