-- ==== Sys2Proof/Laws/Loader.lean ====
section
/-! SUPPORT. What each function of the program text's load answers, in the words of rule R203: one piece, the
split, the trimming, the image. -/

namespace Sys2Proof.Machine

/-! ### One piece -/

theorem digitValue_eq {c : Char} :
    digitValue c = if c.isDigit = true then some (c.toNat - '0'.toNat) else none := by
  unfold digitValue
  have h : (48 ≤ c.toNat ∧ c.toNat ≤ 57) ↔ c.isDigit = true := by
    simp only [Char.isDigit, Bool.and_eq_true, decide_eq_true_eq, ge_iff_le, UInt32.le_iff_toNat_le]
    rfl
  simp only [h]
  rfl

theorem parseDigits_eq_some : ∀ {cs : List Char} {v n : Nat},
    parseDigits v cs = some n ↔ (∀ c ∈ cs, c.isDigit = true) ∧ n = Nat.ofDigitChars 10 cs v
  | [], v, n => by
    rw [parseDigits, Option.some.injEq, Nat.ofDigitChars_nil]
    exact ⟨fun h => ⟨by simp, h.symm⟩, fun h => h.2.symm⟩
  | c :: cs, v, n => by
    rw [parseDigits, digitValue_eq]
    by_cases hc : c.isDigit = true
    · rw [if_pos hc]
      simp only [List.forall_mem_cons, hc, true_and]
      exact parseDigits_eq_some
    · rw [if_neg hc]
      simp [hc]

theorem parseNatural_eq_some {cs : List Char} {n : Nat} :
    parseNatural cs = some n ↔ DigitsDenote cs n := by
  cases cs with
  | nil => simp [parseNatural, DigitsDenote]
  | cons c cs => simp only [parseNatural, parseDigits_eq_some, DigitsDenote, ne_eq, reduceCtorEq,
      not_false_eq_true, true_and]

theorem parseInteger_eq_some {cs : List Char} {v : Int} :
    parseInteger cs = some v ↔ PieceDenotes cs v := by
  cases cs with
  | nil => simp [parseInteger, PieceDenotes, DigitsDenote]
  | cons c cs =>
    by_cases hc : c = '-'
    · subst hc
      simp only [parseInteger, beq_self_eq_true, if_true, Option.map_eq_some_iff,
        parseNatural_eq_some, PieceDenotes]
      constructor
      · rintro ⟨n, hn, rfl⟩
        exact .inr ⟨cs, n, rfl, hn, rfl⟩
      · rintro (⟨n, hn, _⟩ | ⟨ds, n, hds, hn, rfl⟩)
        · exact absurd (hn.2.1 '-' (by simp)) (by decide)
        · cases hds
          exact ⟨n, hn, rfl⟩
    · have hb : (c == '-') = false := by simpa using hc
      simp only [parseInteger, hb, Bool.false_eq_true, if_false, Option.map_eq_some_iff,
        parseNatural_eq_some, PieceDenotes]
      constructor
      · rintro ⟨n, hn, rfl⟩
        exact .inl ⟨n, hn, rfl⟩
      · rintro (⟨n, hn, rfl⟩ | ⟨ds, n, hds, _⟩)
        · exact ⟨n, hn, rfl⟩
        · cases hds
          exact absurd rfl hc

theorem cellOfInt_eq_some {v : Int} {w : Word} : cellOfInt v = some w ↔ v = w.toInt := by
  unfold cellOfInt
  split
  · rename_i h
    rw [Option.some.injEq]
    constructor
    · rintro rfl
      exact (toInt_ofInt_of_fits h).symm
    · rintro rfl
      exact BitVec.ofInt_toInt
  · rename_i h
    simp only [reduceCtorEq, false_iff]
    rintro rfl
    exact h (toInt_bounds w)

/-- A piece is read exactly when it denotes a cell value. -/
theorem parsePiece_eq_some {cs : List Char} {w : Word} :
    parsePiece cs = some w ↔ PieceDenotes cs w.toInt := by
  rw [← parseInteger_eq_some]
  unfold parsePiece
  cases h : parseInteger cs with
  | none => simp
  | some v => simp [cellOfInt_eq_some]

/-- A piece is refused exactly when it denotes no value that fits. -/
theorem parsePiece_eq_none {cs : List Char} :
    parsePiece cs = none ↔ ¬ ∃ v, PieceDenotes cs v ∧ FitsInt64 v := by
  rw [Option.eq_none_iff_forall_ne_some]
  constructor
  · rintro h ⟨v, hv, hf⟩
    refine h (BitVec.ofInt 64 v) (parsePiece_eq_some.mpr ?_)
    rwa [toInt_ofInt_of_fits hf]
  · intro h w hw
    exact h ⟨_, parsePiece_eq_some.mp hw, toInt_bounds w⟩

/-! ### Trim and split -/

theorem isBlank_iff {c : Char} : isBlank c = true ↔ IsWhite c := by
  simp [isBlank, IsWhite, or_assoc]

theorem splitAt_ne_nil (sep : Char) : ∀ cs : List Char, splitAt sep cs ≠ []
  | [] => by simp [splitAt]
  | c :: cs => by
    simp only [splitAt]
    split
    · simp
    · split <;> simp

theorem splitAt_of_not_mem {sep : Char} : ∀ {p : List Char}, sep ∉ p → splitAt sep p = [p]
  | [], _ => rfl
  | c :: p, h => by
    simp only [List.mem_cons, not_or] at h
    have hc : (c == sep) = false := by simpa using fun e => h.1 e.symm
    simp only [splitAt, hc, Bool.false_eq_true, if_false, splitAt_of_not_mem h.2]

theorem splitAt_append {sep : Char} {cs : List Char} : ∀ {p : List Char}, sep ∉ p →
    splitAt sep (p ++ sep :: cs) = p :: splitAt sep cs
  | [], _ => by simp [splitAt]
  | c :: p, h => by
    simp only [List.mem_cons, not_or] at h
    have hc : (c == sep) = false := by simpa using fun e => h.1 e.symm
    simp only [List.cons_append, splitAt, hc, Bool.false_eq_true, if_false, splitAt_append h.2]

theorem joinPieces_cons_cons (p q : List Char) (ps : List (List Char)) :
    joinPieces (p :: q :: ps) = p ++ ',' :: joinPieces (q :: ps) := by
  simp [joinPieces, List.intercalate]

theorem joinPieces_singleton (p : List Char) : joinPieces [p] = p := by
  simp [joinPieces, List.intercalate]

/-- Splitting joined pieces gives them back. -/
theorem splitAt_joinPieces : ∀ {ps : List (List Char)}, ps ≠ [] → (∀ p ∈ ps, ',' ∉ p) →
    splitAt ',' (joinPieces ps) = ps
  | [], h, _ => absurd rfl h
  | [p], _, h => by rw [joinPieces_singleton]; exact splitAt_of_not_mem (h p (by simp))
  | p :: q :: ps, _, h => by
    rw [joinPieces_cons_cons, splitAt_append (h p (by simp)),
      splitAt_joinPieces (by simp) fun r hr => h r (by simp [List.mem_cons.mp hr])]

/-- Joining what a split gives is the text, and no piece holds a comma. -/
theorem joinPieces_splitAt : ∀ cs : List Char,
    joinPieces (splitAt ',' cs) = cs ∧ ∀ p ∈ splitAt ',' cs, ',' ∉ p
  | [] => by simp [splitAt, joinPieces_singleton]
  | c :: cs => by
    have ih := joinPieces_splitAt cs
    have hne := splitAt_ne_nil ',' cs
    simp only [splitAt]
    obtain ⟨p, ps, hps⟩ := List.exists_cons_of_ne_nil hne
    rw [hps] at ih ⊢
    by_cases hc : (c == ',') = true
    · rw [if_pos hc]
      have hc' : c = ',' := by simpa using hc
      refine ⟨by rw [joinPieces_cons_cons, ih.1, hc']; rfl, ?_⟩
      intro q hq
      rcases List.mem_cons.mp hq with rfl | hq
      · simp
      · exact ih.2 q hq
    · rw [if_neg hc]
      have hc' : c ≠ ',' := by simpa using hc
      refine ⟨?_, ?_⟩
      · cases ps with
        | nil =>
          have h := ih.1
          rw [joinPieces_singleton] at h ⊢
          rw [h]
        | cons q ps =>
          have h := ih.1
          rw [joinPieces_cons_cons] at h ⊢
          rw [List.cons_append, h]
      · intro q hq
        rcases List.mem_cons.mp hq with rfl | hq
        · simp only [List.mem_cons, not_or]
          exact ⟨fun e => hc' e.symm, ih.2 p (by simp)⟩
        · exact ih.2 q (by simp [hq])

theorem dropWhile_white {lead body : List Char} (hl : ∀ c ∈ lead, IsWhite c)
    (hb : ∀ c ∈ body.head?, ¬ IsWhite c) : (lead ++ body).dropWhile isBlank = body := by
  induction lead with
  | nil =>
    cases body with
    | nil => rfl
    | cons c cs =>
      have h : isBlank c = false := by
        rw [← Bool.not_eq_true, isBlank_iff]
        exact hb c rfl
      simp [h]
  | cons c lead ih =>
    have h : isBlank c = true := isBlank_iff.mpr (hl c (by simp))
    rw [List.cons_append, List.dropWhile, h]
    exact ih fun d hd => hl d (by simp [hd])

/-- Trimming takes off exactly the white space at the two ends. -/
theorem trimBlanks_of_ends {lead body trail : List Char} (hl : ∀ c ∈ lead, IsWhite c)
    (ht : ∀ c ∈ trail, IsWhite c) (hh : ∀ c ∈ body.head?, ¬ IsWhite c)
    (hg : ∀ c ∈ body.getLast?, ¬ IsWhite c) : trimBlanks (lead ++ body ++ trail) = body := by
  unfold trimBlanks
  cases body with
  | nil =>
    have h : (lead ++ [] ++ trail).dropWhile isBlank = [] := by
      have := dropWhile_white (lead := lead ++ trail) (body := [])
        (fun c hc => (List.mem_append.mp hc).elim (hl c) (ht c)) (by simp)
      simpa using this
    rw [h]
    rfl
  | cons c cs =>
    rw [List.append_assoc, dropWhile_white hl (by simpa using hh), List.reverse_append,
      dropWhile_white (fun d hd => ht d (by simpa using hd)) (by rw [List.head?_reverse]; exact hg),
      List.reverse_reverse]

theorem exists_white_prefix (cs : List Char) :
    ∃ lead, cs = lead ++ cs.dropWhile isBlank ∧ (∀ c ∈ lead, IsWhite c) ∧
      ∀ c ∈ (cs.dropWhile isBlank).head?, ¬ IsWhite c := by
  refine ⟨cs.takeWhile isBlank, List.takeWhile_append_dropWhile.symm, ?_, ?_⟩
  · intro c hc
    exact isBlank_iff.mp (List.mem_takeWhile_imp hc)
  · intro c hc hw
    have h := List.head?_dropWhile_not isBlank cs
    rw [Option.mem_def.mp hc] at h
    simp [isBlank_iff.mpr hw] at h

/-- The pieces the load works on are the text's pieces in the sense of rule R203. -/
theorem splitsInto_load (text : List Char) : SplitsInto text (splitAt ',' (trimBlanks text)) := by
  obtain ⟨lead, h1, hl, hh⟩ := exists_white_prefix text
  obtain ⟨trail, h2, ht, hg⟩ := exists_white_prefix (text.dropWhile isBlank).reverse
  have hj := joinPieces_splitAt (trimBlanks text)
  have hbody : text.dropWhile isBlank = trimBlanks text ++ trail.reverse := by
    unfold trimBlanks
    rw [← List.reverse_append, ← h2, List.reverse_reverse]
  refine ⟨lead, trail.reverse, ?_, hl, fun c hc => ht c (by simpa using hc), ?_, ?_,
    splitAt_ne_nil _ _, hj.2⟩
  · rw [hj.1, List.append_assoc, ← hbody]
    exact h1
  · rw [hj.1]
    intro c hc
    refine hh c ?_
    rw [hbody]
    cases ht' : trimBlanks text with
    | nil => rw [ht'] at hc; cases hc
    | cons d ds => rw [ht'] at hc; exact hc
  · rw [hj.1]
    intro c hc
    refine hg c ?_
    have : trimBlanks text = ((text.dropWhile isBlank).reverse.dropWhile isBlank).reverse := rfl
    rw [this, List.getLast?_reverse] at hc
    exact hc

/-- A text has one list of pieces. -/
theorem splitAt_trimBlanks {text : List Char} {pieces : List (List Char)} (h : SplitsInto text pieces) :
    splitAt ',' (trimBlanks text) = pieces := by
  obtain ⟨lead, trail, rfl, hl, ht, hh, hg, hne, hc⟩ := h
  rw [trimBlanks_of_ends hl ht hh hg, splitAt_joinPieces hne hc]

/-! ### The image -/

theorem mapM_eq_some {α β : Type} {f : α → Option β} : ∀ {l : List α} {r : List β},
    l.mapM f = some r ↔ List.Forall₂ (fun a b => f a = some b) l r
  | [], r => by simp [eq_comm]
  | a :: l, r => by
    rw [List.mapM_cons, List.forall₂_cons_left_iff]
    cases ha : f a with
    | none => simp
    | some b =>
      cases hl : l.mapM f with
      | none =>
        simp only [bind, Option.bind, reduceCtorEq, false_iff]
        rintro ⟨c, u, _, hu, rfl⟩
        rw [← mapM_eq_some, hl] at hu
        cases hu
      | some bs =>
        simp only [bind, Option.bind, pure, Option.some.injEq]
        constructor
        · rintro rfl
          exact ⟨b, bs, rfl, mapM_eq_some.mp hl, rfl⟩
        · rintro ⟨c, u, rfl, hu, rfl⟩
          rw [← mapM_eq_some, hl] at hu
          cases hu
          rfl

/-- The image of a text is the list of its pieces' values. -/
theorem parseImage_eq_some {text : List Char} {image : List Word} :
    parseImage text = some image ↔
      List.Forall₂ (fun p (w : Word) => PieceDenotes p w.toInt) (splitAt ',' (trimBlanks text)) image := by
  simp only [parseImage, mapM_eq_some, parsePiece_eq_some]

end Sys2Proof.Machine
end

