-- ==== Sys2Proof/Laws/PerInstr.lean ====
section
/-! SUPPORT. The family Cells: what the cells of an instruction are, one lemma per constructor (rules R17,
R80, R82, R87). -/

namespace Sys2Proof.Laws.Cells

/-- An instruction is 1 to 4 cells, as many as its width says, and the opcode cell, where it exists, is not
negative and carries the opcode in its two lowest digits. -/
def Statement (i : Instr) : Prop :=
  (encode i).length = i.width ∧ 1 ≤ i.width ∧ i.width ≤ 4 ∧
    (i.opcellFits = true → 0 ≤ i.opcell.toInt ∧ i.opcell.toNat % 100 = i.opcode)

/-- The part that is the same for every instruction. -/
theorem opcell_digits (i : Instr) (h : i.opcellFits = true) :
    0 ≤ i.opcell.toInt ∧ i.opcell.toNat % 100 = i.opcode := by
  rw [opcell_toInt h, opcell_toNat h]
  exact ⟨Int.natCast_nonneg _, opcellValue_mod i⟩

theorem width_pos (i : Instr) : 1 ≤ i.width := Nat.le_add_right 1 _

theorem width_le (i : Instr) : i.width ≤ 4 := by cases i <;> simp [Instr.width, Instr.operandCount]

theorem add (a b : Operand) (c : Dest) (u : Nat) : Statement (.add a b c u) :=
  ⟨rfl, width_pos _, width_le _, opcell_digits _⟩
theorem mul (a b : Operand) (c : Dest) (u : Nat) : Statement (.mul a b c u) :=
  ⟨rfl, width_pos _, width_le _, opcell_digits _⟩
theorem input (a : Dest) (u : Nat) : Statement (.input a u) :=
  ⟨rfl, width_pos _, width_le _, opcell_digits _⟩
theorem output (a : Operand) (u : Nat) : Statement (.output a u) :=
  ⟨rfl, width_pos _, width_le _, opcell_digits _⟩
theorem jumpIfTrue (a b : Operand) (u : Nat) : Statement (.jumpIfTrue a b u) :=
  ⟨rfl, width_pos _, width_le _, opcell_digits _⟩
theorem jumpIfFalse (a b : Operand) (u : Nat) : Statement (.jumpIfFalse a b u) :=
  ⟨rfl, width_pos _, width_le _, opcell_digits _⟩
theorem lessThan (a b : Operand) (c : Dest) (u : Nat) : Statement (.lessThan a b c u) :=
  ⟨rfl, width_pos _, width_le _, opcell_digits _⟩
theorem equals (a b : Operand) (c : Dest) (u : Nat) : Statement (.equals a b c u) :=
  ⟨rfl, width_pos _, width_le _, opcell_digits _⟩
theorem adjustRelativeBase (a : Operand) (u : Nat) : Statement (.adjustRelativeBase a u) :=
  ⟨rfl, width_pos _, width_le _, opcell_digits _⟩
theorem halt (u : Nat) : Statement (.halt u) := ⟨rfl, width_pos _, width_le _, opcell_digits _⟩

end Sys2Proof.Laws.Cells
end

