-- ==== Sys2Proof/Tests/Slice0.lean ====
section
/-! SUPPORT. The model's own tests: an ill-formed term for each check of WellFormed, cells written out from
30_encoding.md, one-step tests from the vectors of 95_test_vectors.md, and for every statement with hypotheses
a witness that meets them. -/

namespace Sys2Proof.Tests

open Sys2Proof Sys2Proof.Machine

/-! ### Helpers -/

/-- Cells from integers. -/
def cells (l : List Int) : List Word := l.map fun v => BitVec.ofInt 64 v

/-- The reset state of an image, with the parameters of 95_test_vectors.md. -/
def boot (l : List Int) : State := (resetWith Config.initial (cells l)).getD State.reset

/-- The same in a memory of `n` cells. -/
def bootIn (n : Nat) (l : List Int) : State :=
  (resetWith { Config.initial with memCells := n } (cells l)).getD State.reset

/-- The same with `OVERFLOW_MODE = wrap`. -/
def bootWrap (l : List Int) : State :=
  (resetWith { Config.initial with overflowMode := .wrap } (cells l)).getD State.reset

/-- The same with `STRICT_DECODE = true`. -/
def bootStrict (l : List Int) : State :=
  (resetWith { Config.initial with strictDecode := true } (cells l)).getD State.reset

/-- The greatest and the least cell. -/
def maxCell : Int := 9223372036854775807
def minCell : Int := -9223372036854775808

/-- "fault c/v" of 95_test_vectors.md: three registers written, nothing else changed. -/
def FaultsWith (s : State) (c : Cause) (v : Int) : Prop := step s = .next (faultedFrom s c v)

/-! ### WellFormed: an ill-formed term for each check (R51, R86) -/

theorem test_wf_opcell_too_large : (Instr.halt 92233720368547758).wf false = false := by decide
theorem test_wf_opcell_largest : (Instr.halt 92233720368547757).wf false = true := by decide
theorem test_wf_unused_digits_strict : (Instr.halt 100).wf true = false := by decide
theorem test_wf_unused_digits_ignored : (Instr.halt 100).wf false = true := by decide

/-! ### Decode: cells written out from 30_encoding.md (R80 to R86) -/

/-- `21201` is `m3 = 2`, `m2 = 1`, `m1 = 2`, opcode 1. -/
theorem test_decode_add : decode false (cells [21201, -1, 5, 3]) =
    .ok (.add ⟨.relative, BitVec.ofInt 64 (-1)⟩ ⟨.immediate, 5⟩ ⟨.relative, 3⟩ 0, []) := rfl
/-- W1: operand 1 position, operand 2 immediate, operand 3 position. -/
theorem test_decode_mul : decode false (cells [1002, 4, 3, 4, 33]) =
    .ok (.mul ⟨.position, 4⟩ ⟨.immediate, 3⟩ ⟨.position, 4⟩ 0, [33]) := rfl
theorem test_decode_input : decode false (cells [3, 11]) = .ok (.input ⟨.position, 11⟩ 0, []) := rfl
theorem test_decode_output : decode false (cells [1104, 5, 99]) =
    .ok (.output ⟨.immediate, 5⟩ 1, [99]) := rfl
theorem test_decode_jump_if_true : decode false (cells [205, 2, 7]) =
    .ok (.jumpIfTrue ⟨.relative, 2⟩ ⟨.position, 7⟩ 0, []) := rfl
theorem test_decode_jump_if_false : decode false (cells [1006, 101, 0]) =
    .ok (.jumpIfFalse ⟨.position, 101⟩ ⟨.immediate, 0⟩ 0, []) := rfl
theorem test_decode_less_than : decode false (cells [20107, 3, 5, 5]) =
    .ok (.lessThan ⟨.immediate, 3⟩ ⟨.position, 5⟩ ⟨.relative, 5⟩ 0, []) := rfl
theorem test_decode_equals : decode false (cells [1008, 100, 16, 101]) =
    .ok (.equals ⟨.position, 100⟩ ⟨.immediate, 16⟩ ⟨.position, 101⟩ 0, []) := rfl
theorem test_decode_adjust : decode true (cells [209, 2]) =
    .ok (.adjustRelativeBase ⟨.relative, 2⟩ 0, []) := rfl
theorem test_decode_halt : decode true (cells [99]) = .ok (.halt 0, []) := rfl

theorem test_decode_negative_cell : decodeOpcell false (BitVec.ofInt 64 (-1)) = .error .illegalOpcode := rfl
theorem test_decode_mode_three : decodeOpcell false 301 = .error .illegalMode := rfl
theorem test_decode_mode_before_write : decodeOpcell false 13101 = .error .illegalMode := rfl
theorem test_decode_immediate_write : decodeOpcell true 1011101 = .error .immediateWrite := rfl
theorem test_decode_strict : decodeOpcell true 1104 = .error .illegalMode := rfl

/-- The table's numbering: the opcode cell in bits 63..0, the operand cells above it. -/
theorem test_table_word : decodeTableWord 192 (1105 + 7 * 2 ^ 64 + 8 * 2 ^ 128) =
    some (.jumpIfTrue ⟨.immediate, 7⟩ ⟨.immediate, 8⟩ 0) := rfl
theorem test_table_word_short : decodeTableWord 8 1 =
    some (.add ⟨.position, 0⟩ ⟨.position, 0⟩ ⟨.position, 0⟩ 0) := rfl
theorem test_table_word_refused : decodeTableWord 64 98 = none := rfl
/-- The placed instruction is what the first step after reset runs. -/
theorem test_fetch_word : step (State.reset.withFetchWord 128 (104 + 5 * 2 ^ 64)) =
    .next { State.reset.withFetchWord 128 (104 + 5 * 2 ^ 64) with ip := 2, outlog := [5] } := rfl

/-! ### One step: 95_test_vectors.md -/

/-- V5: both sources and the destination are one cell. -/
theorem test_add_same_cell : (stepState (boot [1, 5, 5, 5, 99, 21])).mem.read 5 = 42 := by decide
/-- V3. -/
theorem test_add_traps : FaultsWith (boot [1101, maxCell, 1, 5, 99, 0]) .arithOverflow 1101 := rfl
/-- V15. -/
theorem test_mul_wraps : (stepState (bootWrap [1102, minCell, -1, 5, 99, 0])).mem.read 5 =
    BitVec.ofInt 64 minCell := by decide
/-- V16. -/
theorem test_mul_wraps_to_zero :
    (stepState (bootWrap [1102, 4294967296, 4294967296, 5, 99, 0])).mem.read 5 = 0 := by decide
/-- V21: the last value is peeked. -/
theorem test_input_keeps_last :
    (stepState { boot [3, 3, 99, 0] with inq := [8], keepLast := true }).inq = [8] := by decide
/-- V25: the address fault comes before the stall. -/
theorem test_input_fault_before_stall : FaultsWith (boot [3, -1]) .negativeAddress (-1) := rfl
/-- V27. -/
theorem test_output_negative : (stepState (boot [104, -7, 99])).outlog = cells [-7] := by decide
/-- V29. -/
theorem test_output_range : FaultsWith (bootIn 5 [4, 10]) .addressRange 10 := rfl
/-- V33: not taken, so the bad target is not resolved. -/
theorem test_jump_if_true_not_taken : (stepState (boot [105, 0, -5])).ip = 3 := by decide
/-- V34: taken, so it is. -/
theorem test_jump_if_true_bad_target : FaultsWith (boot [5, 3, -5, 1]) .negativeAddress (-5) := rfl
/-- V36. -/
theorem test_jump_if_false_taken : (stepState (boot [1106, 0, 7])).ip = 7 := by decide
/-- V37. -/
theorem test_jump_if_false_not_taken : (stepState (boot [1106, minCell, 7])).ip = 3 := by decide
/-- V43. -/
theorem test_less_than_signed :
    (stepState (boot [1107, minCell, maxCell, 5, 99, 0])).mem.read 5 = 1 := by decide
/-- V42. -/
theorem test_less_than_equal_operands :
    (stepState (boot [1107, 4, 4, 5, 99, 7])).mem.read 5 = 0 := by decide
/-- R34 after reset with `3,-1`: the stall check is not reached (notes/assumptions/24.md). -/
theorem test_status_bad_input_ready : status (boot [3, -1]) = .ready := by decide
/-- V46: the cell equals itself, then is overwritten. -/
theorem test_equals_same_cell : (stepState (boot [8, 5, 5, 5, 99, -3])).mem.read 5 = 1 := by decide
/-- V45. -/
theorem test_equals_differ :
    (stepState (boot [1108, minCell, maxCell, 5, 99, 7])).mem.read 5 = 0 := by decide
/-- V52. -/
theorem test_adjust_reads_memory : (stepState (boot [209, 2, 5])).rb = 5 := by decide
/-- V53. -/
theorem test_adjust_wraps :
    (stepState { bootWrap [109, 1, 99] with rb := BitVec.ofInt 64 maxCell }).rb =
      BitVec.ofInt 64 minCell := by decide
/-- V61: halt fetches no operand. -/
theorem test_halt_last_cell : (stepState (bootIn 1 [99])).halted = true := by decide
/-- V71. -/
theorem test_halt_then_step : step (stepState (boot [99])) = .next (stepState (boot [99])) := rfl
/-- V70: operand cell 3 does not exist. -/
theorem test_missing_operand_cell : FaultsWith (bootIn 3 [1, 0, 0]) .addressRange 3 := rfl
/-- V35: the jump is legal, the next fetch is not. -/
theorem test_jump_then_fetch : (stepState (stepState (boot [1105, 1, -4]))).faultIp =
    BitVec.ofInt 64 (-4) := by decide
/-- W6: the extent after a write beyond it. -/
theorem test_extent_grows : (stepState (boot [1101, 5, 6, 50, 99])).memExtent = 51 := by decide

/-- R203: white space is trimmed at the ends, and the values are cells. -/
theorem test_load_text : load Config.initial " 104,-7,99\n".toList = some (boot [104, -7, 99]) := by decide
theorem test_load_refuses_space : load Config.initial "1, 2".toList = none := by decide
theorem test_load_refuses_large : load Config.initial "9223372036854775808".toList = none := by decide
/-- R93: `mul [4], #3, [4]` is `1002,4,3,4`. -/
theorem test_assemble : assembleText "mul [4], #3, [4]".toList = some (cells [1002, 4, 3, 4]) := by decide
/-- R92, R94, P5. -/
theorem test_assemble_jmp : assembleText "top: jmp #top\n.cell -1".toList = some (cells [1105, 1, 0, -1]) := by
  decide

/-- The image `0` and no image give the same reset state (notes/assumptions/3.md). -/
theorem test_reset_zero_image : resetWith Config.initial (cells [0]) = some State.reset := by decide

/-! ### Witnesses: states and operands that meet each statement's hypotheses -/

/-- Shorthands of the witnesses. -/
def pos (v : Int) : Operand := ⟨.position, BitVec.ofInt 64 v⟩
def imm (v : Int) : Operand := ⟨.immediate, BitVec.ofInt 64 v⟩
def rel (v : Int) : Operand := ⟨.relative, BitVec.ofInt 64 v⟩
def dpos (v : Int) : Dest := ⟨.position, BitVec.ofInt 64 v⟩
def drel (v : Int) : Dest := ⟨.relative, BitVec.ofInt 64 v⟩

/-- Eight cells of memory, a relative base of 2, one value queued. -/
def tiny : State := { bootIn 8 [1, 5, 6, 7, 99, 30, 40, 0] with rb := 2, inq := [8] }

/-- `tiny` with the other overflow mode. -/
def tinyWrap : State := { tiny with cfg := { tiny.cfg with overflowMode := .wrap } }

theorem reads {s : State} {o : Operand} {x : Word} (h : readOperand s o = .ok x) : ReadsAs s o x :=
  readOperand_eq_ok.mp h
theorem writes {s : State} {d : Dest} {n : Nat} (h : writeAddr s d = .ok n) : WritesTo s d n :=
  writeAddr_eq_ok.mp h
theorem readFaults {s : State} {o : Operand} {c : Cause} {v : Int}
    (h : readOperand s o = .error ⟨c, v⟩) : ReadFaults s o c v := readOperand_eq_error.mp h
theorem writeFaults {s : State} {d : Dest} {c : Cause} {v : Int}
    (h : writeAddr s d = .error ⟨c, v⟩) : WriteFaults s d c v := writeAddr_eq_error.mp h

theorem witness_DecodeInvertsEncode :
    (Instr.add (rel (-1)) (imm 5) (drel 3) 92233720368546).wf false = true ∧
      (Instr.halt 0).wf true = true := by decide

theorem witness_EncodeInvertsDecode :
    decode false (cells [99, 7]) = .ok (.halt 0, [7]) ∧
      decode true (cells [22201, 0, 1, 2]) = .ok (.add (rel 0) (rel 1) (drel 2) 0, []) := ⟨rfl, rfl⟩

/-- Cells below and beside the map; mode digit 3; an immediate write; an unused digit; legal cells. -/
theorem witness_OpcodeMapAndDecodeFaults :
    Running (boot [-1]) ∧ CellAt (boot [-1]) (boot [-1]).ip.toInt (BitVec.ofInt 64 (-1)) ∧
      (BitVec.ofInt 64 (-1) : Word).toInt < 0 ∧
      (∀ e ∈ opcodeMap, (10 : Word).toNat % 100 ≠ e.1) ∧ (∀ e ∈ opcodeMap, (98 : Word).toNat % 100 ≠ e.1) ∧
      (∀ e ∈ opcodeMap, (0 : Word).toNat % 100 ≠ e.1) ∧
      ((301 : Word).toNat % 100, 3, some 3) ∈ opcodeMap ∧ BadModeDigit 3 (301 : Word).toNat ∧
      ((11101 : Word).toNat % 100, 3, some 3) ∈ opcodeMap ∧ ImmediateWriteDigit (some 3) (11101 : Word).toNat ∧
      ((10099 : Word).toNat % 100, 0, none) ∈ opcodeMap ∧
      (bootStrict [10099]).cfg.strictDecode = true ∧ (10099 : Word).toNat / 10 ^ 2 ≠ 0 :=
  ⟨by unfold Running; decide, ⟨by unfold InRange; decide, by decide⟩, by decide, by decide, by decide,
    by decide, by decide, ⟨1, by decide⟩, by decide, ⟨3, by decide⟩, by decide, by decide, by decide⟩

theorem not_badModeDigit_of_le {n v : Nat} (h : ∀ k, k ≤ n → k = 0 ∨ digit (k + 1) v ≤ 2) : ¬ BadModeDigit n v := by
  rintro ⟨k, h1, hk, hd⟩
  have := h k hk
  omega

/-- The digits of a legal cell, of an immediate write, and of an unused digit are not bad. -/
theorem witness_OpcodeMap_legal :
    ¬ BadModeDigit 3 (22201 : Word).toNat ∧ ¬ BadModeDigit 3 (11101 : Word).toNat ∧
      ¬ BadModeDigit 0 (10099 : Word).toNat ∧
      ¬ ImmediateWriteDigit (some 3) (22201 : Word).toNat ∧
      ¬ ImmediateWriteDigit none (10099 : Word).toNat :=
  ⟨not_badModeDigit_of_le (by decide), not_badModeDigit_of_le (by decide),
    not_badModeDigit_of_le (by decide), by rintro ⟨k, hk, h⟩; cases hk; revert h; decide,
    by rintro ⟨k, hk, _⟩; cases hk⟩

theorem witness_UnusedDigitsAndStrictCells :
    decodeOpcell false 104 = .ok (.output (imm 0) 0) ∧ 0 ≤ (1104 : Word).toInt ∧
      (1104 : Word).toNat % 10 ^ 3 = (104 : Word).toNat % 10 ^ 3 ∧
      Running (bootStrict [10099]) ∧ CellAt (bootStrict [10099]) 0 10099 ∧
      (bootStrict [10099]).cfg.strictDecode = true ∧
      decodeOpcell false 10099 = .ok (.halt 100) ∧ (10099 : Word).toNat / 10 ^ 2 ≠ 0 :=
  ⟨rfl, by decide, by decide, by unfold Running; decide, ⟨by unfold InRange; decide, by decide⟩, by decide,
    rfl, by decide⟩

/-- At -1: the fetch, a position operand, a relative operand with a base of 2, and the same as writes. -/
theorem witness_NegativeAddressesFault :
    Running { tiny with ip := BitVec.ofInt 64 (-1) } ∧
      (BitVec.ofInt 64 (-1) : Word).toInt = -1 ∧
      Addresses tiny (pos (-1)) (-1) ∧ Addresses tiny (rel (-3)) (-1) ∧
      DestAddresses tiny (dpos (-1)) (-1) ∧ DestAddresses tiny (drel (-3)) (-1) :=
  ⟨by unfold Running; decide, by decide, operandAddress_eq_some.mp rfl, operandAddress_eq_some.mp rfl,
    destAddress_eq.mp rfl, destAddress_eq.mp rfl⟩

/-- A state that has the invariant and runs. -/
theorem inv_two_cells : (bootIn 8 [104, 5]).Inv :=
  { params := by decide
    canonical := by decide
    zeroBeyond := by
      intro a ha
      have h : (bootIn 8 [104, 5]).memExtent = 2 := rfl
      rw [h] at ha
      have hm : (bootIn 8 [104, 5]).mem = [(0, 104), (1, 5)] := by decide
      rw [hm]
      simp only [Memory.read]
      rw [if_neg (by omega), if_neg (by omega)]
    extentPos := by decide
    extentMax := by decide
    queue := fun d hd => by cases hd
    haltedClean := by decide
    faultIpIsIp := by decide
    noFaultYet := by decide }

/-- The cell at -1, at `MEM_CELLS`, at `MEM_EXTENT`; operand cell 1 and operand cell 3 missing; and all there
in the last cells of memory. -/
theorem witness_FetchRule :
    Running { bootIn 8 [104, 5] with ip := 2 } ∧ Running (bootIn 3 [1, 0, 0]) ∧
      (BitVec.ofInt 64 (-1) : Word).toInt < 0 ∧ ((tiny.cfg.memCells : Int) ≤ (8 : Word).toInt) ∧
      ({ bootIn 8 [104, 5] with ip := 2 } : State).Inv ∧
      ((bootIn 8 [104, 5]).memExtent : Int) ≤ (2 : Word).toInt ∧ (2 : Word).toInt < (bootIn 8 [104, 5]).cfg.memCells ∧
      CellAt (bootIn 1 [3]) 0 3 ∧ decodeOpcell false 3 = .ok (.input (dpos 0) 0) ∧
      ((bootIn 1 [3]).cfg.memCells : Int) ≤ 0 + 1 ∧
      CellAt (bootIn 3 [1, 0, 0]) 0 1 ∧ decodeOpcell false 1 = .ok (.add (pos 0) (pos 0) (dpos 0) 0) ∧
      (∀ j : Nat, 1 ≤ j → j < 3 → (0 : Int) + j < (bootIn 3 [1, 0, 0]).cfg.memCells) ∧
      ((bootIn 3 [1, 0, 0]).cfg.memCells : Int) ≤ 0 + 3 ∧
      CellAt { bootIn 8 [0, 0, 0, 0, 1, 5, 6, 7] with ip := 4 } 4 1 ∧
      (4 : Int) + 3 < (bootIn 8 [0, 0, 0, 0, 1, 5, 6, 7]).cfg.memCells :=
  ⟨by unfold Running; decide, by unfold Running; decide, by decide, by decide,
    ⟨inv_two_cells.params, inv_two_cells.canonical, inv_two_cells.zeroBeyond, inv_two_cells.extentPos,
      inv_two_cells.extentMax, inv_two_cells.queue, inv_two_cells.haltedClean, by decide,
      inv_two_cells.noFaultYet⟩,
    by decide, by decide, ⟨by unfold InRange; decide, by decide⟩, rfl, by decide,
    ⟨by unfold InRange; decide, by decide⟩, rfl,
    by intro j h1 h3; have h : (bootIn 3 [1, 0, 0]).cfg.memCells = 3 := rfl; rw [h]; omega,
    by decide, ⟨by unfold InRange; decide, by decide⟩, by decide⟩

/-- The first and the last cell; the addresses just outside. -/
theorem witness_ReadResolver :
    InRange tiny 0 ∧ InRange tiny 7 ∧ AddressFaults tiny (-1) .negativeAddress ∧
      AddressFaults tiny 8 .addressRange ∧ (-1 : Int) = (BitVec.ofInt 64 (-3) : Word).toInt + tiny.rb.toInt :=
  ⟨by unfold InRange; decide, by unfold InRange; decide, .inl (by decide), .inr (by decide), by decide⟩

theorem witness_WriteResolver :
    DestMode.relative = .relative ∧ (7 : Int) = (5 : Word).toInt + tiny.rb.toInt ∧ InRange tiny 7 ∧
      (8 : Int) = (6 : Word).toInt + tiny.rb.toInt ∧ AddressFaults tiny 8 .addressRange :=
  ⟨rfl, by decide, by unfold InRange; decide, by decide, .inr (by decide)⟩

/-- `INT64_MAX + 1`, the least address above `INT64_MAX`. -/
theorem witness_AddressesNeverWrap :
    ({ tiny with rb := 1 } : State).cfg.wf = true ∧
      int64Max < (BitVec.ofInt 64 maxCell : Word).toInt + (1 : Word).toInt := by decide

/-- The bounds of int64 and the values next to them, in both modes. -/
theorem witness_OverflowCheck :
    FitsInt64 maxCell ∧ FitsInt64 minCell ∧ ¬ FitsInt64 (maxCell + 1) ∧ ¬ FitsInt64 (minCell - 1) ∧
      tiny.cfg.overflowMode = .trap ∧ tinyWrap.cfg.overflowMode = .wrap ∧
      (wrap64 (maxCell + 1)).toInt = minCell := by decide

/-- The clauses of the three-operand address faults, at -1 and at `MEM_CELLS`. -/
theorem witness_FaultsInOrder :
    ReadFaults tiny (pos (-1)) .negativeAddress (-1) ∧
      (ReadsAs tiny (pos 7) 0 ∧ ReadFaults tiny (rel 6) .addressRange 8) ∧
      ReadsAs tiny (pos 0) 1 ∧ ReadsAs tiny (imm (-7)) (BitVec.ofInt 64 (-7)) ∧
      WriteFaults tiny (drel 6) .addressRange 8 ∧ WriteFaults tiny (dpos (-1)) .negativeAddress (-1) :=
  ⟨readFaults rfl, ⟨reads rfl, readFaults rfl⟩, reads rfl, reads rfl, writeFaults rfl, writeFaults rfl⟩

/-- The largest sum that fits, and the next, in both modes; the write goes to the last cell. -/
theorem witness_AddRule :
    (ReadsAs tiny (imm (maxCell - 1)) (BitVec.ofInt 64 (maxCell - 1)) ∧ ReadsAs tiny (imm 1) 1 ∧
        WritesTo tiny (drel 5) 7 ∧
        FitsInt64 ((BitVec.ofInt 64 (maxCell - 1) : Word).toInt + (1 : Word).toInt)) ∧
      (ReadsAs tinyWrap (imm maxCell) (BitVec.ofInt 64 maxCell) ∧ ReadsAs tinyWrap (pos 0) 1 ∧
        WritesTo tinyWrap (dpos 0) 0 ∧
        ¬ FitsInt64 ((BitVec.ofInt 64 maxCell : Word).toInt + (1 : Word).toInt)) :=
  ⟨⟨reads rfl, reads rfl, writes rfl, by decide⟩, ⟨reads rfl, reads rfl, writes rfl, by decide⟩⟩

theorem witness_MulRule :
    (ReadsAs tiny (imm minCell) (BitVec.ofInt 64 minCell) ∧ ReadsAs tiny (imm 1) 1 ∧
        WritesTo tiny (drel 5) 7 ∧ FitsInt64 ((BitVec.ofInt 64 minCell : Word).toInt * (1 : Word).toInt)) ∧
      (ReadsAs tinyWrap (imm minCell) (BitVec.ofInt 64 minCell) ∧
        ReadsAs tinyWrap (imm (-1)) (BitVec.ofInt 64 (-1)) ∧ WritesTo tinyWrap (dpos 0) 0 ∧
        ¬ FitsInt64 ((BitVec.ofInt 64 minCell : Word).toInt * (BitVec.ofInt 64 (-1) : Word).toInt)) :=
  ⟨⟨reads rfl, reads rfl, writes rfl, by decide⟩, ⟨reads rfl, reads rfl, writes rfl, by decide⟩⟩

/-- A queue of two, of one without and with `KEEP_LAST`, and of none; a write that faults. -/
theorem witness_InputRule :
    WritesTo tiny (drel 5) 7 ∧ ({ tiny with inq := [8, 9] } : State).inq = 8 :: [9] ∧ ([9] : List Word) ≠ [] ∧
      tiny.inq = 8 :: [] ∧ tiny.keepLast = false ∧
      ({ tiny with keepLast := true } : State).keepLast = true ∧
      ({ tiny with inq := [] } : State).inq = [] ∧ WriteFaults tiny (dpos 8) .addressRange 8 :=
  ⟨writes rfl, rfl, by decide, rfl, rfl, rfl, rfl, writeFaults rfl⟩

theorem witness_OutputRule :
    ReadsAs tiny (rel 5) 0 ∧ ReadFaults tiny (rel (-3)) .negativeAddress (-1) := ⟨reads rfl, readFaults rfl⟩

theorem witness_JumpRules :
    ReadsAs tiny (pos 0) 1 ∧ (1 : Word).toInt ≠ 0 ∧ ReadsAs tiny (imm (-4)) (BitVec.ofInt 64 (-4)) ∧
      ReadsAs tiny (rel 5) 0 ∧ (0 : Word).toInt = 0 ∧ ReadFaults tiny (pos 8) .addressRange 8 :=
  ⟨reads rfl, by decide, reads rfl, reads rfl, by decide, readFaults rfl⟩

/-- Equal operands and the two extremes, written to the first and the last cell. -/
theorem witness_CompareRules :
    ReadsAs tiny (imm minCell) (BitVec.ofInt 64 minCell) ∧ ReadsAs tiny (imm maxCell) (BitVec.ofInt 64 maxCell) ∧
      ReadsAs tiny (pos 0) 1 ∧ WritesTo tiny (dpos 0) 0 ∧ WritesTo tiny (drel 5) 7 :=
  ⟨reads rfl, reads rfl, reads rfl, writes rfl, writes rfl⟩

theorem witness_AdjustRelativeBaseRule :
    ReadsAs tiny (imm (maxCell - 2)) (BitVec.ofInt 64 (maxCell - 2)) ∧
      FitsInt64 (tiny.rb.toInt + (BitVec.ofInt 64 (maxCell - 2) : Word).toInt) ∧
      ReadsAs tinyWrap (imm (maxCell - 1)) (BitVec.ofInt 64 (maxCell - 1)) ∧
      ¬ FitsInt64 (tinyWrap.rb.toInt + (BitVec.ofInt 64 (maxCell - 1) : Word).toInt) ∧
      ReadFaults tiny (rel 6) .addressRange 8 :=
  ⟨reads rfl, by decide, reads rfl, by decide, readFaults rfl⟩

theorem witness_HaltRule : ∃ t, exec (.halt 0) (boot [99]) = .next t ∧ t.halted = true := ⟨_, rfl, rfl⟩

/-- One instruction of each shape stores in the last cell. -/
theorem witness_StoresAreSeenByLaterFetches :
    tiny.mem.wf = true ∧ destOf (.add (pos 0) (imm 1) (drel 5) 0) = some (drel 5) ∧ WritesTo tiny (drel 5) 7 ∧
      ReadsAs tiny (pos 0) 1 ∧ ReadsAs tiny (imm 1) 1 ∧
      (1 : Word).toInt + (1 : Word).toInt = (2 : Word).toInt ∧
      (1 : Word).toInt * (1 : Word).toInt = (1 : Word).toInt ∧ tiny.inq = 8 :: [] ∧
      (∃ t, exec (.add (pos 0) (imm 1) (drel 5) 0) tiny = .next t) ∧
      (∃ t, exec (.mul (pos 0) (imm 1) (drel 5) 0) tiny = .next t) ∧
      (∃ t, exec (.input (drel 5) 0) tiny = .next t) ∧
      (∃ t, exec (.lessThan (pos 0) (imm 1) (drel 5) 0) tiny = .next t) ∧
      ∃ t, exec (.equals (pos 0) (imm 1) (drel 5) 0) tiny = .next t :=
  ⟨by decide, rfl, writes rfl, reads rfl, reads rfl, by decide, by decide, rfl, ⟨_, rfl⟩, ⟨_, rfl⟩, ⟨_, rfl⟩,
    ⟨_, rfl⟩, ⟨_, rfl⟩⟩

theorem witness_FrameOfStoringInstructions :
    destOf (.add (pos 0) (imm 1) (drel 5) 0) = some (drel 5) ∧
      (∃ t, exec (.add (pos 0) (imm 1) (drel 5) 0) tiny = .next t ∧ t.cause = .none) ∧
      (∃ t, exec (.equals (pos 0) (pos 8) (dpos 0) 0) tiny = .next t ∧ t.cause = .addressRange) ∧
      (∀ u, Instr.add (pos 0) (imm 1) (drel 5) 0 ≠ .input (drel 5) u) ∧
      ∃ t, exec (.input (drel 5) 0) tiny = .next t ∧ t.inq = [] :=
  ⟨rfl, ⟨_, rfl, rfl⟩, ⟨_, rfl, rfl⟩, (by intro u h; cases h), ⟨_, rfl, rfl⟩⟩

theorem witness_FrameOfNonStoringInstructions :
    destOf (.output (pos 0) 0) = none ∧ (∃ t, exec (.output (pos 0) 0) tiny = .next t) ∧
      (∃ t, exec (.jumpIfTrue (pos 0) (imm 1) 0) tiny = .next t) ∧
      (∃ t, exec (.adjustRelativeBase (pos 8) 0) tiny = .next t ∧ t.cause = .addressRange) ∧
      ∃ t, exec (.halt 0) tiny = .next t :=
  ⟨rfl, ⟨_, rfl⟩, ⟨_, rfl⟩, ⟨_, rfl, rfl⟩, ⟨_, rfl⟩⟩

/-- The instruction's last cell is the last cell of memory. -/
theorem witness_StepRunsTheDecodedInstruction :
    Running { bootIn 8 [0, 0, 0, 0, 1, 5, 6, 7] with ip := 4 } ∧
      InRange { bootIn 8 [0, 0, 0, 0, 1, 5, 6, 7] with ip := 4 } 4 ∧
      (4 : Int) + (Instr.add (pos 5) (pos 6) (dpos 7) 0).operandCount <
        (bootIn 8 [0, 0, 0, 0, 1, 5, 6, 7]).cfg.memCells ∧
      decode false (cellsFrom { bootIn 8 [0, 0, 0, 0, 1, 5, 6, 7] with ip := 4 } 4 4) =
        .ok (.add (pos 5) (pos 6) (dpos 7) 0, []) :=
  ⟨by unfold Running; decide, by unfold InRange; decide, by decide, rfl⟩

/-- An instruction of each kind: one that advances, a jump taken and not taken, and halt. -/
theorem witness_HowIpAdvances :
    (tiny.cfg.wf = true ∧ enabled tiny = true ∧ fetch tiny = .ok (.add (pos 5) (pos 6) (dpos 7) 0) ∧
        ∃ t, step tiny = .next t ∧ t.cause = .none ∧ t.ip = 4) ∧
      (fetch (boot [1105, 1, 7]) = .ok (.jumpIfTrue (imm 1) (imm 7) 0) ∧
        enabled (boot [1105, 1, 7]) = true ∧
        ∃ t, step (boot [1105, 1, 7]) = .next t ∧ t.cause = .none ∧ t.ip = 7) ∧
      (fetch (boot [1106, 1, 7]) = .ok (.jumpIfFalse (imm 1) (imm 7) 0) ∧
        enabled (boot [1106, 1, 7]) = true ∧
        ∃ t, step (boot [1106, 1, 7]) = .next t ∧ t.cause = .none ∧ t.ip = 3) ∧
      fetch (boot [99]) = .ok (.halt 0) ∧ enabled (boot [99]) = true ∧
        ∃ t, step (boot [99]) = .next t ∧ t.cause = .none ∧ t.ip = 0 :=
  ⟨⟨by decide, by decide, rfl, _, rfl, rfl, rfl⟩, ⟨rfl, by decide, _, rfl, rfl, rfl⟩,
    ⟨rfl, by decide, _, rfl, rfl, rfl⟩, rfl, by decide, _, rfl, rfl, rfl⟩

/-- A fault of every cause. -/
theorem witness_FaultEntryIsPrecise :
    (Running (boot [0]) ∧ ∃ t, step (boot [0]) = .next t ∧ t.cause = .illegalOpcode) ∧
      (∃ t, step (boot [301]) = .next t ∧ t.cause = .illegalMode) ∧
      (∃ t, step (boot [103]) = .next t ∧ t.cause = .immediateWrite) ∧
      (∃ t, step (boot [4, -1]) = .next t ∧ t.cause = .negativeAddress) ∧
      (∃ t, step (bootIn 1 [4]) = .next t ∧ t.cause = .addressRange) ∧
      (∃ t, step (boot [1101, maxCell, 1, 0]) = .next t ∧ t.cause = .arithOverflow) ∧
      ¬ InRange { tiny with ip := 8 } 8 ∧ ∃ t, step { tiny with ip := 8 } = .next t ∧ t.cause = .addressRange :=
  ⟨⟨by unfold Running; decide, _, rfl, rfl⟩, ⟨_, rfl, rfl⟩, ⟨_, rfl, rfl⟩, ⟨_, rfl, rfl⟩, ⟨_, rfl, rfl⟩,
    ⟨_, rfl, rfl⟩, by unfold InRange; decide, _, rfl, rfl⟩

/-- The three origins of an address fault: the opcode cell, an operand cell, and the first operand access that
fails (the image 1,-3,0,0 names -3). -/
theorem witness_FaultValueByCause :
    (¬ InRange { tiny with ip := 8 } 8 ∧ Running { tiny with ip := 8 }) ∧
      (Running (bootIn 3 [1, 0, 0]) ∧ CellAt (bootIn 3 [1, 0, 0]) 0 1 ∧
        decodeOpcell false 1 = .ok (.add (pos 0) (pos 0) (dpos 0) 0) ∧
        ((bootIn 3 [1, 0, 0]).cfg.memCells : Int) ≤ 0 + 3) ∧
      Running (boot [1, -3, 0, 0]) ∧ fetch (boot [1, -3, 0, 0]) = .ok (.add (pos (-3)) (pos 0) (dpos 0) 0) ∧
      OperandFault (boot [1, -3, 0, 0]) (.add (pos (-3)) (pos 0) (dpos 0) 0) .negativeAddress (-3) ∧
      FaultsWith (boot [1, -3, 0, 0]) .negativeAddress (-3) :=
  ⟨⟨by unfold InRange; decide, by unfold Running; decide⟩,
    ⟨by unfold Running; decide, ⟨by unfold InRange; decide, by decide⟩, rfl, by decide⟩,
    by unfold Running; decide, rfl, .inl (readFaults rfl), rfl⟩

/-- A faulted core, a command to it, a reset of it, and the edges of its memory. -/
theorem witness_FaultsAreTerminal :
    (stepState (boot [0])).cause ≠ .none ∧
      (∃ t r, hostCommand (.enqueue 1) (stepState (boot [0])) = some (t, r)) ∧
      (∃ t r, hostCommand (.reset (cells [99])) (stepState (boot [0])) = some (t, r)) ∧
      InRange (stepState (boot [0])) 0 ∧ InRange (stepState (boot [0])) 1048575 :=
  ⟨by decide, ⟨_, _, rfl⟩, ⟨_, _, rfl⟩, by unfold InRange; decide, by unfold InRange; decide⟩

theorem witness_DisabledStepChangesNothing :
    enabled (boot [3, 3]) = false ∧ enabled (stepState (boot [99])) = false ∧
      enabled (stepState (boot [0])) = false := by decide

theorem witness_EnabledStepCommitsOrFaults : enabled tiny = true ∧ enabled (boot [0]) = true := by decide

/-- A core on each line of the table, and the edge where `INQ` holds one value. -/
theorem witness_StatusLines :
    (stepState (boot [0])).cause ≠ .none ∧
      ((stepState (boot [99])).cause = .none ∧ (stepState (boot [99])).halted = true) ∧
      (Running (boot [3, 3]) ∧ fetch (boot [3, 3]) = .ok (.input (dpos 3) 0) ∧
        WritesTo (boot [3, 3]) (dpos 3) 3 ∧ (boot [3, 3]).inq = []) ∧
      Running { boot [3, 3] with inq := [8] } ∧ ({ boot [3, 3] with inq := [8] } : State).inq ≠ [] :=
  ⟨by decide, ⟨by decide, by decide⟩, ⟨by unfold Running; decide, rfl, writes rfl, rfl⟩,
    by unfold Running; decide, by decide⟩

theorem witness_OnlyHaltSetsHalted :
    (∃ t, step (boot [99]) = .next t) ∧
      (∃ t r, hostCommand .step (stepState (boot [99])) = some (t, r)) ∧
      (∀ image, HostCommand.step ≠ .reset image) ∧ (stepState (boot [99])).halted = true ∧
      ∃ t r, hostCommand (.reset (cells [99])) (stepState (boot [99])) = some (t, r) :=
  ⟨⟨_, rfl⟩, ⟨_, _, rfl⟩, (by intro image h; cases h), by decide, ⟨_, _, rfl⟩⟩

theorem witness_OnlyAdjustWritesRelativeBase :
    ∃ t, step (boot [109, 1]) = .next t ∧ t.rb ≠ (boot [109, 1]).rb := ⟨_, rfl, by decide⟩

theorem witness_RelativeBaseReadOnlyByRelative :
    usesRelative (.add (pos 5) (pos 6) (dpos 7) 0) = false ∧
      (∀ a u, Instr.add (pos 5) (pos 6) (dpos 7) 0 ≠ .adjustRelativeBase a u) ∧
      ∃ t, exec (.add (pos 5) (pos 6) (dpos 7) 0) tiny = .next t :=
  ⟨rfl, (by intro a u h; cases h), ⟨_, rfl⟩⟩

theorem witness_OutputLogIsAppendOnly :
    (∃ t, step (boot [104, 5]) = .next t ∧ t.outlog ≠ (boot [104, 5]).outlog) ∧
      ∃ t r, hostCommand .step (boot [104, 5]) = some (t, r) := ⟨⟨_, rfl, by decide⟩, ⟨_, _, rfl⟩⟩

theorem witness_InputQueueIsFifo :
    (∃ t, step { boot [3, 3] with inq := [8, 9] } = .next t ∧ t.inq = [9]) ∧
      ∃ t, enqueue tiny 9 = some t ∧ t.inq = [8, 9] := ⟨⟨_, rfl, rfl⟩, ⟨_, rfl, rfl⟩⟩

/-- An instruction that is no input, and input with none and with two values queued. -/
theorem witness_KeepLastReadOnlyByInput :
    ((∀ a u, Instr.halt 0 ≠ .input a u) ∧ ∃ t, exec (.halt 0) tiny = .next t) ∧
      (({ tiny with inq := [8, 9] } : State).inq.length ≠ 1 ∧
        ∃ t, exec (.input (dpos 7) 0) { tiny with inq := [8, 9] } = .next t) ∧
      ({ tiny with inq := [] } : State).inq.length ≠ 1 ∧
        ∃ t, exec (.input (dpos 7) 0) { tiny with inq := [] } = .next t :=
  ⟨⟨(by intro a u h; cases h), _, rfl⟩, ⟨by decide, _, rfl⟩, by decide, _, rfl⟩

/-- `output #5` at the end of a two-cell image; and an input into the last cell of memory. -/
theorem witness_ExtentBookkeeping :
    (enabled (bootIn 8 [104, 5]) = true ∧ fetch (bootIn 8 [104, 5]) = .ok (.output (imm 5) 0) ∧
        ∃ t, step (bootIn 8 [104, 5]) = .next t ∧ t.cause = .none) ∧
      (∃ t, step (boot [0]) = .next t ∧ t.cause ≠ .none) ∧ enabled (boot [3, 3]) = false ∧
      (∃ t, poke tiny 7 1 = some t) ∧ ∃ t r, hostCommand (.peek 7) tiny = some (t, r) :=
  ⟨⟨by decide, rfl, _, rfl, rfl⟩, ⟨_, rfl, by decide⟩, by decide, ⟨_, rfl⟩, ⟨_, _, rfl⟩⟩

/-- A core with the invariant about to store beyond its extent, in the last cell. -/
theorem inv_store_beyond : (bootIn 8 [1101, 5, 6, 7]).Inv :=
  { params := by decide
    canonical := by decide
    zeroBeyond := by
      intro a ha
      have h : (bootIn 8 [1101, 5, 6, 7]).memExtent = 4 := rfl
      rw [h] at ha
      have hm : (bootIn 8 [1101, 5, 6, 7]).mem = [(0, 1101), (1, 5), (2, 6), (3, 7)] := by decide
      rw [hm]
      simp only [Memory.read]
      rw [if_neg (by omega), if_neg (by omega), if_neg (by omega), if_neg (by omega)]
    extentPos := by decide
    extentMax := by decide
    queue := fun d hd => by cases hd
    haltedClean := by decide
    faultIpIsIp := by decide
    noFaultYet := by decide }

theorem witness_ExtentBookkeeping_store :
    (bootIn 8 [1101, 5, 6, 7]).Inv ∧ enabled (bootIn 8 [1101, 5, 6, 7]) = true ∧
      fetch (bootIn 8 [1101, 5, 6, 7]) = .ok (.add (imm 5) (imm 6) (dpos 7) 0) ∧
      destOf (.add (imm 5) (imm 6) (dpos 7) 0) = some (dpos 7) ∧
      WritesTo (bootIn 8 [1101, 5, 6, 7]) (dpos 7) 7 ∧
      ∃ t, step (bootIn 8 [1101, 5, 6, 7]) = .next t ∧ t.cause = .none :=
  ⟨inv_store_beyond, by decide, rfl, rfl, writes rfl, _, rfl, rfl⟩

theorem witness_ExtentIsUnobservable : ∃ t, step tiny = .next t := ⟨_, rfl⟩

/-- Two steps that stay in eight cells, and the least larger memory. -/
theorem witness_LargerMemoryRunsTheSame :
    tiny.cfg.memCells ≤ 9 ∧ (stepState^[2] tiny).cause ≠ .addressRange := by decide

theorem witness_StepKeepsInvariant :
    (bootIn 8 [1101, 5, 6, 7]).Inv ∧ ∃ t, step (bootIn 8 [1101, 5, 6, 7]) = .next t ∧ t.memExtent = 8 :=
  ⟨inv_store_beyond, _, rfl, rfl⟩

theorem witness_HostCommandsKeepInvariant :
    (bootIn 8 [104, 5]).Inv ∧ (∃ t r, hostCommand (.poke 7 1) (bootIn 8 [104, 5]) = some (t, r)) ∧
      (∃ t r, hostCommand (.enqueue 1) (bootIn 8 [104, 5]) = some (t, r)) ∧
      (∃ t r, hostCommand (.reset (cells [99])) (bootIn 8 [104, 5]) = some (t, r)) ∧
      ∃ t r, hostCommand .step (bootIn 8 [104, 5]) = some (t, r) :=
  ⟨inv_two_cells, ⟨_, _, rfl⟩, ⟨_, _, rfl⟩, ⟨_, _, rfl⟩, ⟨_, _, rfl⟩⟩

/-- An image of no cell, of one cell too many, and of exactly `MEM_CELLS` cells. -/
theorem witness_ConstructionFromImage :
    tiny.cfg.memCells < (cells [1, 2, 3, 4, 5, 6, 7, 8, 9]).length ∧
      cells [1, 2, 3, 4, 5, 6, 7, 8] ≠ [] ∧ (cells [1, 2, 3, 4, 5, 6, 7, 8]).length ≤ tiny.cfg.memCells ∧
      tiny.cfg.wf = true := by decide

/-- A waiting core, an enqueue to it, and a poke into its opcode cell, which ends the waiting. -/
theorem witness_StarvationStalls :
    (Running (boot [3, 3]) ∧ fetch (boot [3, 3]) = .ok (.input (dpos 3) 0) ∧
        WritesTo (boot [3, 3]) (dpos 3) 3 ∧ (boot [3, 3]).inq = []) ∧
      (∃ t, enqueue (boot [3, 3]) 8 = some t) ∧
      ∃ t r, hostCommand (.poke 0 99) (boot [3, 3]) = some (t, r) ∧ status t ≠ .awaitingInput :=
  ⟨⟨by unfold Running; decide, rfl, writes rfl, rfl⟩, ⟨_, rfl⟩, _, _, rfl, by decide⟩

/-- A queue of capacity 1, empty and full, and the unbounded queue. -/
theorem witness_EnqueueAppendsOrRefuses :
    (∀ d, ({ tiny with cfg := { tiny.cfg with inDepth := some 1 }, inq := [] } : State).cfg.inDepth = some d →
        ({ tiny with cfg := { tiny.cfg with inDepth := some 1 }, inq := [] } : State).inq.length < d) ∧
      ({ tiny with cfg := { tiny.cfg with inDepth := some 1 } } : State).cfg.inDepth = some 1 ∧
      1 ≤ tiny.inq.length ∧ ∀ d, tiny.cfg.inDepth = some d → tiny.inq.length < d :=
  ⟨(by intro d hd; cases hd; decide), rfl, by decide, (by intro d hd; cases hd)⟩

theorem witness_OutputQueries :
    tiny.outlog = [] ∧ ({ tiny with outlog := [4, 5] } : State).outlog = [4] ++ [5] := by decide

/-- The first and the last cell; the addresses just outside. -/
theorem witness_PeekAndPoke :
    tiny.mem.wf = true ∧ InRange tiny 0 ∧ InRange tiny 7 ∧ ¬ InRange tiny (-1) ∧ ¬ InRange tiny 8 := by
  unfold InRange; decide

theorem witness_RunUntilHaltStopsFirst :
    (∃ t, runUntilHalt 1 (boot [99]) = some t) ∧ status (stepState^[1] (boot [99])) = .halted ∧
      enabled (boot [99]) = true := ⟨⟨_, rfl⟩, by decide, by decide⟩

theorem witness_RunUntilOutputStopsFirst :
    (∃ t, runUntilOutputOrHalt 1 (boot [104, 5]) = some (t, some 5)) ∧
      ∃ t, runUntilOutputOrHalt 1 (boot [99]) = some (t, none) := ⟨⟨_, rfl⟩, ⟨_, rfl⟩⟩

theorem witness_InstancesShareNothing :
    (∃ z r, systemCommand (.on 1 (.enqueue 1)) ⟨[tiny, tiny]⟩ = some (z, r)) ∧
      (∃ z r, systemCommand (.forward 0 1) ⟨[{ tiny with outlog := [5] }, tiny]⟩ = some (z, r)) ∧
      (∃ z r, systemCommand (.snapshot 0) ⟨[tiny]⟩ = some (z, r)) ∧
      ∃ z r, systemCommand (.create tiny.cfg (cells [99])) ⟨[tiny]⟩ = some (z, r) :=
  ⟨⟨_, _, rfl⟩, ⟨_, _, rfl⟩, ⟨_, _, rfl⟩, ⟨_, _, rfl⟩⟩

/-- Texts and their pieces: an empty piece, a plus sign, one above `INT64_MAX`, and `INT64_MAX` itself. -/
theorem witness_LoadRefuses_malformed :
    SplitsInto "1,,2".toList ["1".toList, [], "2".toList] ∧ (¬ ∃ v, PieceDenotes [] v ∧ FitsInt64 v) ∧
      SplitsInto " +1\n".toList ["+1".toList] ∧ (¬ ∃ v, PieceDenotes "+1".toList v ∧ FitsInt64 v) ∧
      (¬ ∃ v, PieceDenotes "9223372036854775808".toList v ∧ FitsInt64 v) ∧
      PieceDenotes "9223372036854775807".toList (BitVec.ofInt 64 maxCell : Word).toInt :=
  ⟨splitsInto_load "1,,2".toList, parsePiece_eq_none.mp (by decide), splitsInto_load " +1\n".toList,
    parsePiece_eq_none.mp (by decide), parsePiece_eq_none.mp (by decide), parsePiece_eq_some.mp (by decide)⟩

/-- Pieces that denote two cells, a memory they fill exactly and one they do not fit; and a text of cells. -/
theorem witness_LoadRefuses_wellFormed :
    SplitsInto "1,-2".toList ["1".toList, "-2".toList] ∧
      List.Forall₂ (fun p (w : Word) => PieceDenotes p w.toInt) ["1".toList, "-2".toList] (cells [1, -2]) ∧
      (cells [1, -2]).length ≤ (bootIn 2 [99]).cfg.memCells ∧
      (bootIn 1 [99]).cfg.memCells < (cells [1, -2]).length ∧ cells [1, -2] ≠ [] :=
  ⟨splitsInto_load "1,-2".toList,
    .cons (parsePiece_eq_some.mp (by decide)) (.cons (parsePiece_eq_some.mp (by decide)) .nil), by decide,
    by decide, by decide⟩

/-- One instruction of each format. -/
theorem witness_AssemblerEncodes :
    instrOf 1 [pos 9, pos 10, pos 3] = some (.add (pos 9) (pos 10) (dpos 3) 0) ∧
      instrOf 3 [rel (-1)] = some (.input (drel (-1)) 0) ∧ instrOf 4 [imm 5] = some (.output (imm 5) 0) ∧
      instrOf 5 [imm 1, pos 7] = some (.jumpIfTrue (imm 1) (pos 7) 0) ∧
      instrOf 99 [] = some (.halt 0) := by decide

/-- An opcode with a write operand and one without, each with as many operands as the map says; and an item
whose label resolves. -/
theorem witness_AssemblerEncodes_builds :
    (1, 3, some 3) ∈ opcodeMap ∧
      (∀ (k : Nat) (o : Operand), (some 3 : Option Nat) = some (k + 1) →
        [pos 9, imm 1, rel 3][k]? = some o → o.mode ≠ .immediate) ∧
      (99, 0, none) ∈ opcodeMap ∧
      [AsmOperand.immediate (.label "top".toList)].mapM
          (fun (o : AsmOperand) => o.resolve [("top".toList, 7)]) = some [imm 7] ∧
      instrOf 4 [imm 7] = some (.output (imm 7) 0) :=
  ⟨by decide, (by intro k o hk ho; cases hk; cases ho; decide), by decide, by decide, rfl⟩

theorem witness_JmpIsUnconditional :
    ReadsAs tiny (imm (-4)) (BitVec.ofInt 64 (-4)) ∧ ReadsAs tiny (rel 5) 0 ∧ ReadsAs tiny (pos 7) 0 :=
  ⟨reads rfl, reads rfl, reads rfl⟩

end Sys2Proof.Tests
end

section
/-! The family Scope: the overflow check (R13), and the invariant of the machine at reset and after a step
(R8, R20, R200). -/

namespace Sys2Proof.Machine

/-! ### The overflow check -/

/-- `wrap64` keeps the residue modulo 2^64 (R13). -/
theorem wrap64_toInt_emod (v : Int) :
    (wrap64 v).toInt % 18446744073709551616 = v % 18446744073709551616 := by
  rw [wrap64, BitVec.toInt_ofInt]
  exact Int.bmod_emod

/-- Values with one residue modulo 2^64 have one wrap. -/
theorem wrap64_congr {v w : Int} (h : w % 18446744073709551616 = v % 18446744073709551616) :
    wrap64 w = wrap64 v := by
  apply BitVec.eq_of_toInt_eq
  rw [wrap64, wrap64, BitVec.toInt_ofInt, BitVec.toInt_ofInt]
  calc w.bmod (2 ^ 64) = (w % 18446744073709551616).bmod (2 ^ 64) := (Int.emod_bmod w (2 ^ 64)).symm
    _ = (v % 18446744073709551616).bmod (2 ^ 64) := by rw [h]
    _ = v.bmod (2 ^ 64) := Int.emod_bmod v (2 ^ 64)

/-- `wrap64(v)` is the unique int64 value congruent to `v` modulo 2^64 (R13). -/
theorem eq_wrap64_toInt_iff (v w : Int) :
    (FitsInt64 w ∧ w % 18446744073709551616 = v % 18446744073709551616) ↔ w = (wrap64 v).toInt := by
  constructor
  · rintro ⟨hfits, hmod⟩
    rw [← wrap64_congr hmod]
    exact (toInt_ofInt_of_fits hfits).symm
  · rintro rfl
    exact ⟨toInt_bounds _, wrap64_toInt_emod v⟩

/-- Settles O11, by the uniqueness of the wrapped value and the two cases of the overflow check. -/
theorem overflowCheck : Obligations.OverflowCheck := by
  refine ⟨eq_wrap64_toInt_iff, fun cfg opcell v => ⟨fun h => ?_, fun h hm => ?_, fun h hm => ?_⟩⟩
  · exact ⟨_, arith64_of_fits h, toInt_ofInt_of_fits h⟩
  · rw [arith64_of_not_fits h, hm]
  · rw [arith64_of_not_fits h, hm]

/-! ### What a commit does to the extent, the memory and the queue -/

/-- The addresses of two readable operands all exist. -/
theorem touches_append_inRange {s : State} {a b : Operand} {x y : Word}
    (ha : ReadsAs s a x) (hb : ReadsAs s b y) :
    ∀ e ∈ operandTouches s a ++ operandTouches s b, InRange s e := fun _ he =>
  (List.mem_append.mp he).elim (touches_inRange ha) (touches_inRange hb)

/-- Existing addresses and the cell a write operand names all exist. -/
theorem append_dest_inRange {s : State} {l : List Int} {c : Dest} {d : Nat}
    (hl : ∀ e ∈ l, InRange s e) (hd : WritesTo s c d) : ∀ e ∈ l ++ [(d : Int)], InRange s e := by
  intro e he
  rcases List.mem_append.mp he with he | he
  · exact hl e he
  · rw [List.mem_singleton.mp he]
    exact inRange_of_writesTo hd

/-- A commit moves `MEM_EXTENT` over its own cells and further cells, all of which exist (R73). -/
theorem commits_memExtent {s t : State} {i : Instr} (h : Commits s i t) :
    ∃ l, t.memExtent = extentAfter s.memExtent (fetchTouches s i.operandCount ++ l) ∧
      ∀ a ∈ l, InRange s a := by
  cases h with
  | add ha hb hd _ | mul ha hb hd _ | lessThan ha hb hd | equals ha hb hd =>
    exact ⟨_, rfl, append_dest_inRange (touches_append_inRange ha hb) hd⟩
  | input hd _ => exact ⟨_, rfl, append_dest_inRange (by simp) hd⟩
  | jumpIfTrueTaken ha _ hb | jumpIfFalseTaken ha _ hb =>
    exact ⟨_, rfl, touches_append_inRange ha hb⟩
  | output ha | jumpIfTrueNot ha _ | jumpIfFalseNot ha _ | adjustRelativeBase ha _ =>
    exact ⟨_, rfl, fun _ => touches_inRange ha⟩
  | halt => exact ⟨[], rfl, by simp⟩

/-- A commit that follows a fetch leaves `MEM_EXTENT` within `MEM_CELLS`. -/
theorem commits_memExtent_le_memCells {s t : State} {i : Instr} (h : Commits s i t) (hf : fetch s = .ok i)
    (hs : s.memExtent ≤ s.cfg.memCells) : t.memExtent ≤ s.cfg.memCells := by
  obtain ⟨l, hl, hr⟩ := commits_memExtent h
  have hrange : ∀ a ∈ fetchTouches s i.operandCount ++ l, InRange s a := fun a ha =>
    (List.mem_append.mp ha).elim (fetch_touches_inRange hf) (hr a)
  rw [hl]
  refine extentAfter_le hs fun a ha => ?_
  obtain ⟨h0, hlt⟩ := hrange a ha
  omega

/-- `MEM_EXTENT` never shrinks at a commit. -/
theorem memExtent_le_of_commits {s t : State} {i : Instr} (h : Commits s i t) :
    s.memExtent ≤ t.memExtent := by
  obtain ⟨l, hl, _⟩ := commits_memExtent h
  rw [hl]
  exact le_extentAfter _ _

/-- The extent after a store covers the cell stored. -/
theorem lt_commitStore_memExtent (s : State) (k : Nat) (l : List Int) (d : Nat) (v : Word) :
    d < (commitStore s k l d v).memExtent := by
  rw [commitStore_memExtent]
  exact lt_extentAfter (a := (d : Int)) (by simp)

/-- A commit leaves memory as it was or writes one cell, which the new `MEM_EXTENT` covers. -/
theorem commits_mem_covered {s t : State} {i : Instr} (h : Commits s i t) :
    t.mem = s.mem ∨ ∃ n v, n < t.memExtent ∧ t.mem = s.mem.write n v := by
  cases h with
  | add _ _ _ _ | mul _ _ _ _ | lessThan _ _ _ | equals _ _ _ =>
    exact .inr ⟨_, _, lt_commitStore_memExtent .., rfl⟩
  | @input _ _ d v => exact .inr ⟨d, v, lt_commitStore_memExtent s 1 [] d v, rfl⟩
  | output _ | jumpIfTrueTaken _ _ _ | jumpIfTrueNot _ _ | jumpIfFalseTaken _ _ _
  | jumpIfFalseNot _ _ | adjustRelativeBase _ _ | halt => exact .inl rfl

/-- Taking the front value never lengthens the queue, `KEEP_LAST` set or not (R110). -/
theorem takeInput_length_le (keepLast : Bool) (q : List Word) :
    (takeInput keepLast q).length ≤ q.length := by
  unfold takeInput
  split
  · exact le_rfl
  · rw [List.length_tail]
    exact Nat.sub_le _ _

/-- A commit never lengthens the input queue (R110). -/
theorem commits_inq_length_le {s t : State} {i : Instr} (h : Commits s i t) :
    t.inq.length ≤ s.inq.length := by
  cases h with
  | input _ _ => exact takeInput_length_le s.keepLast s.inq
  | add _ _ _ _ | mul _ _ _ _ | lessThan _ _ _ | equals _ _ _ | output _
  | jumpIfTrueTaken _ _ _ | jumpIfTrueNot _ _ | jumpIfFalseTaken _ _ _ | jumpIfFalseNot _ _
  | adjustRelativeBase _ _ | halt => exact le_rfl

/-! ### The invariant -/

/-- A fault entry keeps the invariant of a running core (R162): it leaves all but the fault registers. -/
theorem inv_takeFault {s : State} {e : Raise} (hs : s.Inv) (hr : Running s) (he : e.cause ≠ .none) :
    (takeFault s e).Inv where
  params := hs.params
  canonical := hs.canonical
  zeroBeyond := hs.zeroBeyond
  extentPos := hs.extentPos
  extentMax := hs.extentMax
  queue := hs.queue
  haltedClean hh := absurd (hr.1.symm.trans hh) Bool.false_ne_true
  faultIpIsIp _ := rfl
  noFaultYet hc := absurd hc he

/-- The commit of the fetched instruction of a running core keeps the invariant: `MEM_EXTENT` moves over
existing cells and covers the cell that is written. -/
theorem inv_of_commits {s t : State} {i : Instr} (hs : s.Inv) (hr : Running s) (hf : fetch s = .ok i)
    (h : Commits s i t) : t.Inv := by
  obtain ⟨hcfg, hcause, hfaultIp, hfaultValue, -⟩ := commits_fields h
  have hclean : t.cause = .none := hcause.trans hr.2
  have hgrow : s.memExtent ≤ t.memExtent := memExtent_le_of_commits h
  exact {
    params := hcfg ▸ hs.params
    canonical := by
      rcases commits_mem_covered h with hm | ⟨n, v, -, hm⟩ <;> rw [hm]
      · exact hs.canonical
      · exact Memory.write_wf hs.canonical
    zeroBeyond := fun a ha => by
      have hold : s.mem.read a = 0 := hs.zeroBeyond a (hgrow.trans ha)
      rcases commits_mem_covered h with hm | ⟨n, v, hn, hm⟩ <;> rw [hm]
      · exact hold
      · rw [Memory.read_write_other (by omega), hold]
    extentPos := hs.extentPos.trans hgrow
    extentMax := hcfg ▸ commits_memExtent_le_memCells h hf hs.extentMax
    queue := fun d hd => (commits_inq_length_le h).trans (hs.queue d (hcfg ▸ hd))
    haltedClean := fun _ => hclean
    faultIpIsIp := fun hc => absurd hclean hc
    noFaultYet := fun _ => hfaultIp ▸ hfaultValue ▸ hs.noFaultYet hr.2 }

/-- Settles O43, over the outcomes of a step: no change, a fault entry, or a commit. -/
theorem stepKeepsInvariant : Obligations.StepKeepsInvariant := by
  intro s t hs hstep
  rcases step_eq_next hstep with
    ⟨-, rfl⟩ | ⟨hr, ⟨e, -, he, rfl⟩ | ⟨i, hf, -, hc | ⟨rfl, -⟩ | ⟨e, he, -, rfl⟩⟩⟩
  · exact hs
  · exact inv_takeFault hs hr he
  · exact inv_of_commits hs hr hf hc
  · exact hs
  · exact inv_takeFault hs hr he

/-- Settles O45, field by field: memory, queue and fault registers are empty at reset. -/
theorem resetHasInvariant : Obligations.ResetHasInvariant where
  params := by decide
  canonical := rfl
  zeroBeyond _ _ := rfl
  extentPos := le_rfl
  extentMax := by decide
  queue _ _ := Nat.zero_le _
  haltedClean _ := rfl
  faultIpIsIp h := absurd rfl h
  noFaultYet _ := ⟨rfl, rfl⟩

end Sys2Proof.Machine
end

section
/-! The family State, first part: the meanings as an equivalence. `Commits`, `Stalls` and `Faults` say in the
words of the rules what an instruction does in a state; each determines the answer of `exec`, and one of them
always holds. A proof that two states run alike then only carries these words from one state to the other. -/

namespace Sys2Proof.Machine

/-- `Overflows s i e`: every operand of `i` resolves in `s` and the overflow check of its result raises `e`
(R13, R100, R101, R140). -/
inductive Overflows (s : State) : Instr → Raise → Prop where
  | add {a b c u x y d e} (ha : ReadsAs s a x) (hb : ReadsAs s b y) (hd : WritesTo s c d)
      (he : arith64 s.cfg (Instr.add a b c u).opcell (x.toInt + y.toInt) = .error e) :
      Overflows s (.add a b c u) e
  | mul {a b c u x y d e} (ha : ReadsAs s a x) (hb : ReadsAs s b y) (hd : WritesTo s c d)
      (he : arith64 s.cfg (Instr.mul a b c u).opcell (x.toInt * y.toInt) = .error e) :
      Overflows s (.mul a b c u) e
  | adjustRelativeBase {a u x e} (ha : ReadsAs s a x)
      (he : arith64 s.cfg (Instr.adjustRelativeBase a u).opcell (s.rb.toInt + x.toInt) = .error e) :
      Overflows s (.adjustRelativeBase a u) e

/-- `Faults s i e`: instruction `i` raises `e` in `s`, for an operand's address or for an overflow (R160,
R164). -/
def Faults (s : State) (i : Instr) (e : Raise) : Prop :=
  OperandFault s i e.cause e.value ∨ Overflows s i e

/-! ### Each outcome determines the answer -/

/-- A meaning that ends in a raise takes that fault. -/
theorem exec_eq_of_finish_error {i : Instr} {s : State} {e : Raise} {x : Except Raise State}
    (h : exec i s = finish s x) (hx : x = .error e) : exec i s = .next (takeFault s e) := by
  rw [h, hx]; rfl

theorem exec_of_commits {s t : State} {i : Instr} (h : Commits s i t) : exec i s = .next t := by
  cases h with
  | add ha hb hd hr | mul ha hb hd hr =>
    exact exec_eq_of_finish rfl (storeResult_eq_ok.mpr ⟨_, _, _, _, ha, hb, hd, hr, rfl⟩)
  | lessThan ha hb hd | equals ha hb hd =>
    exact exec_eq_of_finish rfl (storeResult_eq_ok.mpr ⟨_, _, _, _, ha, hb, hd, rfl, rfl⟩)
  | input hd hq =>
    exact exec_eq_of_finish rfl (bind_eq_ok.mpr ⟨_, writeAddr_eq_ok.mpr hd, by rw [hq]; rfl⟩)
  | output ha => exact exec_eq_of_finish rfl (bind_eq_ok.mpr ⟨_, readOperand_eq_ok.mpr ha, rfl⟩)
  | jumpIfTrueTaken ha hx hb | jumpIfFalseTaken ha hx hb =>
    exact exec_eq_of_finish rfl
      (jumpWhen_eq_ok.mpr ⟨_, ha, .inl ⟨by simpa using hx, _, hb, rfl⟩⟩)
  | jumpIfTrueNot ha hx | jumpIfFalseNot ha hx =>
    exact exec_eq_of_finish rfl (jumpWhen_eq_ok.mpr ⟨_, ha, .inr ⟨by simpa using hx, rfl⟩⟩)
  | adjustRelativeBase ha hr =>
    exact exec_eq_of_finish rfl
      (bind_eq_ok.mpr ⟨_, readOperand_eq_ok.mpr ha, bind_eq_ok.mpr ⟨_, hr, rfl⟩⟩)
  | halt => rfl

theorem exec_of_stalls {s : State} {i : Instr} (h : Stalls s i) : exec i s = .next s := by
  obtain ⟨a, u, d, rfl, hd, hq⟩ := h
  exact exec_eq_of_finish rfl (bind_eq_ok.mpr ⟨d, writeAddr_eq_ok.mpr hd, by rw [hq]; rfl⟩)

theorem exec_of_operandFault {s : State} {i : Instr} {e : Raise}
    (h : OperandFault s i e.cause e.value) : exec i s = .next (takeFault s e) := by
  cases i with
  | add a b c u | mul a b c u | lessThan a b c u | equals a b c u =>
    refine exec_eq_of_finish_error rfl (storeResult_eq_error.mpr ?_)
    exact h.imp_right fun ⟨x, hx, h⟩ => ⟨x, hx, h.imp_right fun ⟨y, hy, h⟩ => ⟨y, hy, .inl h⟩⟩
  | input a u =>
    exact exec_eq_of_finish_error rfl (bind_eq_error.mpr (.inl (writeAddr_eq_error.mpr h)))
  | output a u | adjustRelativeBase a u =>
    exact exec_eq_of_finish_error rfl (bind_eq_error.mpr (.inl (readOperand_eq_error.mpr h)))
  | jumpIfTrue a b u | jumpIfFalse a b u =>
    refine exec_eq_of_finish_error rfl (jumpWhen_eq_error.mpr ?_)
    exact h.imp_right fun ⟨x, hx, hp, h⟩ => ⟨x, hx, by simpa using hp, h⟩
  | halt u => exact h.elim

theorem exec_of_overflows {s : State} {i : Instr} {e : Raise} (h : Overflows s i e) :
    exec i s = .next (takeFault s e) := by
  cases h with
  | add ha hb hd he | mul ha hb hd he =>
    exact exec_eq_of_finish_error rfl
      (storeResult_eq_error.mpr (.inr ⟨_, ha, .inr ⟨_, hb, .inr ⟨_, hd, he⟩⟩⟩))
  | adjustRelativeBase ha he =>
    exact exec_eq_of_finish_error rfl
      (bind_eq_error.mpr (.inr ⟨_, readOperand_eq_ok.mpr ha, bind_eq_error.mpr (.inl he)⟩))

theorem exec_of_faults {s : State} {i : Instr} {e : Raise} (h : Faults s i e) :
    exec i s = .next (takeFault s e) :=
  h.elim exec_of_operandFault exec_of_overflows

/-! ### One of the outcomes holds -/

theorem readsAs_or_readFaults (s : State) (o : Operand) :
    (∃ x, ReadsAs s o x) ∨ ∃ e : Raise, ReadFaults s o e.cause e.value := by
  cases h : readOperand s o with
  | ok x => exact .inl ⟨x, readOperand_eq_ok.mp h⟩
  | error e => exact .inr ⟨e, readOperand_eq_error.mp h⟩

theorem writesTo_or_writeFaults (s : State) (d : Dest) :
    (∃ n, WritesTo s d n) ∨ ∃ e : Raise, WriteFaults s d e.cause e.value := by
  cases h : writeAddr s d with
  | ok n => exact .inl ⟨n, writeAddr_eq_ok.mp h⟩
  | error e => exact .inr ⟨e, writeAddr_eq_error.mp h⟩

/-- Two read operands and a write operand all resolve, or the first that does not faults (R62, R164). -/
theorem storeOperands_resolve_or_fault (s : State) (a b : Operand) (c : Dest) :
    (∃ x y d, ReadsAs s a x ∧ ReadsAs s b y ∧ WritesTo s c d) ∨
      ∃ e : Raise, ReadFaults s a e.cause e.value ∨
        ∃ x, ReadsAs s a x ∧ (ReadFaults s b e.cause e.value ∨
          ∃ y, ReadsAs s b y ∧ WriteFaults s c e.cause e.value) := by
  rcases readsAs_or_readFaults s a with ⟨x, hx⟩ | ⟨e, he⟩
  · rcases readsAs_or_readFaults s b with ⟨y, hy⟩ | ⟨e, he⟩
    · rcases writesTo_or_writeFaults s c with ⟨d, hd⟩ | ⟨e, he⟩
      · exact .inl ⟨x, y, d, hx, hy, hd⟩
      · exact .inr ⟨e, .inr ⟨x, hx, .inr ⟨y, hy, he⟩⟩⟩
    · exact .inr ⟨e, .inr ⟨x, hx, .inl he⟩⟩
  · exact .inr ⟨e, .inl he⟩

/-- Every instruction commits, stalls or faults in every state. -/
theorem commits_or_stalls_or_faults (s : State) (i : Instr) :
    (∃ t, Commits s i t) ∨ Stalls s i ∨ ∃ e, Faults s i e := by
  cases i with
  | add a b c u =>
    rcases storeOperands_resolve_or_fault s a b c with ⟨x, y, d, hx, hy, hd⟩ | ⟨e, he⟩
    · cases hr : arith64 s.cfg (Instr.add a b c u).opcell (x.toInt + y.toInt) with
      | ok r => exact .inl ⟨_, .add hx hy hd hr⟩
      | error e => exact .inr (.inr ⟨e, .inr (.add hx hy hd hr)⟩)
    · exact .inr (.inr ⟨e, .inl he⟩)
  | mul a b c u =>
    rcases storeOperands_resolve_or_fault s a b c with ⟨x, y, d, hx, hy, hd⟩ | ⟨e, he⟩
    · cases hr : arith64 s.cfg (Instr.mul a b c u).opcell (x.toInt * y.toInt) with
      | ok r => exact .inl ⟨_, .mul hx hy hd hr⟩
      | error e => exact .inr (.inr ⟨e, .inr (.mul hx hy hd hr)⟩)
    · exact .inr (.inr ⟨e, .inl he⟩)
  | lessThan a b c u =>
    rcases storeOperands_resolve_or_fault s a b c with ⟨x, y, d, hx, hy, hd⟩ | ⟨e, he⟩
    · exact .inl ⟨_, .lessThan hx hy hd⟩
    · exact .inr (.inr ⟨e, .inl he⟩)
  | equals a b c u =>
    rcases storeOperands_resolve_or_fault s a b c with ⟨x, y, d, hx, hy, hd⟩ | ⟨e, he⟩
    · exact .inl ⟨_, .equals hx hy hd⟩
    · exact .inr (.inr ⟨e, .inl he⟩)
  | input a u =>
    rcases writesTo_or_writeFaults s a with ⟨d, hd⟩ | ⟨e, he⟩
    · cases hq : s.inq with
      | nil => exact .inr (.inl ⟨a, u, d, rfl, hd, hq⟩)
      | cons v q => exact .inl ⟨_, .input hd hq⟩
    · exact .inr (.inr ⟨e, .inl he⟩)
  | output a u =>
    rcases readsAs_or_readFaults s a with ⟨x, hx⟩ | ⟨e, he⟩
    · exact .inl ⟨_, .output hx⟩
    · exact .inr (.inr ⟨e, .inl he⟩)
  | jumpIfTrue a b u =>
    rcases readsAs_or_readFaults s a with ⟨x, hx⟩ | ⟨e, he⟩
    · by_cases h0 : x.toInt = 0
      · exact .inl ⟨_, .jumpIfTrueNot hx h0⟩
      · rcases readsAs_or_readFaults s b with ⟨y, hy⟩ | ⟨e, he⟩
        · exact .inl ⟨_, .jumpIfTrueTaken hx h0 hy⟩
        · exact .inr (.inr ⟨e, .inl (.inr ⟨x, hx, h0, he⟩)⟩)
    · exact .inr (.inr ⟨e, .inl (.inl he)⟩)
  | jumpIfFalse a b u =>
    rcases readsAs_or_readFaults s a with ⟨x, hx⟩ | ⟨e, he⟩
    · by_cases h0 : x.toInt = 0
      · rcases readsAs_or_readFaults s b with ⟨y, hy⟩ | ⟨e, he⟩
        · exact .inl ⟨_, .jumpIfFalseTaken hx h0 hy⟩
        · exact .inr (.inr ⟨e, .inl (.inr ⟨x, hx, h0, he⟩)⟩)
      · exact .inl ⟨_, .jumpIfFalseNot hx h0⟩
    · exact .inr (.inr ⟨e, .inl (.inl he)⟩)
  | adjustRelativeBase a u =>
    rcases readsAs_or_readFaults s a with ⟨x, hx⟩ | ⟨e, he⟩
    · cases hr : arith64 s.cfg (Instr.adjustRelativeBase a u).opcell (s.rb.toInt + x.toInt) with
      | ok r => exact .inl ⟨_, .adjustRelativeBase hx hr⟩
      | error e => exact .inr (.inr ⟨e, .inr (.adjustRelativeBase hx hr)⟩)
    · exact .inr (.inr ⟨e, .inl he⟩)
  | halt u => exact .inl ⟨_, .halt⟩

/-- What an instruction answers, in the words of the rules. -/
theorem exec_eq_next_iff {s t : State} {i : Instr} :
    exec i s = .next t ↔
      Commits s i t ∨ (t = s ∧ Stalls s i) ∨ ∃ e, Faults s i e ∧ t = takeFault s e := by
  constructor
  · intro h
    rcases commits_or_stalls_or_faults s i with ⟨u, hu⟩ | hst | ⟨e, he⟩
    · rw [exec_of_commits hu] at h; cases h; exact .inl hu
    · rw [exec_of_stalls hst] at h; cases h; exact .inr (.inl ⟨rfl, hst⟩)
    · rw [exec_of_faults he] at h; cases h; exact .inr (.inr ⟨e, he, rfl⟩)
  · rintro (h | ⟨rfl, h⟩ | ⟨e, h, rfl⟩)
    · exact exec_of_commits h
    · exact exec_of_stalls h
    · exact exec_of_faults h

end Sys2Proof.Machine
end

section
/-! The family State, second part: no step reads `MEM_EXTENT` (R38, R73), and every host command keeps the
invariant (R180 to R187, R200). -/

namespace Sys2Proof.Machine

/-! ### What a fetch reads -/

/-- An operand fetch reads the parameters and the memory alone (R83). -/
theorem fetchCells_congr {s s' : State} (hcfg : s'.cfg = s.cfg) (hmem : s'.mem = s.mem) (n : Nat)
    (a : Int) : fetchCells s' a n = fetchCells s a n := by
  induction n generalizing a with
  | zero => rfl
  | succ n ih =>
    have hread : memRead s' a = memRead s a := by rw [memRead, memRead, hcfg, hmem]
    rw [fetchCells, fetchCells, hread]
    simp only [ih]

/-- A fetch reads the parameters, the memory and `IP` alone (R81 to R89). -/
theorem fetch_congr {s s' : State} (hcfg : s'.cfg = s.cfg) (hmem : s'.mem = s.mem) (hip : s'.ip = s.ip) :
    fetch s' = fetch s := by
  have hread : memRead s' s.ip.toInt = memRead s s.ip.toInt := by rw [memRead, memRead, hcfg, hmem]
  rw [fetch, fetch, hip, hread, hcfg]
  simp only [fetchCells_congr hcfg hmem]

theorem step_of_fetch_error {s : State} {e : Raise} (hr : Running s) (hf : fetch s = .error e) :
    step s = .next (takeFault s e) := by
  rw [step_of_running hr, hf]

theorem step_of_fetch_ok {s : State} {i : Instr} (hr : Running s) (hf : fetch s = .ok i) :
    step s = exec i s := by
  rw [step_of_running hr, hf]

/-! ### `MEM_EXTENT` is not read (R38) -/

@[simp] theorem fetch_withExtent (s : State) (e : Nat) : fetch { s with memExtent := e } = fetch s :=
  fetch_congr rfl rfl rfl

theorem status_withExtent (s : State) (e : Nat) : status { s with memExtent := e } = status s := by
  have hstall : wouldStall { s with memExtent := e } = wouldStall s := by
    rw [wouldStall, wouldStall, fetch_withExtent]
    rfl
  rw [status, status, hstall]

theorem commits_withExtent {s t : State} {i : Instr} (h : Commits s i t) (e : Nat) :
    ∃ e', Commits { s with memExtent := e } i { t with memExtent := e' } := by
  cases h with
  | add ha hb hd hr => exact ⟨_, .add ha hb hd hr⟩
  | mul ha hb hd hr => exact ⟨_, .mul ha hb hd hr⟩
  | input hd hq => exact ⟨_, .input hd hq⟩
  | output ha => exact ⟨_, .output ha⟩
  | jumpIfTrueTaken ha hx hb => exact ⟨_, .jumpIfTrueTaken ha hx hb⟩
  | jumpIfTrueNot ha hx => exact ⟨_, .jumpIfTrueNot ha hx⟩
  | jumpIfFalseTaken ha hx hb => exact ⟨_, .jumpIfFalseTaken ha hx hb⟩
  | jumpIfFalseNot ha hx => exact ⟨_, .jumpIfFalseNot ha hx⟩
  | lessThan ha hb hd => exact ⟨_, .lessThan ha hb hd⟩
  | equals ha hb hd => exact ⟨_, .equals ha hb hd⟩
  | adjustRelativeBase ha hr => exact ⟨_, .adjustRelativeBase ha hr⟩
  | halt => exact ⟨_, .halt⟩

theorem overflows_withExtent {s : State} {i : Instr} {r : Raise} (h : Overflows s i r) (e : Nat) :
    Overflows { s with memExtent := e } i r := by
  cases h with
  | add ha hb hd he => exact .add ha hb hd he
  | mul ha hb hd he => exact .mul ha hb hd he
  | adjustRelativeBase ha he => exact .adjustRelativeBase ha he

/-- An instruction answers the same next state up to `MEM_EXTENT`, whatever `MEM_EXTENT` holds. -/
theorem exec_withExtent {s t : State} {i : Instr} (h : exec i s = .next t) (e : Nat) :
    ∃ e', exec i { s with memExtent := e } = .next { t with memExtent := e' } := by
  rcases exec_eq_next_iff.mp h with hc | ⟨rfl, hst⟩ | ⟨r, hf, rfl⟩
  · obtain ⟨e', he'⟩ := commits_withExtent hc e
    exact ⟨e', exec_of_commits he'⟩
  · exact ⟨e, exec_of_stalls hst⟩
  · exact ⟨e, exec_of_faults (s := { s with memExtent := e })
      (hf.imp id fun ho => overflows_withExtent ho e)⟩

/-- Settles O41, over the outcomes of a step: a stopped core, a fetch fault, the instruction's own answer. -/
theorem extentIsUnobservable : Obligations.ExtentIsUnobservable := by
  intro s t e h
  refine ⟨status_withExtent s e, ?_⟩
  rcases step_eq_next h with ⟨hr, rfl⟩ | ⟨hr, ⟨r, hf, -, rfl⟩ | ⟨i, hf, hx, -⟩⟩
  · exact ⟨e, step_of_not_running hr⟩
  · exact ⟨e, step_of_fetch_error (s := { s with memExtent := e }) hr ((fetch_withExtent s e).trans hf)⟩
  · rw [step_of_fetch_ok (s := { s with memExtent := e }) hr ((fetch_withExtent s e).trans hf)]
    exact exec_withExtent hx e

/-! ### What the host commands keep (R180 to R187) -/

/-- A property that every step keeps holds after a host command, when it holds after the command's reset,
enqueue, poke or change of `KEEP_LAST`. -/
theorem hostCommand_keeps {P : State → Prop} {c : HostCommand} {s t : State} {r : Reply}
    (h : hostCommand c s = some (t, r)) (hs : P s)
    (hstep : ∀ u v, P u → step u = .next v → P v)
    (hreset : ∀ image, c = .reset image → resetWith s.cfg image = some t → P t)
    (henqueue : ∀ v, enqueue s v = some t → P t)
    (hpoke : ∀ a v, poke s a v = some t → P t)
    (hkeep : ∀ b, P (setKeepLast s b)) : P t := by
  rcases hostCommand_cases h with
    rfl | ⟨image, hc, ht⟩ | ⟨v, -, ht⟩ | ⟨a, v, -, ht⟩ | ⟨b, -, rfl⟩ | ⟨k, rfl, -⟩
  · exact hs
  · exact hreset image hc ht
  · exact henqueue v ht
  · exact hpoke a v ht
  · exact hkeep b
  · exact iterate_keeps (fun u hu => hstep u _ hu (step_stepState u)) k s hs

/-- A reset with legal parameters has the invariant: `MEM_EXTENT` covers the image and the rest is 0 (R200). -/
theorem inv_of_resetWith {cfg : Config} {image : List Word} {s : State} (hcfg : cfg.wf = true)
    (h : resetWith cfg image = some s) : s.Inv := by
  obtain ⟨⟨hpos, hmax⟩, rfl⟩ := resetWith_eq_some.mp h
  exact {
    params := hcfg
    canonical := Memory.writeList_wf rfl
    zeroBeyond := fun a (ha : image.length ≤ a) => by
      show (Memory.writeList [] 0 image).read a = 0
      rw [Memory.read_writeList rfl, if_neg (by omega)]
      rfl
    extentPos := hpos
    extentMax := hmax
    queue := fun _ _ => Nat.zero_le _
    haltedClean := fun _ => rfl
    faultIpIsIp := fun hc => absurd rfl hc
    noFaultYet := fun _ => ⟨rfl, rfl⟩ }

/-- An enqueue that is not refused keeps the queue within its capacity (R36, R180). -/
theorem inv_of_enqueue {s t : State} {v : Word} (hs : s.Inv) (h : enqueue s v = some t) : t.Inv := by
  obtain ⟨hroom, rfl⟩ := enqueue_eq_some.mp h
  refine { hs with queue := fun d hd => ?_ }
  have hlt : s.inq.length < d := queueHasRoom_iff.mp hroom d hd
  show (s.inq ++ [v]).length ≤ d
  rw [List.length_append, List.length_singleton]
  exact hlt

/-- A poke that is not refused moves `MEM_EXTENT` over the cell it writes (R73, R182). -/
theorem inv_of_poke {s t : State} {a : Int} {v : Word} (hs : s.Inv) (h : poke s a v = some t) : t.Inv := by
  obtain ⟨⟨h0, hlt⟩, rfl⟩ := poke_eq_some.mp h
  exact { hs with
    canonical := Memory.write_wf hs.canonical
    zeroBeyond := fun b hb => by
      obtain ⟨hold, hcell⟩ := max_le_iff.mp hb
      show (s.mem.write a.toNat v).read b = 0
      rw [Memory.read_write_other (by omega), hs.zeroBeyond b hold]
    extentPos := hs.extentPos.trans (le_max_left _ _)
    extentMax := max_le hs.extentMax (show a.toNat < s.cfg.memCells by omega) }

/-- Settles O44, over what a host command can do; its steps keep the invariant by O43. -/
theorem hostCommandsKeepInvariant : Obligations.HostCommandsKeepInvariant := by
  intro s t c r hs h
  exact hostCommand_keeps h hs stepKeepsInvariant (fun _ _ ht => inv_of_resetWith hs.params ht)
    (fun _ ht => inv_of_enqueue hs ht) (fun _ _ ht => inv_of_poke hs ht) fun _ => { hs with }

end Sys2Proof.Machine
end

section
/-! The family State, third part: which instruction writes each register, and which reads it (R22 to R37). -/

namespace Sys2Proof.Machine

/-! ### What a step writes -/

/-- A step writes at most the fault registers, or it is the commit of a running core's fetched instruction. -/
theorem step_frame_or_commits {s t : State} (h : step s = .next t) :
    t = { s with cause := t.cause, faultIp := t.faultIp, faultValue := t.faultValue } ∨
      ∃ i, Running s ∧ fetch s = .ok i ∧ Commits s i t := by
  rcases step_eq_next h with
    ⟨-, rfl⟩ | ⟨hr, ⟨e, -, -, rfl⟩ | ⟨i, hf, -, hc | ⟨rfl, -⟩ | ⟨e, -, -, rfl⟩⟩⟩
  · exact .inl rfl
  · exact .inl rfl
  · exact .inr ⟨i, hr, hf, hc⟩
  · exact .inl rfl
  · exact .inl rfl

/-- Only halt writes `HALTED` (R28). -/
theorem commits_halted {s t : State} {i : Instr} (h : Commits s i t) :
    t.halted = s.halted ∨ ∃ u, i = .halt u := by
  cases h with
  | halt => exact .inr ⟨_, rfl⟩
  | add _ _ _ _ | mul _ _ _ _ | lessThan _ _ _ | equals _ _ _ | input _ _ | output _
  | jumpIfTrueTaken _ _ _ | jumpIfTrueNot _ _ | jumpIfFalseTaken _ _ _ | jumpIfFalseNot _ _
  | adjustRelativeBase _ _ => exact .inl rfl

/-- Only adjust-relative-base writes `RB` (R29). -/
theorem commits_rb {s t : State} {i : Instr} (h : Commits s i t) :
    t.rb = s.rb ∨ ∃ a u, i = .adjustRelativeBase a u := by
  cases h with
  | adjustRelativeBase _ _ => exact .inr ⟨_, _, rfl⟩
  | add _ _ _ _ | mul _ _ _ _ | lessThan _ _ _ | equals _ _ _ | input _ _ | output _
  | jumpIfTrueTaken _ _ _ | jumpIfTrueNot _ _ | jumpIfFalseTaken _ _ _ | jumpIfFalseNot _ _
  | halt => exact .inl rfl

/-- Only output writes `OUTLOG`: it appends its operand's value (R37, R112). -/
theorem commits_outlog {s t : State} {i : Instr} (h : Commits s i t) :
    t.outlog = s.outlog ∨ ∃ a u x, i = .output a u ∧ ReadsAs s a x ∧ t.outlog = s.outlog ++ [x] := by
  cases h with
  | output ha => exact .inr ⟨_, _, _, rfl, ha, rfl⟩
  | add _ _ _ _ | mul _ _ _ _ | lessThan _ _ _ | equals _ _ _ | input _ _
  | jumpIfTrueTaken _ _ _ | jumpIfTrueNot _ _ | jumpIfFalseTaken _ _ _ | jumpIfFalseNot _ _
  | adjustRelativeBase _ _ | halt => exact .inl rfl

/-- Taking the front value keeps the queue or removes that value (R110). -/
theorem takeInput_cons (keepLast : Bool) (v : Word) (q : List Word) :
    takeInput keepLast (v :: q) = v :: q ∨ takeInput keepLast (v :: q) = q := by
  unfold takeInput
  split
  · exact .inl rfl
  · exact .inr rfl

/-- Only input writes `INQ`: it keeps the queue, or removes the front value, and it stores that value (R36,
R110). -/
theorem commits_inq {s t : State} {i : Instr} (h : Commits s i t) :
    t.inq = s.inq ∨ ∃ a u d v, i = .input a u ∧ WritesTo s a d ∧ s.inq = v :: t.inq ∧
      t.mem = s.mem.write d v := by
  cases h with
  | @input a u d v q hd hq =>
    rcases takeInput_cons s.keepLast v q with hkeep | htake
    · exact .inl (by simp only [hq, hkeep])
    · exact .inr ⟨a, u, d, v, rfl, hd, by simp only [hq, htake], rfl⟩
  | add _ _ _ _ | mul _ _ _ _ | lessThan _ _ _ | equals _ _ _ | output _
  | jumpIfTrueTaken _ _ _ | jumpIfTrueNot _ _ | jumpIfFalseTaken _ _ _ | jumpIfFalseNot _ _
  | adjustRelativeBase _ _ | halt => exact .inl rfl

/-- Settles O26, by the instruction that commits; `IP + width` is exact by `nextIp_toInt`. -/
theorem howIpAdvances : Obligations.HowIpAdvances := by
  intro s t i hcfg he hf hs hc
  have hnext : (nextIp s i.operandCount).toInt = s.ip.toInt + 1 + i.operandCount := nextIp_toInt hcfg hf
  have hcommit : Commits s i t := commits_of_step he hf hs hc
  cases hcommit with
  | jumpIfTrueTaken ha hx hb | jumpIfFalseTaken ha hx hb => exact ⟨_, ha, .inl ⟨hx, hb⟩⟩
  | jumpIfTrueNot ha hx | jumpIfFalseNot ha hx =>
    exact ⟨_, ha, .inr ⟨hx, hnext.trans (Int.add_assoc _ _ _)⟩⟩
  | halt => rfl
  | add _ _ _ _ | mul _ _ _ _ | lessThan _ _ _ | equals _ _ _ | input _ _ | output _
  | adjustRelativeBase _ _ => exact hnext

theorem not_running_of_halted {s : State} (h : s.halted = true) : ¬ Running s := fun hr =>
  absurd (hr.1.symm.trans h) Bool.false_ne_true

/-- A step leaves `HALTED` set exactly when it was set or a running core fetched halt (R28, R151). -/
theorem halted_of_step_iff {s t : State} (h : step s = .next t) :
    t.halted = true ↔ s.halted = true ∨ (Running s ∧ ∃ u, fetch s = .ok (.halt u)) := by
  constructor
  · intro ht
    rcases step_frame_or_commits h with hframe | ⟨i, hr, hf, hc⟩
    · exact .inl ((congrArg State.halted hframe).symm.trans ht)
    · rcases commits_halted hc with hkeep | ⟨u, rfl⟩
      · exact .inl (hkeep.symm.trans ht)
      · exact .inr ⟨hr, u, hf⟩
  · rintro (hs | ⟨hr, u, hf⟩)
    · rw [step_of_not_running (not_running_of_halted hs)] at h
      cases h
      exact hs
    · rw [step_of_fetch_ok hr hf, exec_of_commits .halt] at h
      cases h
      rfl

/-- Settles O34, by what a step and a host command do to `HALTED`. -/
theorem onlyHaltSetsHalted : Obligations.OnlyHaltSetsHalted := by
  refine ⟨fun s t h => halted_of_step_iff h, fun s t c r h hne hs => ?_, fun s t image r h => ?_,
    fun s hs => ?_⟩
  · refine hostCommand_keeps (P := fun u => u.halted = true) h hs
      (fun u v hu huv => (halted_of_step_iff huv).mpr (.inl hu)) (fun image hc => absurd hc (hne image))
      (fun v ht => ?_) (fun a v ht => ?_) fun _ => hs
    · obtain ⟨-, rfl⟩ := enqueue_eq_some.mp ht
      exact hs
    · obtain ⟨-, rfl⟩ := poke_eq_some.mp ht
      exact hs
  · obtain ⟨u, hu, hut⟩ := Option.map_eq_some_iff.mp h
    obtain ⟨-, rfl⟩ := resetWith_eq_some.mp hu
    cases hut
    rfl
  · have hnot : ¬ Running s := not_running_of_halted hs
    refine ⟨step_of_not_running hnot, ?_, ?_⟩
    · rw [coreStep, enabled_eq_false.mpr (.inl hnot)]
      rfl
    · rw [hostCommand, hs]

/-- Settles O35, by the frame of a step and of a commit. -/
theorem onlyAdjustWritesRelativeBase : Obligations.OnlyAdjustWritesRelativeBase := by
  intro s t h hne
  rcases step_frame_or_commits h with hframe | ⟨i, hr, hf, hc⟩
  · exact absurd (congrArg State.rb hframe) hne
  · obtain ⟨-, hcause, -⟩ := commits_fields hc
    rcases commits_rb hc with hkeep | ⟨a, u, rfl⟩
    · exact absurd hkeep hne
    · exact ⟨hcause.trans hr.2, a, u, hf⟩

/-- A step keeps `OUTLOG`, or the fetched output instruction appends its operand's value. -/
theorem outlog_of_step {s t : State} (h : step s = .next t) :
    t.outlog = s.outlog ∨
      ∃ a u x, fetch s = .ok (.output a u) ∧ ReadsAs s a x ∧ t.outlog = s.outlog ++ [x] := by
  rcases step_frame_or_commits h with hframe | ⟨i, -, hf, hc⟩
  · exact .inl (congrArg State.outlog hframe :)
  · rcases commits_outlog hc with hkeep | ⟨a, u, x, rfl, ha, hlog⟩
    · exact .inl hkeep
    · exact .inr ⟨a, u, x, hf, ha, hlog⟩

/-- Settles O37, by what a step and a host command do to `OUTLOG`. -/
theorem outputLogIsAppendOnly : Obligations.OutputLogIsAppendOnly := by
  refine ⟨fun s t h => ?_, fun s t c r h hne => ?_⟩
  · refine (outlog_of_step h).imp_right fun ⟨a, u, x, hf, ha, hlog⟩ => ⟨a, u, x, hf, ha, hlog, ?_⟩
    rw [lastOutput, hlog, List.getLast?_concat]
  · refine hostCommand_keeps (P := fun u => s.outlog <+: u.outlog) h (List.prefix_refl _)
      (fun u v hu huv => ?_) (fun image hc => absurd hc (hne image)) (fun v ht => ?_)
      (fun a v ht => ?_) fun _ => List.prefix_refl _
    · rcases outlog_of_step huv with hkeep | ⟨_, _, x, _, _, hlog⟩
      · rwa [hkeep]
      · rw [hlog]
        exact hu.trans (List.prefix_append _ _)
    · obtain ⟨-, rfl⟩ := enqueue_eq_some.mp ht
      exact List.prefix_refl _
    · obtain ⟨-, rfl⟩ := poke_eq_some.mp ht
      exact List.prefix_refl _

/-- Settles O38, by the frame of a step and of a commit. -/
theorem inputQueueIsFifo : Obligations.InputQueueIsFifo := by
  refine ⟨fun s t h => ?_, fun s t v h => (enqueue_eq_some.mp h).2⟩
  rcases step_frame_or_commits h with hframe | ⟨i, -, hf, hc⟩
  · exact .inl (congrArg State.inq hframe :)
  · rcases commits_inq hc with hkeep | ⟨a, u, d, v, rfl, hd, hq, hm⟩
    · exact .inl hkeep
    · exact .inr ⟨a, u, d, v, hf, hd, hq, hm⟩

/-! ### `RB` is read by relative operands and adjust-relative-base alone -/

section
variable (s : State) (r : Word)

theorem addresses_withRb {o : Operand} (h : (o.mode == .relative) = false) (a : Int) :
    Addresses { s with rb := r } o a ↔ Addresses s o a := by
  unfold Addresses
  cases hm : o.mode with
  | relative => simp [hm] at h
  | position | immediate => exact Iff.rfl

theorem destAddresses_withRb {d : Dest} (h : (d.mode == .relative) = false) (a : Int) :
    DestAddresses { s with rb := r } d a ↔ DestAddresses s d a := by
  unfold DestAddresses
  cases hm : d.mode with
  | relative => simp [hm] at h
  | position => exact Iff.rfl

theorem operandTouches_withRb {o : Operand} (h : (o.mode == .relative) = false) :
    operandTouches { s with rb := r } o = operandTouches s o := by
  unfold operandTouches operandAddress
  cases hm : o.mode with
  | relative => simp [hm] at h
  | position | immediate => rfl

theorem readsAs_withRb {o : Operand} (h : (o.mode == .relative) = false) (x : Word) :
    ReadsAs { s with rb := r } o x ↔ ReadsAs s o x :=
  or_congr_right (exists_congr fun a => and_congr_left fun _ => addresses_withRb s r h a)

theorem readFaults_withRb {o : Operand} (h : (o.mode == .relative) = false) (c : Cause) (v : Int) :
    ReadFaults { s with rb := r } o c v ↔ ReadFaults s o c v :=
  and_congr_left fun _ => addresses_withRb s r h v

theorem writesTo_withRb {d : Dest} (h : (d.mode == .relative) = false) (n : Nat) :
    WritesTo { s with rb := r } d n ↔ WritesTo s d n :=
  and_congr_left fun _ => destAddresses_withRb s r h n

theorem writeFaults_withRb {d : Dest} (h : (d.mode == .relative) = false) (c : Cause) (v : Int) :
    WriteFaults { s with rb := r } d c v ↔ WriteFaults s d c v :=
  and_congr_left fun _ => destAddresses_withRb s r h v

/-- Two read operands and a write operand without relative mode resolve alike under any `RB`, and the store
they end in differs in `RB` alone. -/
theorem storeOperands_withRb {a b : Operand} {c : Dest} {x y : Word} {d : Nat}
    (h : (a.mode == .relative || b.mode == .relative || c.mode == .relative) = false)
    (ha : ReadsAs s a x) (hb : ReadsAs s b y) (hd : WritesTo s c d) :
    ReadsAs { s with rb := r } a x ∧ ReadsAs { s with rb := r } b y ∧ WritesTo { s with rb := r } c d ∧
      ∀ v, commitStore { s with rb := r } 3
          (operandTouches { s with rb := r } a ++ operandTouches { s with rb := r } b) d v =
        { commitStore s 3 (operandTouches s a ++ operandTouches s b) d v with rb := r } := by
  simp only [Bool.or_eq_false_iff] at h
  obtain ⟨⟨hma, hmb⟩, hmc⟩ := h
  refine ⟨(readsAs_withRb s r hma x).mpr ha, (readsAs_withRb s r hmb y).mpr hb,
    (writesTo_withRb s r hmc d).mpr hd, fun v => ?_⟩
  rw [operandTouches_withRb s r hma, operandTouches_withRb s r hmb]
  rfl

theorem commits_withRb {t : State} {i : Instr} (hrel : usesRelative i = false)
    (hadj : ∀ a u, i ≠ .adjustRelativeBase a u) (h : Commits s i t) :
    Commits { s with rb := r } i { t with rb := r } := by
  cases h with
  | add ha hb hd hr =>
    obtain ⟨ha', hb', hd', ht⟩ := storeOperands_withRb s r hrel ha hb hd
    exact ht _ ▸ .add ha' hb' hd' hr
  | mul ha hb hd hr =>
    obtain ⟨ha', hb', hd', ht⟩ := storeOperands_withRb s r hrel ha hb hd
    exact ht _ ▸ .mul ha' hb' hd' hr
  | lessThan ha hb hd =>
    obtain ⟨ha', hb', hd', ht⟩ := storeOperands_withRb s r hrel ha hb hd
    exact ht _ ▸ .lessThan ha' hb' hd'
  | equals ha hb hd =>
    obtain ⟨ha', hb', hd', ht⟩ := storeOperands_withRb s r hrel ha hb hd
    exact ht _ ▸ .equals ha' hb' hd'
  | input hd hq => exact .input ((writesTo_withRb s r hrel _).mpr hd) hq
  | output ha =>
    rw [← operandTouches_withRb s r hrel]
    exact .output ((readsAs_withRb s r hrel _).mpr ha)
  | jumpIfTrueTaken ha hx hb =>
    obtain ⟨hma, hmb⟩ := Bool.or_eq_false_iff.mp hrel
    rw [← operandTouches_withRb s r hma, ← operandTouches_withRb s r hmb]
    exact .jumpIfTrueTaken ((readsAs_withRb s r hma _).mpr ha) hx ((readsAs_withRb s r hmb _).mpr hb)
  | jumpIfFalseTaken ha hx hb =>
    obtain ⟨hma, hmb⟩ := Bool.or_eq_false_iff.mp hrel
    rw [← operandTouches_withRb s r hma, ← operandTouches_withRb s r hmb]
    exact .jumpIfFalseTaken ((readsAs_withRb s r hma _).mpr ha) hx ((readsAs_withRb s r hmb _).mpr hb)
  | jumpIfTrueNot ha hx =>
    have hma := (Bool.or_eq_false_iff.mp hrel).1
    rw [← operandTouches_withRb s r hma]
    exact .jumpIfTrueNot ((readsAs_withRb s r hma _).mpr ha) hx
  | jumpIfFalseNot ha hx =>
    have hma := (Bool.or_eq_false_iff.mp hrel).1
    rw [← operandTouches_withRb s r hma]
    exact .jumpIfFalseNot ((readsAs_withRb s r hma _).mpr ha) hx
  | adjustRelativeBase _ _ => exact absurd rfl (hadj _ _)
  | halt => exact .halt

theorem operandFault_withRb {i : Instr} (hrel : usesRelative i = false) (c : Cause) (v : Int) :
    OperandFault { s with rb := r } i c v ↔ OperandFault s i c v := by
  cases i with
  | add a b d u | mul a b d u | lessThan a b d u | equals a b d u =>
    simp only [usesRelative, Bool.or_eq_false_iff] at hrel
    obtain ⟨⟨ha, hb⟩, hd⟩ := hrel
    simp only [OperandFault, readsAs_withRb s r ha, readFaults_withRb s r ha, readsAs_withRb s r hb,
      readFaults_withRb s r hb, writeFaults_withRb s r hd]
  | jumpIfTrue a b u | jumpIfFalse a b u =>
    obtain ⟨ha, hb⟩ := Bool.or_eq_false_iff.mp hrel
    simp only [OperandFault, readsAs_withRb s r ha, readFaults_withRb s r ha, readFaults_withRb s r hb]
  | input d u => exact writeFaults_withRb s r hrel c v
  | output a u | adjustRelativeBase a u => exact readFaults_withRb s r hrel c v
  | halt u => exact Iff.rfl

theorem faults_withRb {i : Instr} {e : Raise} (hrel : usesRelative i = false)
    (hadj : ∀ a u, i ≠ .adjustRelativeBase a u) (h : Faults s i e) : Faults { s with rb := r } i e := by
  refine h.imp (operandFault_withRb s r hrel e.cause e.value).mpr fun ho => ?_
  cases ho with
  | add ha hb hd he =>
    obtain ⟨ha', hb', hd', -⟩ := storeOperands_withRb s r hrel ha hb hd
    exact .add ha' hb' hd' he
  | mul ha hb hd he =>
    obtain ⟨ha', hb', hd', -⟩ := storeOperands_withRb s r hrel ha hb hd
    exact .mul ha' hb' hd' he
  | adjustRelativeBase _ _ => exact absurd rfl (hadj _ _)

theorem stalls_withRb {i : Instr} (hrel : usesRelative i = false) (h : Stalls s i) :
    Stalls { s with rb := r } i := by
  obtain ⟨a, u, d, rfl, hd, hq⟩ := h
  exact ⟨a, u, d, rfl, (writesTo_withRb s r hrel d).mpr hd, hq⟩

end

/-- Settles O36: each outcome of the instruction is the same outcome under another `RB`. -/
theorem relativeBaseReadOnlyByRelative : Obligations.RelativeBaseReadOnlyByRelative := by
  intro i s t r hrel hadj h
  rcases exec_eq_next_iff.mp h with hc | ⟨rfl, hst⟩ | ⟨e, hf, rfl⟩
  · exact exec_of_commits (commits_withRb s r hrel hadj hc)
  · exact exec_of_stalls (stalls_withRb _ r hrel hst)
  · exact exec_of_faults (faults_withRb s r hrel hadj hf)

/-! ### `KEEP_LAST` is read by input with one value queued alone (R30, R110) -/

/-- With other than one value queued the front value is removed, whatever `KEEP_LAST` holds. -/
theorem takeInput_of_length_ne_one {q : List Word} (h : q.length ≠ 1) (keepLast : Bool) :
    takeInput keepLast q = q.tail := if_neg fun hq => h hq.1

theorem commits_withKeepLast {s t : State} {i : Instr} (b : Bool)
    (hi : (∀ a u, i ≠ .input a u) ∨ s.inq.length ≠ 1) (h : Commits s i t) :
    Commits { s with keepLast := b } i { t with keepLast := b } := by
  cases h with
  | add ha hb hd hr => exact .add ha hb hd hr
  | mul ha hb hd hr => exact .mul ha hb hd hr
  | input hd hq =>
    have hlen : s.inq.length ≠ 1 := hi.resolve_left fun hne => hne _ _ rfl
    rw [takeInput_of_length_ne_one hlen, ← takeInput_of_length_ne_one hlen b]
    exact .input hd hq
  | output ha => exact .output ha
  | jumpIfTrueTaken ha hx hb => exact .jumpIfTrueTaken ha hx hb
  | jumpIfTrueNot ha hx => exact .jumpIfTrueNot ha hx
  | jumpIfFalseTaken ha hx hb => exact .jumpIfFalseTaken ha hx hb
  | jumpIfFalseNot ha hx => exact .jumpIfFalseNot ha hx
  | lessThan ha hb hd => exact .lessThan ha hb hd
  | equals ha hb hd => exact .equals ha hb hd
  | adjustRelativeBase ha hr => exact .adjustRelativeBase ha hr
  | halt => exact .halt

theorem faults_withKeepLast {s : State} {i : Instr} {e : Raise} (b : Bool) (h : Faults s i e) :
    Faults { s with keepLast := b } i e := by
  refine h.imp id fun ho => ?_
  cases ho with
  | add ha hb hd he => exact .add ha hb hd he
  | mul ha hb hd he => exact .mul ha hb hd he
  | adjustRelativeBase ha he => exact .adjustRelativeBase ha he

/-- Settles O39: each outcome of the instruction is the same outcome under the other `KEEP_LAST`, and a step
writes neither it nor a parameter. -/
theorem keepLastReadOnlyByInput : Obligations.KeepLastReadOnlyByInput := by
  refine ⟨fun i s t b hi h => ?_, fun s t h => ?_⟩
  · rcases exec_eq_next_iff.mp h with hc | ⟨rfl, hst⟩ | ⟨e, hf, rfl⟩
    · exact exec_of_commits (commits_withKeepLast b hi hc)
    · exact exec_of_stalls hst
    · exact exec_of_faults (faults_withKeepLast b hf)
  · rcases step_frame_or_commits h with hframe | ⟨i, -, -, hc⟩
    · exact ⟨(congrArg State.keepLast hframe :), (congrArg State.cfg hframe :)⟩
    · obtain ⟨hcfg, -, -, -, hkeep⟩ := commits_fields hc
      exact ⟨hkeep, hcfg⟩

/-! ### Codes -/

/-- Settles O32, line by line of the view; the stall line by `wouldStall_iff`. -/
theorem statusLines : Obligations.StatusLines := by
  intro s
  refine ⟨fun hc => if_pos hc, fun hc hh => ?_, fun hr a u d hf hd hq => ?_, fun hr hno => ?_,
    fun hs hboth => hboth.2 (hs.haltedClean hboth.1), rfl, rfl, rfl, rfl⟩
  · rw [status, if_neg (not_not_intro hc), if_pos hh]
  · rw [status, if_neg (not_not_intro hr.2), hr.1, if_neg Bool.false_ne_true,
      if_pos (wouldStall_iff.mpr ⟨a, u, d, hf, hd, hq⟩)]
  · rw [status, if_neg (not_not_intro hr.2), hr.1, if_neg Bool.false_ne_true,
      if_neg fun hst => hno (wouldStall_iff.mp hst)]

/-- Settles O33, over the seven causes. -/
theorem causeCodes : Obligations.CauseCodes := by
  refine ⟨rfl, rfl, rfl, rfl, rfl, rfl, rfl, fun c => ?_⟩
  cases c <;> decide

end Sys2Proof.Machine
end

section
/-! The family Memory, first part: every access checks its address, an exact integer (R50 to R61). -/

namespace Sys2Proof.Machine

/-! ### The two address faults -/

theorem addressFaults_of_neg (s : State) {a : Int} (h : a < 0) : AddressFaults s a .negativeAddress :=
  .inl ⟨h, rfl⟩

/-- Under legal parameters an address above `INT64_MAX` is out of range (R8, R54). -/
theorem addressFaults_of_int64Max_lt {s : State} {a : Int} (hcfg : s.cfg.wf = true) (h : int64Max < a) :
    AddressFaults s a .addressRange := by
  obtain ⟨-, hmax⟩ := memCells_of_wf hcfg
  have hpos : 0 ≤ int64Max := by decide
  exact .inr ⟨by omega, by omega, rfl⟩

/-- Settles O6: `NegativeAddress(a)` is the answer of each address check at `a < 0`. -/
theorem negativeAddressesFault : Obligations.NegativeAddressesFault := by
  intro s a ha
  have hneg : AddressFaults s a .negativeAddress := addressFaults_of_neg s ha
  refine ⟨fun hr hip => ?_, fun n => ?_, memRead_eq_error.mpr ⟨hneg, rfl⟩,
    fun o ho => readOperand_eq_error.mpr ⟨ho, hneg⟩, fun d hd => writeAddr_eq_error.mpr ⟨hd, hneg⟩⟩
  · subst hip
    exact step_of_fetch_error (e := ⟨.negativeAddress, s.ip.toInt⟩) hr
      (fetch_eq_error.mpr (.inl ⟨hneg, rfl⟩))
  · exact fetchCells_eq_error.mpr ⟨0, n.succ_pos, by simp, by simpa using hneg, by simp⟩

/-- Settles O10: 65 bits hold the sum of two cells, and above `INT64_MAX` no cell exists. -/
theorem addressesNeverWrap : Obligations.AddressesNeverWrap := by
  refine fun s raw => ⟨fun hcfg hlt mode => ?_, fun c => ?_⟩
  · have hrange : AddressFaults { s with cfg := { s.cfg with overflowMode := mode } }
        (raw.toInt + s.rb.toInt) .addressRange := addressFaults_of_int64Max_lt hcfg hlt
    exact ⟨readOperand_eq_error.mpr ⟨rfl, hrange⟩, writeAddr_eq_error.mpr ⟨rfl, hrange⟩⟩
  · obtain ⟨hlow, hhigh⟩ := addresses_bounds (s := s) (o := ⟨.relative, raw⟩) rfl
    exact toInt_ofInt_65 hlow hhigh

/-! ### Operand resolution -/

/-- Settles O8, by mode: the address of the operand is `a`, which exists or faults. -/
theorem readResolver : Obligations.ReadResolver := by
  refine fun s raw => ⟨rfl, fun m hm a hpos hrel => ?_⟩
  have haddr : Addresses s ⟨m, raw⟩ a := by
    rcases hm with rfl | rfl
    · exact hpos rfl
    · exact hrel rfl
  exact ⟨fun hin => readOperand_eq_ok.mpr (.inr ⟨a, haddr, hin, rfl⟩),
    fun c hc => readOperand_eq_error.mpr ⟨haddr, hc⟩⟩

/-- Settles O9, by mode: the address of the write operand is `a`, which exists or faults. -/
theorem writeResolver : Obligations.WriteResolver := by
  intro s m raw a hpos hrel
  have haddr : destAddress s ⟨m, raw⟩ = a := by
    cases m with
    | position => exact (hpos rfl).symm
    | relative => exact (hrel rfl).symm
  refine ⟨fun hin => ?_, fun c hc => writeAddr_eq_error.mpr ⟨destAddress_eq.mp haddr, hc⟩⟩
  rw [writeAddr, haddr]
  exact checkAddr_ok_of_inRange hin

end Sys2Proof.Machine
end

section
/-! The family Memory, second part: what a store changes, and what every instruction leaves (R55, R62, R71,
R100 to R150). -/

namespace Sys2Proof.Machine

/-! ### A store and the reads after it -/

/-- A read depends on the parameters and on the cell at its address alone (R54). -/
theorem memRead_congr {s t : State} {a : Int} (hcfg : t.cfg = s.cfg)
    (hcell : 0 ≤ a → t.mem.read a.toNat = s.mem.read a.toNat) : memRead t a = memRead s a := by
  rcases inRange_or_faults s a with hin | ⟨c, hc⟩
  · rw [memRead, memRead, hcfg, checkAddr_ok_of_inRange hin, ok_bind, ok_bind, hcell hin.1]
  · rw [memRead, memRead, hcfg, checkAddr_error_of_faults hc]
    rfl

/-- After a store to an existing cell that cell reads as the value stored, and every other address reads, or
faults, as before (R55, R71). -/
theorem memRead_of_mem_write {s t : State} {n : Nat} {v : Word} (hwf : s.mem.wf = true)
    (hn : n < s.cfg.memCells) (hcfg : t.cfg = s.cfg) (hmem : t.mem = s.mem.write n v) :
    memRead t n = .ok v ∧ ∀ a : Int, a ≠ n → memRead t a = memRead s a := by
  refine ⟨memRead_eq_ok.mpr ⟨?_, ?_⟩, fun a ha => memRead_congr hcfg fun h0 => ?_⟩
  · exact ⟨Int.natCast_nonneg n, by rw [hcfg]; exact_mod_cast hn⟩
  · rw [Int.toNat_natCast, hmem, Memory.read_write_same hwf]
  · rw [hmem, Memory.read_write_other (by omega)]

/-- The overflow check keeps a result that is a cell's value (R13). -/
theorem arith64_toInt (cfg : Config) (c v : Word) : arith64 cfg c v.toInt = .ok v := by
  rw [arith64_of_fits (toInt_bounds v), BitVec.ofInt_toInt]

theorem boolCell_decide (p : Prop) [Decidable p] : boolCell (decide p) = if p then 1 else 0 := by
  by_cases h : p <;> simp [boolCell, h]

/-- Settles O22: in each case the instruction commits the store of `v` in cell `n`. -/
theorem storesAreSeenByLaterFetches : Obligations.StoresAreSeenByLaterFetches := by
  intro s t i d n v hwf hd hw hi h
  suffices hstore : ∃ u, Commits s i u ∧ u.mem = s.mem.write n v by
    obtain ⟨u, hu, hmem⟩ := hstore
    obtain ⟨hcfg, -⟩ := commits_fields hu
    rw [exec_of_commits hu] at h
    cases h
    exact memRead_of_mem_write hwf hw.2 hcfg hmem
  rcases hi with ⟨a, b, u, x, y, rfl, hx, hy, hv⟩ | ⟨a, b, u, x, y, rfl, hx, hy, hv⟩ |
    ⟨u, q, rfl, hq⟩ | ⟨a, b, u, x, y, rfl, hx, hy, rfl⟩ | ⟨a, b, u, x, y, rfl, hx, hy, rfl⟩
  · exact ⟨_, .add hx hy hw (by rw [hv, arith64_toInt]), rfl⟩
  · exact ⟨_, .mul hx hy hw (by rw [hv, arith64_toInt]), rfl⟩
  · exact ⟨_, .input hw hq, rfl⟩
  · exact ⟨_, .lessThan hx hy hw, by rw [commitStore_mem, boolCell_decide]⟩
  · exact ⟨_, .equals hx hy hw, by rw [commitStore_mem, boolCell_decide]⟩

/-! ### Frames -/

/-- A commit writes no cell but the one its write operand names. -/
theorem commits_read_other {s t : State} {i : Instr} (h : Commits s i t) {n : Nat}
    (hn : ∀ d, destOf i = some d → (n : Int) ≠ destAddress s d) : t.mem.read n = s.mem.read n := by
  rcases commits_mem h with hm | ⟨d, k, v, hd, hw, hm⟩ <;> rw [hm]
  have hne : (n : Int) ≠ k := destAddress_eq.mpr hw.1 ▸ hn d hd
  exact Memory.read_write_other (by exact_mod_cast hne)

/-- A next state of an instruction changes at most the fault registers, or it is the instruction's commit. -/
theorem exec_frame_or_commits {s t : State} {i : Instr} (h : exec i s = .next t) :
    t = s ∨ (∃ c v, t = faultedFrom s c v) ∨ Commits s i t := by
  rcases exec_eq_next_iff.mp h with hc | ⟨rfl, -⟩ | ⟨e, -, rfl⟩
  · exact .inr (.inr hc)
  · exact .inl rfl
  · exact .inr (.inl ⟨_, _, rfl⟩)

/-- Settles O23, over the outcomes of the instruction; a commit's registers by which instruction writes each. -/
theorem frameOfStoringInstructions : Obligations.FrameOfStoringInstructions := by
  intro i d s t hd h
  rcases exec_frame_or_commits h with rfl | ⟨c, v, rfl⟩ | hc
  · exact ⟨fun _ _ => rfl, rfl, rfl, rfl, rfl, rfl, fun _ => rfl, .inl ⟨rfl, rfl, rfl⟩⟩
  · exact ⟨fun _ _ => rfl, rfl, rfl, rfl, rfl, rfl, fun _ => rfl, .inr ⟨c, v, rfl⟩⟩
  · obtain ⟨hcfg, hcause, hfaultIp, hfaultValue, hkeep⟩ := commits_fields hc
    refine ⟨fun n hn => commits_read_other hc fun e he => ?_, (commits_rb hc).resolve_right ?_,
      (commits_halted hc).resolve_right ?_, (commits_outlog hc).resolve_right ?_, hkeep, hcfg,
      fun hne => (commits_inq hc).resolve_right ?_, .inl ⟨hcause, hfaultIp, hfaultValue⟩⟩
    · cases hd.symm.trans he
      exact hn
    · rintro ⟨a, u, rfl⟩
      cases hd
    · rintro ⟨u, rfl⟩
      cases hd
    · rintro ⟨a, u, x, rfl, -⟩
      cases hd
    · rintro ⟨a, u, n, v, rfl, -⟩
      cases hd
      exact hne u rfl

/-- Settles O24, over the outcomes of the instruction; a commit's registers by which instruction writes each. -/
theorem frameOfNonStoringInstructions : Obligations.FrameOfNonStoringInstructions := by
  intro i s t hd h
  rcases exec_frame_or_commits h with rfl | ⟨c, v, rfl⟩ | hc
  · exact ⟨fun _ => rfl, rfl, rfl, rfl, fun _ => rfl, fun _ => rfl, fun _ => rfl, .inl ⟨rfl, rfl, rfl⟩⟩
  · exact ⟨fun _ => rfl, rfl, rfl, rfl, fun _ => rfl, fun _ => rfl, fun _ => rfl, .inr ⟨c, v, rfl⟩⟩
  · obtain ⟨hcfg, hcause, hfaultIp, hfaultValue, hkeep⟩ := commits_fields hc
    refine ⟨fun n => commits_read_other hc fun d he => ?_, (commits_inq hc).resolve_right ?_, hkeep, hcfg,
      fun hne => (commits_outlog hc).resolve_right ?_, fun hne => (commits_rb hc).resolve_right ?_,
      fun hne => (commits_halted hc).resolve_right ?_, .inl ⟨hcause, hfaultIp, hfaultValue⟩⟩
    · cases hd.symm.trans he
    · rintro ⟨a, u, n, v, rfl, -⟩
      cases hd
    · rintro ⟨a, u, x, rfl, -⟩
      exact hne a u rfl
    · rintro ⟨a, u, rfl⟩
      exact hne a u rfl
    · rintro ⟨u, rfl⟩
      exact hne u rfl

end Sys2Proof.Machine
end

section
/-! The family Memory, third part: `MEM_EXTENT` covers exactly what a committing step accesses (R73). -/

namespace Sys2Proof.Machine

/-- `Touches s i a`: an operand that `i` resolves, read or written, names address `a` (R62, R73). -/
def Touches (s : State) (i : Instr) (a : Int) : Prop :=
  (∃ o, Resolves s i o ∧ Addresses s o a) ∨ ∃ d, destOf i = some d ∧ DestAddresses s d a

/-- An instruction accesses its own cells and what its operands touch. -/
theorem accesses_iff {s : State} {i : Instr} {a : Int} :
    Accesses s i a ↔ a ∈ fetchTouches s i.operandCount ∨ Touches s i a := by
  rw [mem_fetchTouches]
  exact Iff.rfl

/-! ### The touched addresses, as the lists the commits carry -/

/-- Without a write operand, an instruction touches what its read operands name. -/
theorem mem_touches_of_no_dest {s : State} {i : Instr} {l : List Int} (hi : destOf i = none)
    (hl : ∀ v, v ∈ l ↔ ∃ o, Resolves s i o ∧ Addresses s o v) (v : Int) : v ∈ l ↔ Touches s i v := by
  rw [hl]
  simp [Touches, hi]

theorem mem_operandTouches_append {s : State} {a b : Operand} {v : Int} :
    v ∈ operandTouches s a ++ operandTouches s b ↔ ∃ o, (o = a ∨ o = b) ∧ Addresses s o v := by
  simp only [List.mem_append, mem_operandTouches, or_and_right, exists_or, exists_eq_left]

/-- With its write operand resolved, an instruction touches what its read operands name and the cell written. -/
theorem mem_touches_of_dest {s : State} {i : Instr} {l : List Int} {c : Dest} {d : Nat}
    (hi : destOf i = some c) (hd : WritesTo s c d)
    (hl : ∀ v, v ∈ l ↔ ∃ o, Resolves s i o ∧ Addresses s o v) (v : Int) :
    v ∈ l ++ [(d : Int)] ↔ Touches s i v := by
  rw [List.mem_append, List.mem_singleton, hl, ← destAddresses_iff hd]
  simp [Touches, hi]

/-- A jump whose condition holds resolves both operands (R120, R121). -/
theorem mem_jumpTouches_taken {s : State} {a b : Operand} {p : Prop} (hp : p) (v : Int) :
    v ∈ operandTouches s a ++ operandTouches s b ↔ ∃ o, (o = a ∨ o = b ∧ p) ∧ Addresses s o v := by
  simp only [mem_operandTouches_append, hp, and_true]

/-- A jump whose condition fails resolves its first operand alone (R120, R121). -/
theorem mem_jumpTouches_not {s : State} {a b : Operand} {p : Prop} (hp : ¬ p) (v : Int) :
    v ∈ operandTouches s a ↔ ∃ o, (o = a ∨ o = b ∧ p) ∧ Addresses s o v := by
  simp only [mem_operandTouches, hp, and_false, or_false, exists_eq_left]

/-- A readable operand's value decides every condition on it. -/
theorem not_exists_readsAs {s : State} {a : Operand} {x : Word} {p : Word → Prop} (ha : ReadsAs s a x)
    (hx : ¬ p x) : ¬ ∃ y, ReadsAs s a y ∧ p y := fun ⟨_, hy, hp⟩ => hx (readsAs_unique hy ha ▸ hp)

/-- A commit moves `MEM_EXTENT` over its own cells and exactly the addresses its operands touch. -/
theorem commits_memExtent_touches {s t : State} {i : Instr} (h : Commits s i t) :
    ∃ l, t.memExtent = extentAfter s.memExtent (fetchTouches s i.operandCount ++ l) ∧
      ∀ a, a ∈ l ↔ Touches s i a := by
  cases h with
  | add _ _ hd _ | mul _ _ hd _ | lessThan _ _ hd | equals _ _ hd =>
    exact ⟨_, rfl, mem_touches_of_dest rfl hd fun _ => mem_operandTouches_append⟩
  | input hd _ => exact ⟨_, rfl, mem_touches_of_dest (l := []) rfl hd (by simp [Resolves])⟩
  | output _ | adjustRelativeBase _ _ =>
    exact ⟨_, rfl, mem_touches_of_no_dest rfl (by simp [Resolves, mem_operandTouches])⟩
  | jumpIfTrueTaken ha hx _ | jumpIfFalseTaken ha hx _ =>
    exact ⟨_, rfl, mem_touches_of_no_dest rfl (mem_jumpTouches_taken ⟨_, ha, hx⟩)⟩
  | jumpIfTrueNot ha hx =>
    exact ⟨_, rfl, mem_touches_of_no_dest rfl
      (mem_jumpTouches_not (not_exists_readsAs ha (not_not_intro hx)))⟩
  | jumpIfFalseNot ha hx =>
    exact ⟨_, rfl, mem_touches_of_no_dest rfl (mem_jumpTouches_not (not_exists_readsAs ha hx))⟩
  | halt => exact ⟨[], rfl, mem_touches_of_no_dest rfl (by simp [Resolves])⟩

/-! ### The touched addresses exist -/

/-- Every operand that a committing instruction resolves is readable. -/
theorem readsAs_of_commits {s t : State} {i : Instr} (h : Commits s i t) {o : Operand}
    (ho : Resolves s i o) : ∃ x, ReadsAs s o x := by
  cases h with
  | add ha hb _ _ | mul ha hb _ _ | lessThan ha hb _ | equals ha hb _ =>
    rcases ho with rfl | rfl
    · exact ⟨_, ha⟩
    · exact ⟨_, hb⟩
  | output ha | adjustRelativeBase ha _ =>
    cases ho
    exact ⟨_, ha⟩
  | jumpIfTrueTaken ha _ hb | jumpIfFalseTaken ha _ hb =>
    rcases ho with rfl | ⟨rfl, -⟩
    · exact ⟨_, ha⟩
    · exact ⟨_, hb⟩
  | jumpIfTrueNot ha hx =>
    rcases ho with rfl | ⟨-, htaken⟩
    · exact ⟨_, ha⟩
    · exact absurd htaken (not_exists_readsAs ha (not_not_intro hx))
  | jumpIfFalseNot ha hx =>
    rcases ho with rfl | ⟨-, htaken⟩
    · exact ⟨_, ha⟩
    · exact absurd htaken (not_exists_readsAs ha hx)
  | input _ _ | halt => exact ho.elim

/-- The write operand of a committing instruction names an existing cell. -/
theorem writesTo_of_commits {s t : State} {i : Instr} (h : Commits s i t) {d : Dest}
    (hd : destOf i = some d) : ∃ n, WritesTo s d n := by
  cases h with
  | add _ _ hw _ | mul _ _ hw _ | lessThan _ _ hw | equals _ _ hw | input hw _ =>
    cases hd
    exact ⟨_, hw⟩
  | output _ | jumpIfTrueTaken _ _ _ | jumpIfTrueNot _ _ | jumpIfFalseTaken _ _ _ | jumpIfFalseNot _ _
  | adjustRelativeBase _ _ | halt => cases hd

/-- Every address that a fetched and committing instruction accesses exists. -/
theorem inRange_of_accesses {s t : State} {i : Instr} (hf : fetch s = .ok i) (h : Commits s i t) {a : Int}
    (ha : Accesses s i a) : InRange s a := by
  rcases accesses_iff.mp ha with hcell | ⟨o, ho, hoa⟩ | ⟨d, hd, hda⟩
  · exact fetch_touches_inRange hf hcell
  · obtain ⟨x, hx⟩ := readsAs_of_commits h ho
    exact touches_inRange hx (mem_operandTouches.mpr hoa)
  · obtain ⟨n, hw⟩ := writesTo_of_commits h hd
    rw [(destAddresses_iff hw a).mp hda]
    exact inRange_of_writesTo hw

/-! ### The extent after a commit -/

/-- A commit moves `MEM_EXTENT` over exactly the addresses the instruction accesses. -/
theorem commits_memExtent_accesses {s t : State} {i : Instr} (h : Commits s i t) :
    ∃ l, t.memExtent = extentAfter s.memExtent l ∧ ∀ a, a ∈ l ↔ Accesses s i a := by
  obtain ⟨l, hext, hl⟩ := commits_memExtent_touches h
  exact ⟨_, hext, fun a => by rw [List.mem_append, hl, accesses_iff]⟩

theorem lt_memExtent_of_accesses {s t : State} {i : Instr} (h : Commits s i t) {a : Int}
    (ha : Accesses s i a) : a < t.memExtent := by
  obtain ⟨l, hext, hl⟩ := commits_memExtent_accesses h
  have hlt : a.toNat < t.memExtent := hext ▸ lt_extentAfter ((hl a).mpr ha)
  omega

/-- The extent after a commit is the old one or an accessed address plus one. -/
theorem memExtent_eq_or_accessed {s t : State} {i : Instr} (hf : fetch s = .ok i) (h : Commits s i t) :
    t.memExtent = s.memExtent ∨ ∃ a, Accesses s i a ∧ (t.memExtent : Int) = a + 1 := by
  obtain ⟨l, hext, hl⟩ := commits_memExtent_accesses h
  rcases extentAfter_cases s.memExtent l with hold | ⟨a, ha, hnew⟩
  · exact .inl (hext.trans hold)
  · have hacc : Accesses s i a := (hl a).mp ha
    obtain ⟨h0, -⟩ := inRange_of_accesses hf h hacc
    exact .inr ⟨a, hacc, by rw [hext, hnew]; omega⟩

/-- A step that records a fault, or that the core is not enabled to take, leaves `MEM_EXTENT`. -/
theorem memExtent_of_fault_or_disabled {s t : State} (h : step s = .next t)
    (hno : t.cause ≠ .none ∨ enabled s = false) : t.memExtent = s.memExtent := by
  rcases step_frame_or_commits h with hframe | ⟨i, hr, hf, hc⟩
  · exact (congrArg State.memExtent hframe :)
  · obtain ⟨-, hcause, -⟩ := commits_fields hc
    rcases hno with hfault | hdis
    · exact absurd (hcause.trans hr.2) hfault
    · have hstall : wouldStall s = true := (enabled_eq_false.mp hdis).resolve_left (not_not_intro hr)
      obtain ⟨a, u, d, hf', hw, hq⟩ := wouldStall_iff.mp hstall
      rw [step_of_fetch_ok hr hf', exec_of_stalls ⟨a, u, d, rfl, hw, hq⟩] at h
      cases h
      rfl

/-- Settles O40, by what a commit accesses; a store's own cell is one of the accesses. -/
theorem extentBookkeeping : Obligations.ExtentBookkeeping := by
  refine ⟨fun s t i he hf hs hc => ?_, fun s t h hno => memExtent_of_fault_or_disabled h hno,
    fun s t a v h => ?_, fun s t a r h => ?_, fun s t i d n hinv he hf hd hw hs hc => ?_⟩
  · have hcommit : Commits s i t := commits_of_step he hf hs hc
    exact ⟨memExtent_le_of_commits hcommit, fun a => lt_memExtent_of_accesses hcommit,
      memExtent_eq_or_accessed hf hcommit⟩
  · obtain ⟨⟨h0, -⟩, rfl⟩ := poke_eq_some.mp h
    show ((max s.memExtent (a.toNat + 1) : Nat) : Int) = _
    omega
  · obtain ⟨v, -, hv⟩ := Option.map_eq_some_iff.mp h
    cases hv
    rfl
  · have hcommit : Commits s i t := commits_of_step he hf hs hc
    have hcover : (n : Int) < t.memExtent :=
      lt_memExtent_of_accesses hcommit (.inr (.inr ⟨d, hd, hw.1⟩))
    refine ⟨by exact_mod_cast hcover, fun a ha hne => ?_⟩
    rw [commits_read_other hcommit fun c hc => ?_, hinv.zeroBeyond a ha]
    cases hd.symm.trans hc
    rw [destAddress_eq.mpr hw.1]
    exact_mod_cast hne

end Sys2Proof.Machine
end

section
/-! The family Memory, fourth part: zero-fill replaces growth (R52). What an access answers in a core it
answers in a core with more cells, unless it is `AddressRange`; so a step that does not record `AddressRange`
is the same step there. -/

namespace Sys2Proof.Machine

/-! ### Accesses -/

theorem addressFaults_grown {M : Nat} {s : State} {a : Int} {c : Cause} (hc : c ≠ .addressRange)
    (h : AddressFaults s a c) : AddressFaults (grown M s) a c :=
  .inl (h.resolve_right fun ⟨_, _, hrange⟩ => hc hrange)

theorem readFaults_grown {M : Nat} {s : State} {o : Operand} {c : Cause} {v : Int} (hc : c ≠ .addressRange)
    (h : ReadFaults s o c v) : ReadFaults (grown M s) o c v :=
  ⟨h.1, addressFaults_grown hc h.2⟩

theorem writeFaults_grown {M : Nat} {s : State} {d : Dest} {c : Cause} {v : Int} (hc : c ≠ .addressRange)
    (h : WriteFaults s d c v) : WriteFaults (grown M s) d c v :=
  ⟨h.1, addressFaults_grown hc h.2⟩

section
variable {M : Nat} {s : State} (hM : s.cfg.memCells ≤ M)
include hM

theorem inRange_grown {a : Int} (h : InRange s a) : InRange (grown M s) a :=
  ⟨h.1, h.2.trans_le (by exact_mod_cast hM)⟩

theorem readsAs_grown {o : Operand} {x : Word} (h : ReadsAs s o x) : ReadsAs (grown M s) o x :=
  h.imp_right fun ⟨a, ha, hin, hx⟩ => ⟨a, ha, inRange_grown hM hin, hx⟩

theorem writesTo_grown {d : Dest} {n : Nat} (h : WritesTo s d n) : WritesTo (grown M s) d n :=
  ⟨h.1, h.2.trans_le hM⟩

/-! ### The fetch -/

theorem fetch_grown_ok {i : Instr} (h : fetch s = .ok i) : fetch (grown M s) = .ok i := by
  obtain ⟨hip, shape, hd, hk, rfl⟩ := fetch_eq_ok.mp h
  exact fetch_eq_ok.mpr ⟨inRange_grown hM hip, shape, hd, fun k hlt => inRange_grown hM (hk k hlt), rfl⟩

theorem fetchCells_grown_error {n : Nat} {a : Int} {e : Raise} (hc : e.cause ≠ .addressRange)
    (h : fetchCells s a n = .error e) : fetchCells (grown M s) a n = .error e := by
  obtain ⟨k, hk, hbefore, hf, hv⟩ := fetchCells_eq_error.mp h
  exact fetchCells_eq_error.mpr
    ⟨k, hk, fun j hj => inRange_grown hM (hbefore j hj), addressFaults_grown hc hf, hv⟩

theorem fetch_grown_error {e : Raise} (hc : e.cause ≠ .addressRange) (h : fetch s = .error e) :
    fetch (grown M s) = .error e := by
  rcases fetch_eq_error.mp h with ⟨hf, hv⟩ | ⟨hip, hdecode | ⟨shape, hd, hcells⟩⟩
  · exact fetch_eq_error.mpr (.inl ⟨addressFaults_grown hc hf, hv⟩)
  · exact fetch_eq_error.mpr (.inr ⟨inRange_grown hM hip, .inl hdecode⟩)
  · exact fetch_eq_error.mpr
      (.inr ⟨inRange_grown hM hip, .inr ⟨shape, hd, fetchCells_grown_error hM hc hcells⟩⟩)

/-! ### The instruction -/

theorem commits_grown {t : State} {i : Instr} (h : Commits s i t) :
    Commits (grown M s) i (grown M t) := by
  cases h with
  | add ha hb hd hr => exact .add (readsAs_grown hM ha) (readsAs_grown hM hb) (writesTo_grown hM hd) hr
  | mul ha hb hd hr => exact .mul (readsAs_grown hM ha) (readsAs_grown hM hb) (writesTo_grown hM hd) hr
  | lessThan ha hb hd => exact .lessThan (readsAs_grown hM ha) (readsAs_grown hM hb) (writesTo_grown hM hd)
  | equals ha hb hd => exact .equals (readsAs_grown hM ha) (readsAs_grown hM hb) (writesTo_grown hM hd)
  | input hd hq => exact .input (writesTo_grown hM hd) hq
  | output ha => exact .output (readsAs_grown hM ha)
  | jumpIfTrueTaken ha hx hb => exact .jumpIfTrueTaken (readsAs_grown hM ha) hx (readsAs_grown hM hb)
  | jumpIfTrueNot ha hx => exact .jumpIfTrueNot (readsAs_grown hM ha) hx
  | jumpIfFalseTaken ha hx hb => exact .jumpIfFalseTaken (readsAs_grown hM ha) hx (readsAs_grown hM hb)
  | jumpIfFalseNot ha hx => exact .jumpIfFalseNot (readsAs_grown hM ha) hx
  | adjustRelativeBase ha hr => exact .adjustRelativeBase (readsAs_grown hM ha) hr
  | halt => exact .halt

theorem operandFault_grown {i : Instr} {c : Cause} {v : Int} (hc : c ≠ .addressRange)
    (h : OperandFault s i c v) : OperandFault (grown M s) i c v := by
  cases i with
  | add a b d u | mul a b d u | lessThan a b d u | equals a b d u =>
    exact h.imp (readFaults_grown hc) fun ⟨x, hx, h⟩ => ⟨x, readsAs_grown hM hx,
      h.imp (readFaults_grown hc) fun ⟨y, hy, h⟩ => ⟨y, readsAs_grown hM hy, writeFaults_grown hc h⟩⟩
  | jumpIfTrue a b u | jumpIfFalse a b u =>
    exact h.imp (readFaults_grown hc) fun ⟨x, hx, hp, h⟩ =>
      ⟨x, readsAs_grown hM hx, hp, readFaults_grown hc h⟩
  | input d u => exact writeFaults_grown hc h
  | output a u | adjustRelativeBase a u => exact readFaults_grown hc h
  | halt u => exact h.elim

theorem overflows_grown {i : Instr} {e : Raise} (h : Overflows s i e) : Overflows (grown M s) i e := by
  cases h with
  | add ha hb hd he => exact .add (readsAs_grown hM ha) (readsAs_grown hM hb) (writesTo_grown hM hd) he
  | mul ha hb hd he => exact .mul (readsAs_grown hM ha) (readsAs_grown hM hb) (writesTo_grown hM hd) he
  | adjustRelativeBase ha he => exact .adjustRelativeBase (readsAs_grown hM ha) he

theorem stalls_grown {i : Instr} (h : Stalls s i) : Stalls (grown M s) i := by
  obtain ⟨a, u, d, rfl, hd, hq⟩ := h
  exact ⟨a, u, d, rfl, writesTo_grown hM hd, hq⟩

/-- An instruction that does not record `AddressRange` does the same in a larger memory. -/
theorem exec_grown {t : State} {i : Instr} (h : exec i s = .next t) (hc : t.cause ≠ .addressRange) :
    exec i (grown M s) = .next (grown M t) := by
  rcases exec_eq_next_iff.mp h with hcommit | ⟨rfl, hst⟩ | ⟨e, hf, rfl⟩
  · exact exec_of_commits (commits_grown hM hcommit)
  · exact exec_of_stalls (stalls_grown hM hst)
  · exact exec_of_faults (hf.imp (operandFault_grown hM hc) (overflows_grown hM))

/-! ### The step -/

/-- A step that does not record `AddressRange` is the same step in a larger memory. -/
theorem stepState_grown (hc : (stepState s).cause ≠ .addressRange) :
    stepState (grown M s) = grown M (stepState s) := by
  refine stepState_eq ?_
  have h : step s = .next (stepState s) := step_stepState s
  generalize stepState s = t at h hc
  rcases step_eq_next h with ⟨hr, rfl⟩ | ⟨hr, ⟨e, hf, -, rfl⟩ | ⟨i, hf, hx, -⟩⟩
  · exact step_of_not_running hr
  · exact step_of_fetch_error hr (fetch_grown_error hM hc hf)
  · rw [step_of_fetch_ok (s := grown M s) hr (fetch_grown_ok hM hf)]
    exact exec_grown hM hx hc

end

theorem stepState_cfg (s : State) : (stepState s).cfg = s.cfg :=
  (keepLastReadOnlyByInput.2 s _ (step_stepState s)).2

/-- A recorded fault stays (R163). -/
theorem stepState_of_faulted {s : State} (h : s.cause ≠ .none) : stepState s = s :=
  stepState_eq (step_of_not_running fun hr => h hr.2)

/-- Settles O42, by induction on the number of steps: `AddressRange` once recorded stays, so no step before
the last has recorded it. -/
theorem largerMemoryRunsTheSame : Obligations.LargerMemoryRunsTheSame := by
  intro M n s hM hc
  induction n with
  | zero => rfl
  | succ n ih =>
    rw [Function.iterate_succ_apply'] at hc
    have hbefore : (stepState^[n] s).cause ≠ .addressRange := fun hf => by
      rw [stepState_of_faulted (by rw [hf]; exact Cause.noConfusion)] at hc
      exact hc hf
    have hcells : (stepState^[n] s).cfg.memCells ≤ M :=
      iterate_keeps (P := fun u => u.cfg.memCells ≤ M)
        (fun u hu => (congrArg Config.memCells (stepState_cfg u)).trans_le hu) n s hM
    rw [Function.iterate_succ_apply', Function.iterate_succ_apply', ih hbefore]
    exact stepState_grown hcells hc

end Sys2Proof.Machine
end

section
/-! The family Encoding, first part: decode and encode are inverse (rules R80 to R89, R93). A format's decoder
accepts a number exactly when its decimals above the opcode are mode digits and unused digits, so a number that
decodes is the opcode cell's value of what it decodes to. -/

namespace Sys2Proof.Machine

/-! ### Filling in operand cells -/

@[simp] theorem opcode_fill (i : Instr) (ws : List Word) : (i.fill ws).opcode = i.opcode := by
  cases i <;> rfl

@[simp] theorem modeDigits_fill (i : Instr) (ws : List Word) : (i.fill ws).modeDigits = i.modeDigits := by
  cases i <;> rfl

@[simp] theorem opcellValue_fill (i : Instr) (ws : List Word) : (i.fill ws).opcellValue = i.opcellValue := by
  cases i <;> rfl

@[simp] theorem unused_fill (i : Instr) (ws : List Word) : (i.fill ws).unused = i.unused := by
  cases i <;> rfl

@[simp] theorem fill_fill (i : Instr) (ws vs : List Word) : (i.fill ws).fill vs = i.fill vs := by
  cases i <;> rfl

@[simp] theorem fill_raws (i : Instr) : i.fill i.raws = i := by cases i <;> rfl

@[simp] theorem length_raws (i : Instr) : i.raws.length = i.operandCount := by cases i <;> rfl

@[simp] theorem opcell_fill (i : Instr) (ws : List Word) : (i.fill ws).opcell = i.opcell :=
  congrArg (BitVec.ofNat 64) (opcellValue_fill i ws)

theorem raws_fill {i : Instr} {ws : List Word} (h : ws.length = i.operandCount) :
    (i.fill ws).raws = ws := by
  cases i with
  | add | mul | lessThan | equals => obtain ⟨x, y, z, rfl⟩ := List.length_eq_three.mp h; rfl
  | jumpIfTrue | jumpIfFalse => obtain ⟨x, y, rfl⟩ := List.length_eq_two.mp h; rfl
  | input | output | adjustRelativeBase => obtain ⟨x, rfl⟩ := List.length_eq_one_iff.mp h; rfl
  | halt => exact (List.length_eq_zero_iff.mp h).symm

theorem wf_iff {strict : Bool} {i : Instr} :
    i.wf strict = true ↔ i.opcellFits = true ∧ (strict = true → i.unused = 0) := by
  cases strict <;> simp [Instr.wf, Instr.unusedZero]

@[simp] theorem wf_fill (strict : Bool) (i : Instr) (ws : List Word) :
    (i.fill ws).wf strict = i.wf strict := by
  simp [Instr.wf, Instr.unusedZero, Instr.opcellFits]

/-! ### What each format accepts (R80) -/

theorem decodeF3_eq_ok {mk : Operand → Operand → Dest → Nat → Instr} {strict : Bool} {v : Nat} {i : Instr} :
    decodeF3 mk strict v = .ok i ↔ ∃ (m1 m2 : Mode) (m3 : DestMode) (u : Nat),
      v / 100 = m1.code + 10 * m2.code + 100 * m3.code + 1000 * u ∧ (strict = true → u = 0) ∧
        i = mk m1.pending m2.pending m3.pending u := by
  simp only [decodeF3, bind_eq_ok, modeOf_eq_ok, destModeOf_eq_ok, unusedOf_eq_ok, pure_eq_ok,
    Except.ok.injEq, digit]
  constructor
  · rintro ⟨m1, h1, m2, h2, m3, h3, u, ⟨hu, rfl⟩, rfl⟩
    exact ⟨m1, m2, m3, _, by omega, hu, rfl⟩
  · rintro ⟨m1, m2, m3, u, hv, hu, rfl⟩
    have hm1 := m1.code_le
    have hm2 := m2.code_le
    have hm3 := m3.code_cases
    obtain rfl : u = v / 100000 := by omega
    exact ⟨m1, by omega, m2, by omega, m3, by omega, _, ⟨hu, rfl⟩, rfl⟩

theorem decodeF2R_eq_ok {mk : Operand → Operand → Nat → Instr} {strict : Bool} {v : Nat} {i : Instr} :
    decodeF2R mk strict v = .ok i ↔ ∃ (m1 m2 : Mode) (u : Nat),
      v / 100 = m1.code + 10 * m2.code + 100 * u ∧ (strict = true → u = 0) ∧
        i = mk m1.pending m2.pending u := by
  simp only [decodeF2R, bind_eq_ok, modeOf_eq_ok, unusedOf_eq_ok, pure_eq_ok, Except.ok.injEq, digit]
  constructor
  · rintro ⟨m1, h1, m2, h2, u, ⟨hu, rfl⟩, rfl⟩
    exact ⟨m1, m2, _, by omega, hu, rfl⟩
  · rintro ⟨m1, m2, u, hv, hu, rfl⟩
    have hm1 := m1.code_le
    have hm2 := m2.code_le
    obtain rfl : u = v / 10000 := by omega
    exact ⟨m1, by omega, m2, by omega, _, ⟨hu, rfl⟩, rfl⟩

theorem decodeF1R_eq_ok {mk : Operand → Nat → Instr} {strict : Bool} {v : Nat} {i : Instr} :
    decodeF1R mk strict v = .ok i ↔ ∃ (m1 : Mode) (u : Nat),
      v / 100 = m1.code + 10 * u ∧ (strict = true → u = 0) ∧ i = mk m1.pending u := by
  simp only [decodeF1R, bind_eq_ok, modeOf_eq_ok, unusedOf_eq_ok, pure_eq_ok, Except.ok.injEq, digit]
  constructor
  · rintro ⟨m1, h1, u, ⟨hu, rfl⟩, rfl⟩
    exact ⟨m1, _, by omega, hu, rfl⟩
  · rintro ⟨m1, u, hv, hu, rfl⟩
    have hm1 := m1.code_le
    obtain rfl : u = v / 1000 := by omega
    exact ⟨m1, by omega, _, ⟨hu, rfl⟩, rfl⟩

theorem decodeF1W_eq_ok {mk : Dest → Nat → Instr} {strict : Bool} {v : Nat} {i : Instr} :
    decodeF1W mk strict v = .ok i ↔ ∃ (m1 : DestMode) (u : Nat),
      v / 100 = m1.code + 10 * u ∧ (strict = true → u = 0) ∧ i = mk m1.pending u := by
  simp only [decodeF1W, bind_eq_ok, destModeOf_eq_ok, unusedOf_eq_ok, pure_eq_ok, Except.ok.injEq, digit]
  constructor
  · rintro ⟨m1, h1, u, ⟨hu, rfl⟩, rfl⟩
    exact ⟨m1, _, by omega, hu, rfl⟩
  · rintro ⟨m1, u, hv, hu, rfl⟩
    have hm1 := m1.code_cases
    obtain rfl : u = v / 1000 := by omega
    exact ⟨m1, by omega, _, ⟨hu, rfl⟩, rfl⟩

theorem decodeF0_eq_ok {mk : Nat → Instr} {strict : Bool} {v : Nat} {i : Instr} :
    decodeF0 mk strict v = .ok i ↔
      ∃ u : Nat, v / 100 = u ∧ (strict = true → u = 0) ∧ i = mk u := by
  simp only [decodeF0, bind_eq_ok, unusedOf_eq_ok, pure_eq_ok, Except.ok.injEq]
  constructor
  · rintro ⟨u, ⟨hu, rfl⟩, rfl⟩
    exact ⟨_, rfl, hu, rfl⟩
  · rintro ⟨u, rfl, hu, rfl⟩
    exact ⟨_, ⟨hu, rfl⟩, rfl⟩

/-! ### The opcode cell -/

/-- The opcode cell's value, above its two lowest digits (R80, R86). -/
theorem opcellValue_div (i : Instr) :
    i.opcellValue / 100 = i.modeDigits + 10 ^ i.operandCount * i.unused := by
  have hop := opcellValue_mod i
  have hpow : 10 ^ (i.operandCount + 2) * i.unused = 100 * (10 ^ i.operandCount * i.unused) := by ring
  have hvalue : i.opcellValue = i.opcode + 100 * i.modeDigits + 10 ^ (i.operandCount + 2) * i.unused := rfl
  omega

theorem eq_opcellValue {i : Instr} {v : Nat} (hop : v % 100 = i.opcode)
    (hdiv : v / 100 = i.modeDigits + 10 ^ i.operandCount * i.unused) : v = i.opcellValue := by
  have hmod := opcellValue_mod i
  have hquot := opcellValue_div i
  omega

/-- The decoder accepts the opcode cell's value of every instruction, legal digits being given by its type
(R85, R93). -/
theorem decodeDigits_opcellValue {strict : Bool} {i : Instr} (hu : strict = true → i.unused = 0) :
    decodeDigits strict i.opcellValue = .ok (i.fill []) := by
  have hdiv := opcellValue_div i
  rw [decodeDigits, opcellValue_mod]
  cases i with
  | add a b c u | mul a b c u | lessThan a b c u | equals a b c u =>
    exact decodeF3_eq_ok.mpr ⟨a.mode, b.mode, c.mode, u, hdiv, hu, rfl⟩
  | jumpIfTrue a b u | jumpIfFalse a b u =>
    exact decodeF2R_eq_ok.mpr ⟨a.mode, b.mode, u, hdiv, hu, rfl⟩
  | output a u | adjustRelativeBase a u => exact decodeF1R_eq_ok.mpr ⟨a.mode, u, hdiv, hu, rfl⟩
  | input a u => exact decodeF1W_eq_ok.mpr ⟨a.mode, u, hdiv, hu, rfl⟩
  | halt u =>
    exact decodeF0_eq_ok.mpr
      ⟨u, hdiv.trans (by simp [Instr.modeDigits, Instr.operandCount, Instr.unused]), hu, rfl⟩

/-- What the decoder accepts is the opcode cell's value of what it answers: no digit is lost (R86, R89). -/
theorem opcellValue_of_decodeDigits {strict : Bool} {v : Nat} {i : Instr} (h : decodeDigits strict v = .ok i) :
    v = i.opcellValue ∧ (strict = true → i.unused = 0) := by
  unfold decodeDigits at h
  split at h
  case h_1 hop | h_2 hop | h_7 hop | h_8 hop =>
    obtain ⟨m1, m2, m3, u, hv, hu, rfl⟩ := decodeF3_eq_ok.mp h
    exact ⟨eq_opcellValue hop hv, hu⟩
  case h_3 hop =>
    obtain ⟨m1, u, hv, hu, rfl⟩ := decodeF1W_eq_ok.mp h
    exact ⟨eq_opcellValue hop hv, hu⟩
  case h_4 hop | h_9 hop =>
    obtain ⟨m1, u, hv, hu, rfl⟩ := decodeF1R_eq_ok.mp h
    exact ⟨eq_opcellValue hop hv, hu⟩
  case h_5 hop | h_6 hop =>
    obtain ⟨m1, m2, u, hv, hu, rfl⟩ := decodeF2R_eq_ok.mp h
    exact ⟨eq_opcellValue hop hv, hu⟩
  case h_10 hop =>
    obtain ⟨u, hv, hu, rfl⟩ := decodeF0_eq_ok.mp h
    exact ⟨eq_opcellValue hop (hv.trans (by simp [Instr.modeDigits, Instr.operandCount, Instr.unused])), hu⟩
  case h_11 => cases h

theorem decodeOpcell_of_neg {strict : Bool} {c : Word} (h : c.toInt < 0) :
    decodeOpcell strict c = .error .illegalOpcode := if_pos h

theorem decodeOpcell_of_nonneg {strict : Bool} {c : Word} (h : 0 ≤ c.toInt) :
    decodeOpcell strict c = decodeDigits strict c.toNat := if_neg h.not_gt

theorem decodeOpcell_opcell {strict : Bool} {i : Instr} (h : i.wf strict = true) :
    decodeOpcell strict i.opcell = .ok (i.fill []) := by
  obtain ⟨hfits, hu⟩ := wf_iff.mp h
  rw [decodeOpcell_of_nonneg (by rw [opcell_toInt hfits]; exact Int.natCast_nonneg _), opcell_toNat hfits]
  exact decodeDigits_opcellValue hu

/-- A legal opcode cell is not negative and is the opcode cell of the well-formed instruction it names. -/
theorem opcell_of_decodeOpcell {strict : Bool} {c : Word} {i : Instr} (h : decodeOpcell strict c = .ok i) :
    0 ≤ c.toInt ∧ c.toNat = i.opcellValue ∧ c = i.opcell ∧ i.wf strict = true := by
  by_cases hneg : c.toInt < 0
  · rw [decodeOpcell_of_neg hneg] at h; cases h
  · have hnonneg : 0 ≤ c.toInt := not_lt.mp hneg
    rw [decodeOpcell_of_nonneg hnonneg] at h
    obtain ⟨hv, hu⟩ := opcellValue_of_decodeDigits h
    have hfits : i.opcellFits = true := opcellFits_iff.mpr (hv ▸ (toInt_eq_toNat_of_nonneg hnonneg).2)
    exact ⟨hnonneg, hv, by simp [Instr.opcell, ← hv], wf_iff.mpr ⟨hfits, hu⟩⟩

/-! ### Lists of cells -/

/-- What a list of cells decodes to: the opcode cell's instruction with the cells behind it filled in (R89). -/
theorem decode_cons_eq_ok {strict : Bool} {c : Word} {cells rest : List Word} {i : Instr} :
    decode strict (c :: cells) = .ok (i, rest) ↔
      ∃ shape, decodeOpcell strict c = .ok shape ∧ shape.operandCount ≤ cells.length ∧
        i = shape.fill (cells.take shape.operandCount) ∧ rest = cells.drop shape.operandCount := by
  cases hd : decodeOpcell strict c with
  | error f => simp [decode, hd]
  | ok shape =>
    by_cases hlen : cells.length < shape.operandCount
    · simp [decode, hd, hlen]
    · simp [decode, hd, hlen, not_lt.mp hlen, eq_comm]

/-- Settles O1: the opcode cell gives the instruction without its operand cells, and they are filled in
again. -/
theorem decodeInvertsEncode : Obligations.DecodeInvertsEncode := by
  intro strict i rest h
  refine decode_cons_eq_ok.mpr ⟨i.fill [], decodeOpcell_opcell h, ?_⟩
  rw [operandCount_fill, fill_fill, ← length_raws]
  exact ⟨by simp, by simp, by simp⟩

/-- Settles O2: the opcode cell is the instruction's own, and the cells taken as operands are its raws. -/
theorem encodeInvertsDecode : Obligations.EncodeInvertsDecode := by
  intro strict cells i rest h
  cases cells with
  | nil => cases h
  | cons c cells =>
    obtain ⟨shape, hd, hlen, rfl, rfl⟩ := decode_cons_eq_ok.mp h
    obtain ⟨-, -, rfl, hwf⟩ := opcell_of_decodeOpcell hd
    refine ⟨?_, (wf_fill ..).trans hwf⟩
    rw [encode, opcell_fill, raws_fill (List.length_take_of_le hlen), List.cons_append, List.take_append_drop]

/-- Settles O3, by evaluation of the decoder on each list of cells. -/
theorem writtenOutCellsDecode : Obligations.WrittenOutCellsDecode :=
  ⟨rfl, rfl, rfl, rfl, rfl, rfl, rfl, rfl, rfl, rfl, rfl, rfl, rfl, rfl, rfl⟩

end Sys2Proof.Machine
end

section
/-! The family Encoding, second part: the closed opcode map, the order of the decode faults, and unused digits
(rules R82 to R86). -/

namespace Sys2Proof.Machine

/-! ### The order of the decode faults -/

/-- An opcode cell's value with an opcode of the map is refused as `f` (R85, R86): a bad mode digit, then an
immediate write operand, then an unused digit under `STRICT_DECODE`. -/
def RefusedAs (strict : Bool) (n : Nat) (w : Option Nat) (v : Nat) (f : DecodeFault) : Prop :=
  (BadModeDigit n v ∧ f = .illegalMode) ∨
    (¬ BadModeDigit n v ∧ ((ImmediateWriteDigit w v ∧ f = .immediateWrite) ∨
      (¬ ImmediateWriteDigit w v ∧ strict = true ∧ v / 10 ^ (n + 2) ≠ 0 ∧ f = .illegalMode)))

@[simp] theorem badModeDigit_zero (v : Nat) : ¬ BadModeDigit 0 v := by
  rintro ⟨k, hk, hk', -⟩
  omega

@[simp] theorem badModeDigit_succ (n v : Nat) :
    BadModeDigit (n + 1) v ↔ BadModeDigit n v ∨ 2 < digit (n + 2) v := by
  constructor
  · rintro ⟨k, hk, hk', hd⟩
    rcases Nat.le_succ_iff.mp hk' with hlt | rfl
    · exact .inl ⟨k, hk, hlt, hd⟩
    · exact .inr hd
  · rintro (⟨k, hk, hk', hd⟩ | hd)
    · exact ⟨k, hk, Nat.le_succ_of_le hk', hd⟩
    · exact ⟨n + 1, n.succ_pos, le_rfl, hd⟩

@[simp] theorem immediateWriteDigit_none (v : Nat) : ¬ ImmediateWriteDigit none v := by
  rintro ⟨k, hk, -⟩
  cases hk

@[simp] theorem immediateWriteDigit_some (k v : Nat) :
    ImmediateWriteDigit (some k) v ↔ digit (k + 1) v = 1 := by
  simp [ImmediateWriteDigit]

theorem exists_eq_modeCode {d : Nat} : (∃ m : Mode, d = m.code) ↔ ¬ 2 < d := by
  constructor
  · rintro ⟨m, rfl⟩
    exact m.code_le.not_gt
  · intro h
    interval_cases d
    exacts [⟨.position, rfl⟩, ⟨.immediate, rfl⟩, ⟨.relative, rfl⟩]

theorem exists_eq_destModeCode {d : Nat} : (∃ m : DestMode, d = m.code) ↔ d ≠ 1 ∧ ¬ 2 < d := by
  constructor
  · rintro ⟨m, rfl⟩
    cases m <;> decide
  · rintro ⟨h1, h2⟩
    interval_cases d
    exacts [⟨.position, rfl⟩, absurd rfl h1, ⟨.relative, rfl⟩]

/-! ### What each format refuses

The digits are read in ascending order and the write operand's is the last, so a bad digit is found before an
immediate write operand wherever the two stand (R85, R89). -/

theorem decodeF3_eq_error {mk : Operand → Operand → Dest → Nat → Instr} {strict : Bool} {v : Nat}
    {f : DecodeFault} : decodeF3 mk strict v = .error f ↔ RefusedAs strict 3 (some 3) v f := by
  simp only [decodeF3, bind_eq_error, modeOf_eq_ok, modeOf_eq_error, destModeOf_eq_ok, destModeOf_eq_error,
    unusedOf_eq_error, exists_and_right, exists_eq_modeCode, exists_eq_destModeCode, pure_eq_ok, reduceCtorEq,
    and_false, exists_false, or_false, RefusedAs, badModeDigit_succ, badModeDigit_zero,
    immediateWriteDigit_some]
  grind

theorem decodeF2R_eq_error {mk : Operand → Operand → Nat → Instr} {strict : Bool} {v : Nat}
    {f : DecodeFault} : decodeF2R mk strict v = .error f ↔ RefusedAs strict 2 none v f := by
  simp only [decodeF2R, bind_eq_error, modeOf_eq_ok, modeOf_eq_error, unusedOf_eq_error, exists_and_right,
    exists_eq_modeCode, pure_eq_ok, reduceCtorEq, and_false, exists_false, or_false, RefusedAs,
    badModeDigit_succ, badModeDigit_zero, immediateWriteDigit_none]
  grind

theorem decodeF1R_eq_error {mk : Operand → Nat → Instr} {strict : Bool} {v : Nat} {f : DecodeFault} :
    decodeF1R mk strict v = .error f ↔ RefusedAs strict 1 none v f := by
  simp [decodeF1R, bind_eq_error, modeOf_eq_ok, modeOf_eq_error, unusedOf_eq_error, exists_eq_modeCode,
    RefusedAs]

theorem decodeF1W_eq_error {mk : Dest → Nat → Instr} {strict : Bool} {v : Nat} {f : DecodeFault} :
    decodeF1W mk strict v = .error f ↔ RefusedAs strict 1 (some 1) v f := by
  simp only [decodeF1W, bind_eq_error, destModeOf_eq_ok, destModeOf_eq_error, unusedOf_eq_error,
    exists_and_right, exists_eq_destModeCode, pure_eq_ok, reduceCtorEq, and_false, exists_false, or_false,
    RefusedAs, badModeDigit_succ, badModeDigit_zero, immediateWriteDigit_some]
  grind

theorem decodeF0_eq_error {mk : Nat → Instr} {strict : Bool} {v : Nat} {f : DecodeFault} :
    decodeF0 mk strict v = .error f ↔ RefusedAs strict 0 none v f := by
  simp [decodeF0, bind_eq_error, unusedOf_eq_error, RefusedAs]

/-! ### The opcode map (R84) -/

theorem decodeDigits_of_not_mem {strict : Bool} {v : Nat} (h : ∀ e ∈ opcodeMap, v % 100 ≠ e.1) :
    decodeDigits strict v = .error .illegalOpcode := by
  simp only [opcodeMap, List.forall_mem_cons] at h
  unfold decodeDigits
  split
  case h_11 => rfl
  all_goals omega

theorem decodeDigits_eq_error {strict : Bool} {n v : Nat} {w : Option Nat} {f : DecodeFault}
    (h : (v % 100, n, w) ∈ opcodeMap) : decodeDigits strict v = .error f ↔ RefusedAs strict n w v f := by
  simp only [opcodeMap, List.mem_cons, Prod.mk.injEq, List.not_mem_nil, or_false] at h
  rcases h with ⟨hop, rfl, rfl⟩ | ⟨hop, rfl, rfl⟩ | ⟨hop, rfl, rfl⟩ | ⟨hop, rfl, rfl⟩ | ⟨hop, rfl, rfl⟩ |
    ⟨hop, rfl, rfl⟩ | ⟨hop, rfl, rfl⟩ | ⟨hop, rfl, rfl⟩ | ⟨hop, rfl, rfl⟩ | ⟨hop, rfl, rfl⟩ <;>
    rw [decodeDigits, hop]
  exacts [decodeF3_eq_error, decodeF3_eq_error, decodeF1W_eq_error, decodeF1R_eq_error, decodeF2R_eq_error,
    decodeF2R_eq_error, decodeF3_eq_error, decodeF3_eq_error, decodeF1R_eq_error, decodeF0_eq_error]

theorem opcodeMap_unique : ∀ e ∈ opcodeMap, ∀ e' ∈ opcodeMap, e.1 = e'.1 → e = e' := by decide

/-- Every instruction has a row in the map; its write operand, if it has one, is the last. -/
theorem row_mem_opcodeMap (i : Instr) :
    (i.opcode, i.operandCount, (destOf i).map fun _ => i.operandCount) ∈ opcodeMap := by
  cases i <;> simp [Instr.opcode, Instr.operandCount, destOf, opcodeMap]

theorem operandCount_of_mem {i : Instr} {n : Nat} {w : Option Nat} (h : (i.opcode, n, w) ∈ opcodeMap) :
    i.operandCount = n :=
  congrArg (fun e => e.2.1) (opcodeMap_unique _ (row_mem_opcodeMap i) _ h rfl)

/-! ### The fields of an opcode cell (R80, R86) -/

theorem opcellValue_div_pow (i : Instr) : i.opcellValue / 10 ^ (i.operandCount + 2) = i.unused := by
  have hpow : 10 ^ (i.operandCount + 2) = 100 * 10 ^ i.operandCount := by ring
  rw [hpow, ← Nat.div_div_eq_div_mul, opcellValue_div, Nat.add_mul_div_left _ _ (by positivity),
    Nat.div_eq_of_lt (modeDigits_lt i), zero_add]

theorem opcellValue_modeDigits (i : Instr) : i.opcellValue / 100 % 10 ^ i.operandCount = i.modeDigits := by
  rw [opcellValue_div, Nat.add_mul_mod_self_left, Nat.mod_eq_of_lt (modeDigits_lt i)]

theorem opcellValue_mod_pow (i : Instr) :
    i.opcellValue % 10 ^ (i.operandCount + 2) = i.opcode + 100 * i.modeDigits := by
  have hvalue : i.opcellValue = i.opcode + 100 * i.modeDigits + 10 ^ (i.operandCount + 2) * i.unused := rfl
  have hsplit := Nat.mod_add_div i.opcellValue (10 ^ (i.operandCount + 2))
  rw [opcellValue_div_pow] at hsplit
  omega

/-! ### The step at an opcode cell that is refused -/

theorem step_of_decode_error {s : State} {c : Word} {f : DecodeFault} (hr : Running s)
    (hc : CellAt s s.ip.toInt c) (hd : decodeOpcell s.cfg.strictDecode c = .error f) :
    step s = .next (takeFault s (decodeRaise c f)) := by
  obtain ⟨hin, rfl⟩ := hc
  exact step_of_fetch_error hr (fetch_eq_error.mpr (.inr ⟨hin, .inl ⟨f, hd, rfl⟩⟩))

/-- Settles O4: the map's row fixes the format, and the format's decoder refuses exactly as `RefusedAs` says. -/
theorem opcodeMapAndDecodeFaults : Obligations.OpcodeMapAndDecodeFaults := by
  intro s c hr hc
  refine ⟨fun h => ?_, fun n w hpos hrow => ?_⟩
  · refine step_of_decode_error (f := .illegalOpcode) hr hc ?_
    by_cases hneg : c.toInt < 0
    · exact decodeOpcell_of_neg hneg
    · rw [decodeOpcell_of_nonneg (not_lt.mp hneg)]
      exact decodeDigits_of_not_mem (h.resolve_left hneg)
  · have hdecode : decodeOpcell s.cfg.strictDecode c = decodeDigits s.cfg.strictDecode c.toNat :=
      decodeOpcell_of_nonneg hpos
    have refused : ∀ f, RefusedAs s.cfg.strictDecode n w c.toNat f →
        step s = .next (takeFault s (decodeRaise c f)) := fun f hf =>
      step_of_decode_error hr hc (hdecode.trans ((decodeDigits_eq_error hrow).mpr hf))
    refine ⟨fun hbad => refused .illegalMode (.inl ⟨hbad, rfl⟩),
      fun hbad himm => refused .immediateWrite (.inr ⟨hbad, .inl ⟨himm, rfl⟩⟩),
      fun hbad himm hstrict hu => refused .illegalMode (.inr ⟨hbad, .inr ⟨himm, hstrict, hu, rfl⟩⟩),
      fun hbad himm hu => ?_⟩
    cases hd : decodeDigits s.cfg.strictDecode c.toNat with
    | error f =>
      rcases (decodeDigits_eq_error hrow).mp hd with ⟨h, -⟩ | ⟨-, ⟨h, -⟩ | ⟨-, hstrict, h, -⟩⟩
      · exact absurd h hbad
      · exact absurd h himm
      · exact absurd (hu hstrict) h
    | ok i =>
      have hv : c.toNat = i.opcellValue := (opcellValue_of_decodeDigits hd).1
      have hop : i.opcode = c.toNat % 100 := by rw [hv, opcellValue_mod]
      obtain rfl : i.operandCount = n := operandCount_of_mem (hop ▸ hrow)
      exact ⟨i, hdecode.trans hd, hop, rfl, rfl, by rw [hv, opcellValue_modeDigits],
        by rw [hv, opcellValue_div_pow]⟩

/-! ### Unused digits (R86) -/

/-- The same instruction with other unused digits in its opcode cell. -/
def withUnused (u : Nat) : Instr → Instr
  | .add a b c _ => .add a b c u
  | .mul a b c _ => .mul a b c u
  | .input a _ => .input a u
  | .output a _ => .output a u
  | .jumpIfTrue a b _ => .jumpIfTrue a b u
  | .jumpIfFalse a b _ => .jumpIfFalse a b u
  | .lessThan a b c _ => .lessThan a b c u
  | .equals a b c _ => .equals a b c u
  | .adjustRelativeBase a _ => .adjustRelativeBase a u
  | .halt _ => .halt u

@[simp] theorem opcode_withUnused (u : Nat) (i : Instr) : (withUnused u i).opcode = i.opcode := by
  cases i <;> rfl

@[simp] theorem modeDigits_withUnused (u : Nat) (i : Instr) :
    (withUnused u i).modeDigits = i.modeDigits := by cases i <;> rfl

theorem opcellValue_withUnused (u : Nat) (i : Instr) :
    (withUnused u i).opcellValue = i.opcode + 100 * i.modeDigits + 10 ^ (i.operandCount + 2) * u := by
  cases i <;> rfl

/-- A number with the opcode and mode digits of an instruction decodes to it, with its own unused digits. -/
theorem decodeDigits_of_mod_eq {i : Instr} {v : Nat}
    (h : v % 10 ^ (i.operandCount + 2) = i.opcellValue % 10 ^ (i.operandCount + 2)) :
    decodeDigits false v = .ok ((withUnused (v / 10 ^ (i.operandCount + 2)) i).fill []) := by
  have hv : v = (withUnused (v / 10 ^ (i.operandCount + 2)) i).opcellValue := by
    rw [opcellValue_withUnused, ← opcellValue_mod_pow, ← h, Nat.mod_add_div]
  conv_lhs => rw [hv]
  exact decodeDigits_opcellValue nofun

/-- Under `STRICT_DECODE` a cell that decodes without it, and has a nonzero unused digit, is refused. -/
theorem decodeOpcell_strict_of_unused {c : Word} {i : Instr} (hd : decodeOpcell false c = .ok i)
    (hu : c.toNat / 10 ^ (i.operandCount + 2) ≠ 0) : decodeOpcell true c = .error .illegalMode := by
  obtain ⟨hpos, hv, -, -⟩ := opcell_of_decodeOpcell hd
  have hrow := row_mem_opcodeMap i
  rw [← opcellValue_mod, ← hv] at hrow
  rw [decodeOpcell_of_nonneg hpos] at hd ⊢
  have accepted : ∀ f, ¬ RefusedAs false _ _ c.toNat f := fun f hf => by
    rw [(decodeDigits_eq_error hrow).mpr hf] at hd
    cases hd
  have hbad : ¬ BadModeDigit _ c.toNat := fun h => accepted _ (.inl ⟨h, rfl⟩)
  have himm : ¬ ImmediateWriteDigit _ c.toNat := fun h => accepted _ (.inr ⟨hbad, .inl ⟨h, rfl⟩⟩)
  exact (decodeDigits_eq_error hrow).mpr (.inr ⟨hbad, .inr ⟨himm, rfl, hu, rfl⟩⟩)

/-! ### The 99 legal cells under `STRICT_DECODE` (R86) -/

theorem code_mem (m : Mode) : m.code ∈ [0, 1, 2] := by cases m <;> decide

theorem destCode_mem (m : DestMode) : m.code ∈ [0, 2] := by cases m <;> decide

theorem mem_strictLegalCells_F3 : ∀ op ∈ [1, 2, 7, 8], ∀ m1 ∈ [0, 1, 2], ∀ m2 ∈ [0, 1, 2], ∀ m3 ∈ [0, 2],
    op + 100 * (m1 + 10 * m2 + 100 * m3) ∈ strictLegalCells := by decide

theorem mem_strictLegalCells_F2R : ∀ op ∈ [5, 6], ∀ m1 ∈ [0, 1, 2], ∀ m2 ∈ [0, 1, 2],
    op + 100 * (m1 + 10 * m2) ∈ strictLegalCells := by decide

theorem mem_strictLegalCells_F1R : ∀ op ∈ [4, 9], ∀ m1 ∈ [0, 1, 2], op + 100 * m1 ∈ strictLegalCells := by decide

theorem mem_strictLegalCells_F1W : ∀ m1 ∈ [0, 2], 3 + 100 * m1 ∈ strictLegalCells := by decide

theorem mem_strictLegalCells_F0 : 99 ∈ strictLegalCells := by decide

theorem opcellValue_mem_strictLegalCells {i : Instr} (h : i.unused = 0) :
    i.opcellValue ∈ strictLegalCells := by
  have hvalue : i.opcellValue = i.opcode + 100 * i.modeDigits := by simp [Instr.opcellValue, h]
  rw [hvalue]
  cases i with
  | add a b c | mul a b c | lessThan a b c | equals a b c =>
    exact mem_strictLegalCells_F3 _ (by simp [Instr.opcode]) _ (code_mem a.mode) _ (code_mem b.mode)
      _ (destCode_mem c.mode)
  | jumpIfTrue a b | jumpIfFalse a b =>
    exact mem_strictLegalCells_F2R _ (by simp [Instr.opcode]) _ (code_mem a.mode) _ (code_mem b.mode)
  | output a | adjustRelativeBase a =>
    exact mem_strictLegalCells_F1R _ (by simp [Instr.opcode]) _ (code_mem a.mode)
  | input a => exact mem_strictLegalCells_F1W _ (destCode_mem a.mode)
  | halt => exact mem_strictLegalCells_F0

theorem decodeDigits_of_strictLegal : ∀ v ∈ strictLegalCells,
    v < 9223372036854775808 ∧ (decodeDigits true v).isOk = true := by decide

theorem decodeOpcell_strict_iff (c : Word) :
    (∃ i, decodeOpcell true c = .ok i) ↔ c.toNat ∈ strictLegalCells := by
  constructor
  · rintro ⟨i, hd⟩
    obtain ⟨-, hv, -, hwf⟩ := opcell_of_decodeOpcell hd
    exact hv ▸ opcellValue_mem_strictLegalCells ((wf_iff.mp hwf).2 rfl)
  · intro hmem
    obtain ⟨hlt, hok⟩ := decodeDigits_of_strictLegal _ hmem
    have hpos : 0 ≤ c.toInt := by rw [BitVec.toInt_eq_toNat_cond, if_pos (by omega)]; omega
    rw [decodeOpcell_of_nonneg hpos]
    cases hd : decodeDigits true c.toNat with
    | ok i => exact ⟨i, rfl⟩
    | error f => rw [hd] at hok; cases hok

/-- Settles O5: the mode digits are read alike, the strict decoder's last check is the one that refuses, and the
legal cells are the opcode cells without unused digits. -/
theorem unusedDigitsAndStrictCells : Obligations.UnusedDigitsAndStrictCells := by
  refine ⟨fun c d i hd hpos hmod => ?_, fun s c i hr hc hstrict hd hu => ?_, decodeOpcell_strict_iff, rfl⟩
  · obtain ⟨-, hv, -, -⟩ := opcell_of_decodeOpcell hd
    rw [hv] at hmod
    exact ⟨_, (decodeOpcell_of_nonneg hpos).trans (decodeDigits_of_mod_eq hmod), by simp, by simp⟩
  · exact step_of_decode_error (f := .illegalMode) hr hc
      (by rw [hstrict]; exact decodeOpcell_strict_of_unused hd hu)

end Sys2Proof.Machine
end

section
/-! The family Encoding, third part: fetch and operand fetch (rules R81, R83), the step at cells that decode
(R89), and the pseudo-instruction `jmp` (R94). -/

namespace Sys2Proof.Machine

/-! ### The cells in memory -/

theorem cellsFrom_succ (s : State) (a n : Nat) :
    cellsFrom s a (n + 1) = s.mem.read a :: cellsFrom s (a + 1) n := by
  simp [cellsFrom, List.range_succ_eq_map, Nat.add_assoc, Nat.add_comm 1]

theorem take_cellsFrom (s : State) (a : Nat) {m n : Nat} (h : n ≤ m) :
    (cellsFrom s a m).take n = cellsFrom s a n := by
  rw [cellsFrom, cellsFrom, ← List.map_take, List.take_range, min_eq_left h]

/-! ### Fetch and operand fetch -/

theorem step_of_fetch_address {s : State} {e : Cause} (hr : Running s) (h : AddressFaults s s.ip.toInt e) :
    step s = .next (faultedFrom s e s.ip.toInt) :=
  step_of_fetch_error (e := ⟨e, s.ip.toInt⟩) hr (fetch_eq_error.mpr (.inl ⟨h, rfl⟩))

/-- The first operand cell that does not exist is the one whose address faults (R83). -/
theorem step_of_missing_operand {s : State} {c : Word} {i : Instr} {k : Nat} (hr : Running s)
    (hc : CellAt s s.ip.toInt c) (hd : decodeOpcell s.cfg.strictDecode c = .ok i) (hk : 1 ≤ k)
    (hk' : k ≤ i.operandCount) (hbefore : ∀ j : Nat, 1 ≤ j → j < k → s.ip.toInt + j < s.cfg.memCells)
    (hmissing : (s.cfg.memCells : Int) ≤ s.ip.toInt + k) :
    step s = .next (faultedFrom s .addressRange (s.ip.toInt + k)) := by
  obtain ⟨hin, rfl⟩ := hc
  obtain ⟨k, rfl⟩ := Nat.exists_eq_add_of_le' hk
  have hip : 0 ≤ s.ip.toInt := hin.1
  have hshift : ∀ j : Nat, s.ip.toInt + 1 + j = s.ip.toInt + (j + 1 : Nat) := fun j => by push_cast; ring
  refine step_of_fetch_error (e := ⟨.addressRange, s.ip.toInt + (k + 1 : Nat)⟩) hr
    (fetch_eq_error.mpr (.inr ⟨hin, .inr ⟨i, hd, fetchCells_eq_error.mpr ⟨k, hk', fun j hj => ?_, ?_, ?_⟩⟩⟩))
  · exact ⟨by omega, hshift j ▸ hbefore (j + 1) j.succ_pos (by omega)⟩
  · exact .inr ⟨hshift k ▸ hmissing, by omega, rfl⟩
  · exact (hshift k).symm

/-- The fetched operands are the cells behind the opcode cell, in ascending order (R83). -/
theorem fetch_of_cells {s : State} {c : Word} {i : Instr} (hc : CellAt s s.ip.toInt c)
    (hd : decodeOpcell s.cfg.strictDecode c = .ok i) (hlast : s.ip.toInt + i.operandCount < s.cfg.memCells) :
    fetch s = .ok (i.fill (cellsFrom s (s.ip.toInt.toNat + 1) i.operandCount)) := by
  obtain ⟨hin, rfl⟩ := hc
  have hip : 0 ≤ s.ip.toInt := hin.1
  refine fetch_eq_ok.mpr ⟨hin, i, hd, fun k hk => ⟨by omega, by omega⟩, ?_⟩
  have haddr : ∀ k : Nat, (s.ip.toInt + 1 + k).toNat = s.ip.toInt.toNat + 1 + k := fun k => by omega
  simp only [cellsFrom, haddr]

/-- Settles O7: by the address of the opcode cell, then of the first operand cell that does not exist. -/
theorem fetchRule : Obligations.FetchRule := by
  intro s hr
  refine ⟨fun hneg => step_of_fetch_address hr (addressFaults_of_neg s hneg), fun hge => ?_,
    fun hinv hbeyond hlt => ?_, fun c i hc hd =>
      ⟨fun k hk hk' => step_of_missing_operand hr hc hd hk hk', fetch_of_cells hc hd⟩⟩
  · exact step_of_fetch_address hr (.inr ⟨hge, by omega, rfl⟩)
  · have hzero : CellAt s s.ip.toInt 0 := ⟨⟨by omega, hlt⟩, hinv.zeroBeyond _ (by omega)⟩
    refine step_of_decode_error (f := .illegalOpcode) hr hzero ?_
    exact (decodeOpcell_of_nonneg (by decide)).trans (decodeDigits_of_not_mem (by decide))

/-- Settles O25: four cells hold the longest instruction, so its operand cells are the first of those behind the
opcode cell. -/
theorem stepRunsTheDecodedInstruction : Obligations.StepRunsTheDecodedInstruction := by
  intro s i rest hr hin hlast hdecode
  rw [cellsFrom_succ] at hdecode
  obtain ⟨shape, hd, hlen, rfl, -⟩ := decode_cons_eq_ok.mp hdecode
  rw [operandCount_fill] at hlast
  rw [take_cellsFrom _ _ (by simpa [cellsFrom] using hlen)]
  exact step_of_fetch_ok hr (fetch_of_cells ⟨hin, rfl⟩ hd hlast)

/-- Settles O59: the condition is the immediate 1, so the jump is taken wherever its target can be read. -/
theorem jmpIsUnconditional : Obligations.JmpIsUnconditional := by
  refine fun o => ⟨rfl, rfl, fun s t ht => ⟨_, exec_of_commits (.jumpIfTrueTaken (x := 1) ?_ ?_ ht), rfl, rfl⟩⟩
  · exact .inl ⟨rfl, rfl⟩
  · decide

end Sys2Proof.Machine
end

section
/-! The family Encoding, fourth part: the assembler's encoding of an instruction (rules R92, R93). -/

namespace Sys2Proof.Machine

/-- The mode digit of operand `k + 1`, 0 where it is absent (R93). -/
def modeDigitAt (os : List Operand) (k : Nat) : Nat := (os[k]?.map fun (o : Operand) => o.mode.code).getD 0

theorem toDest_eq_some {o : Operand} {d : Dest} :
    Operand.toDest o = some d ↔ o.mode.code = d.mode.code ∧ o.raw = d.raw := by
  obtain ⟨m, r⟩ := o
  obtain ⟨m', r'⟩ := d
  cases m <;> cases m' <;> simp [Operand.toDest, Mode.code, DestMode.code]

theorem exists_toDest {o : Operand} (h : o.mode ≠ .immediate) : ∃ d, Operand.toDest o = some d := by
  obtain ⟨m, r⟩ := o
  cases m with
  | position | relative => exact ⟨_, rfl⟩
  | immediate => exact absurd rfl h

/-- What the assembler builds: the opcode asked for, no unused digits, and the operands' modes and raw cells in
order (R93). -/
theorem fields_of_instrOf {op : Nat} {os : List Operand} {i : Instr} (h : instrOf op os = some i) :
    i.opcode = op ∧ i.unused = 0 ∧ i.raws = os.map (fun (o : Operand) => o.raw) ∧
      i.modeDigits = modeDigitAt os 0 + 10 * modeDigitAt os 1 + 100 * modeDigitAt os 2 := by
  unfold instrOf at h
  split at h
  case h_1 | h_2 | h_3 | h_7 | h_8 =>
    obtain ⟨d, hd, rfl⟩ := Option.map_eq_some_iff.mp h
    obtain ⟨hmode, hraw⟩ := toDest_eq_some.mp hd
    exact ⟨rfl, rfl, by simp [Instr.raws, hraw], by simp [Instr.modeDigits, modeDigitAt, hmode]⟩
  case h_4 | h_5 | h_6 | h_9 | h_10 =>
    cases h
    exact ⟨rfl, rfl, rfl, by simp [Instr.modeDigits, modeDigitAt]⟩
  case h_11 => cases h

/-- Without unused digits the opcode cell has at most five digits. -/
theorem wf_of_unused_eq_zero {strict : Bool} {i : Instr} (h : i.unused = 0) : i.wf strict = true := by
  refine wf_iff.mpr ⟨opcellFits_iff.mpr ?_, fun _ => h⟩
  have hcount : i.operandCount ≤ 3 := Nat.le_of_add_le_add_left (Laws.Cells.width_le i)
  have hlt : i.modeDigits < 10 ^ 3 := (modeDigits_lt i).trans_le (Nat.pow_le_pow_right (by decide) hcount)
  have hop := opcellValue_mod i
  have hdiv := opcellValue_div i
  rw [h] at hdiv
  omega

theorem encode_of_instrOf {op : Nat} {os : List Operand} {i : Instr} (h : instrOf op os = some i) :
    encode i = BitVec.ofNat 64 (op + 100 * modeDigitAt os 0 + 1000 * modeDigitAt os 1 +
      10000 * modeDigitAt os 2) :: os.map fun (o : Operand) => o.raw := by
  obtain ⟨hop, hu, hraws, hmodes⟩ := fields_of_instrOf h
  have hvalue : i.opcellValue = op + 100 * modeDigitAt os 0 + 1000 * modeDigitAt os 1 +
      10000 * modeDigitAt os 2 := by
    rw [Instr.opcellValue, hop, hu, hmodes]
    ring
  rw [encode, Instr.opcell, hraws, hvalue]

/-- The rows of the map by format (R80, R84). -/
theorem format_of_mem_opcodeMap : ∀ e ∈ opcodeMap,
    ((e.1 = 1 ∨ e.1 = 2 ∨ e.1 = 7 ∨ e.1 = 8) ∧ e.2 = (3, some 3)) ∨ e = (3, 1, some 1) ∨
      ((e.1 = 4 ∨ e.1 = 9) ∧ e.2 = (1, none)) ∨ ((e.1 = 5 ∨ e.1 = 6) ∧ e.2 = (2, none)) ∨
        e = (99, 0, none) := by decide

/-- The assembler builds every row of the map (R93). -/
theorem exists_instrOf {op n : Nat} {w : Option Nat} {os : List Operand} (hrow : (op, n, w) ∈ opcodeMap)
    (hlen : os.length = n)
    (hw : ∀ (k : Nat) (o : Operand), w = some (k + 1) → os[k]? = some o → o.mode ≠ .immediate) :
    ∃ i, instrOf op os = some i := by
  rcases format_of_mem_opcodeMap _ hrow with ⟨hop, ⟨⟩⟩ | ⟨⟨⟩⟩ | ⟨hop, ⟨⟩⟩ | ⟨hop, ⟨⟩⟩ | ⟨⟨⟩⟩
  · obtain ⟨a, b, c, rfl⟩ := List.length_eq_three.mp hlen
    obtain ⟨d, hd⟩ := exists_toDest (hw 2 c rfl rfl)
    rcases hop with rfl | rfl | rfl | rfl <;> exact ⟨_, congrArg (Option.map _) hd⟩
  · obtain ⟨a, rfl⟩ := List.length_eq_one_iff.mp hlen
    obtain ⟨d, hd⟩ := exists_toDest (hw 0 a rfl rfl)
    exact ⟨_, congrArg (Option.map _) hd⟩
  · obtain ⟨a, rfl⟩ := List.length_eq_one_iff.mp hlen
    rcases hop with rfl | rfl <;> exact ⟨_, rfl⟩
  · obtain ⟨a, b, rfl⟩ := List.length_eq_two.mp hlen
    rcases hop with rfl | rfl <;> exact ⟨_, rfl⟩
  · obtain rfl := List.length_eq_zero_iff.mp hlen
    exact ⟨_, rfl⟩

/-- Settles O58: by the fields of what the assembler builds, and the rows of the map. -/
theorem assemblerEncodes : Obligations.AssemblerEncodes := by
  refine ⟨fun op os i h => ?_, fun op n w os => exists_instrOf, fun labels op ops os i hops hi => ?_,
    fun a b raw => ⟨rfl, rfl, rfl, rfl, rfl⟩⟩
  · obtain ⟨hop, hu, -, -⟩ := fields_of_instrOf h
    exact ⟨wf_of_unused_eq_zero hu, hop, encode_of_instrOf h⟩
  · rw [AsmItem.assemble, hops]
    exact congrArg (Option.map encode) hi

end Sys2Proof.Machine
end

section
/-! The family Arithmetic: add and mul (rules R100, R101). The equations for a three-operand store, its faults
and its opcode cell are stated for any instruction of that format, the comparisons included. -/

namespace Sys2Proof.Machine

/-! ### The overflow check in each mode (R13) -/

theorem arith64_of_trap {cfg : Config} {c : Word} {v : Int} (h : ¬ FitsInt64 v)
    (hm : cfg.overflowMode = .trap) : arith64 cfg c v = .error ⟨.arithOverflow, c.toInt⟩ := by
  rw [arith64_of_not_fits h, hm]

theorem arith64_of_wrap {cfg : Config} {c : Word} {v : Int} (h : ¬ FitsInt64 v)
    (hm : cfg.overflowMode = .wrap) : arith64 cfg c v = .ok (wrap64 v) := by
  rw [arith64_of_not_fits h, hm]

/-! ### Instructions with two read operands and a write operand -/

/-- The model's store is the one the rules describe (R26, R62, R73). -/
theorem commitStore_eq_storedBy (s : State) (n : Nat) (touched : List Int) (d : Nat) (v : Word) :
    commitStore s n touched d v = storedBy s n touched d v := by
  rw [storedBy, Nat.add_comm 1 n]
  rfl

/-- A commit whose next state is a store, in the words of the rules. -/
theorem exec_of_commits_store {s : State} {i : Instr} {n : Nat} {touched : List Int} {d : Nat} {v : Word}
    (h : Commits s i (commitStore s n touched d v)) : exec i s = .next (storedBy s n touched d v) := by
  rw [← commitStore_eq_storedBy]
  exact exec_of_commits h

/-- The address faults come in the order of rule R164 when `OperandFault` says so of the instruction. -/
theorem faultsInOrder_of_operandFault {s : State} {i : Instr} {a b : Operand} {c : Dest}
    (h : ∀ e v, (ReadFaults s a e v ∨
      ∃ x, ReadsAs s a x ∧ (ReadFaults s b e v ∨ ∃ y, ReadsAs s b y ∧ WriteFaults s c e v)) →
        OperandFault s i e v) : FaultsInOrder s i a b c := by
  have hfault : ∀ {e v}, OperandFault s i e v → exec i s = .next (faultedFrom s e v) :=
    fun {e v} hf => exec_of_operandFault (e := ⟨e, v⟩) hf
  refine ⟨fun e v ha => ?_, fun x e v hx hb => ?_, fun x y e v hx hy hc => ?_⟩
  · exact hfault (h e v (.inl ha))
  · exact hfault (h e v (.inr ⟨x, hx, .inl hb⟩))
  · exact hfault (h e v (.inr ⟨x, hx, .inr ⟨y, hy, hc⟩⟩))

/-- The opcode cell of the three-operand format (R80, R93). -/
theorem opcellValue_of_three_operands {i : Instr} {m1 m2 m3 : Nat} (hn : i.operandCount = 3)
    (hm : i.modeDigits = m1 + 10 * m2 + 100 * m3) :
    i.opcellValue = m3 * 10000 + m2 * 1000 + m1 * 100 + i.opcode + i.unused * 100000 := by
  rw [Instr.opcellValue, hn, hm]
  ring

/-! ### The two rules -/

/-- Settles O12: the commit with the result of the overflow check, the overflow it raises under `trap`, and
the address faults and opcode cell of the three-operand format. -/
theorem addRule : Obligations.AddRule := by
  intro a b c u s
  refine ⟨fun x y d ha hb hd hfits => ?_, fun x y d ha hb hd hover => ⟨fun hm => ?_, fun hm => ?_⟩,
    faultsInOrder_of_operandFault fun _ _ => id, rfl, opcellValue_of_three_operands rfl rfl⟩
  · exact exec_of_commits_store (.add ha hb hd (arith64_of_fits hfits))
  · exact exec_of_overflows (.add ha hb hd (arith64_of_trap hover hm))
  · exact exec_of_commits_store (.add ha hb hd (arith64_of_wrap hover hm))

/-- Settles O13, as O12 with the exact product. -/
theorem mulRule : Obligations.MulRule := by
  intro a b c u s
  refine ⟨fun x y d ha hb hd hfits => ?_, fun x y d ha hb hd hover => ⟨fun hm => ?_, fun hm => ?_⟩,
    faultsInOrder_of_operandFault fun _ _ => id, rfl, opcellValue_of_three_operands rfl rfl⟩
  · exact exec_of_commits_store (.mul ha hb hd (arith64_of_fits hfits))
  · exact exec_of_overflows (.mul ha hb hd (arith64_of_trap hover hm))
  · exact exec_of_commits_store (.mul ha hb hd (arith64_of_wrap hover hm))

end Sys2Proof.Machine
end

section
/-! The family IO: input, output and the input stall (rules R110 to R112). The equations for a one-operand
opcode cell, for an advance without a store, and for the address fault of an operand are stated for any
instruction. -/

namespace Sys2Proof.Machine

/-! ### Instructions with one operand -/

/-- The model's advance is the one the rules describe (R26, R73). -/
theorem commit_eq_advancedBy (s : State) (n : Nat) (touched : List Int) :
    commit s n touched = advancedBy s n touched := by
  rw [advancedBy, Nat.add_comm 1 n]
  rfl

/-- An operand address fault in the words of the rules (R161, R162). -/
theorem exec_of_operandFault_faultedFrom {s : State} {i : Instr} {c : Cause} {v : Int}
    (h : OperandFault s i c v) : exec i s = .next (faultedFrom s c v) :=
  exec_of_operandFault (e := ⟨c, v⟩) h

/-- The opcode cell of the one-operand format (R80, R93). -/
theorem opcellValue_of_one_operand {i : Instr} (hn : i.operandCount = 1) :
    i.opcellValue = i.modeDigits * 100 + i.opcode + i.unused * 1000 := by
  rw [Instr.opcellValue, hn]
  ring

/-! ### The two rules -/

/-- The front value is removed when another is queued behind it or `KEEP_LAST` is clear (R110). -/
theorem takeInput_of_consumed {keepLast : Bool} {v : Word} {q : List Word} (h : q ≠ [] ∨ keepLast = false) :
    takeInput keepLast (v :: q) = q := by
  refine if_neg fun ⟨hlen, hkeep⟩ => ?_
  rcases h with hq | hclear
  · exact hq (List.length_eq_zero_iff.mp (Nat.succ.inj hlen))
  · exact Bool.false_ne_true (hclear.symm.trans hkeep)

/-- input with a value queued, in the words of the rules (R110). -/
theorem exec_input_of_queued {s : State} {a : Dest} {u d : Nat} {v : Word} {q : List Word}
    (hd : WritesTo s a d) (hq : s.inq = v :: q) :
    exec (.input a u) s = .next { storedBy s 1 [] d v with inq := takeInput s.keepLast s.inq } := by
  rw [← commitStore_eq_storedBy]
  exact exec_of_commits (.input hd hq)

/-- Settles O14, by what is queued; what stays queued is `takeInput`'s answer. -/
theorem inputRule : Obligations.InputRule := by
  intro a u s
  refine ⟨fun d v q hd hq hconsumed => ?_, fun d v hd hq hkeep => ?_, fun d hd hq => ?_,
    fun e v h => exec_of_operandFault_faultedFrom h, rfl, opcellValue_of_one_operand rfl⟩
  · rw [exec_input_of_queued hd hq, hq, takeInput_of_consumed hconsumed]
  · have hstays : takeInput s.keepLast s.inq = s.inq := if_pos ⟨congrArg List.length hq, hkeep⟩
    rw [exec_input_of_queued hd hq, hstays]
    rfl
  · exact exec_of_stalls ⟨a, u, d, rfl, hd, hq⟩

/-- Settles O15: a readable operand is always committed. -/
theorem outputRule : Obligations.OutputRule := by
  intro a u s
  refine ⟨fun x hx => ?_, fun e v h => exec_of_operandFault_faultedFrom h, rfl,
    opcellValue_of_one_operand rfl⟩
  rw [← commit_eq_advancedBy]
  exact exec_of_commits (.output hx)

/-! ### The waiting core (R34, R111) -/

/-- `AWAITING_INPUT`: the core runs, and its input instruction has reached the stall check with no value
queued (R34). -/
theorem status_eq_awaitingInput {s : State} :
    status s = .awaitingInput ↔
      Running s ∧ ∃ a u d, fetch s = .ok (.input a u) ∧ WritesTo s a d ∧ s.inq = [] := by
  rw [← wouldStall_iff, status, Running]
  by_cases hc : s.cause = .none <;> cases s.halted <;> cases wouldStall s <;> simp [hc]

theorem step_of_awaitingInput {s : State} (h : status s = .awaitingInput) : step s = .next s := by
  obtain ⟨hr, a, u, d, hf, hd, hq⟩ := status_eq_awaitingInput.mp h
  rw [step_of_fetch_ok hr hf]
  exact exec_of_stalls ⟨a, u, d, rfl, hd, hq⟩

theorem enabled_of_awaitingInput {s : State} (h : status s = .awaitingInput) : enabled s = false :=
  enabled_eq_false.mpr (.inr (wouldStall_iff.mpr (status_eq_awaitingInput.mp h).2))

/-! ### What ends the waiting -/

theorem fetch_withQueue (s : State) (q : List Word) : fetch { s with inq := q } = fetch s :=
  fetch_congr rfl rfl rfl

theorem fetch_setKeepLast (s : State) (b : Bool) : fetch (setKeepLast s b) = fetch s :=
  fetch_congr rfl rfl rfl

/-- A fetch depends on the parameters, on `IP` and on the instruction's own cells alone (R81 to R89). -/
theorem fetch_of_cells_unchanged {s t : State} {i : Instr} (hf : fetch s = .ok i) (hcfg : t.cfg = s.cfg)
    (hip : t.ip = s.ip)
    (hcells : ∀ a ∈ fetchTouches s i.operandCount, t.mem.read a.toNat = s.mem.read a.toNat) :
    fetch t = .ok i := by
  obtain ⟨hin, shape, hd, hk, rfl⟩ := fetch_eq_ok.mp hf
  have hcell : ∀ k : Nat, k ≤ shape.operandCount →
      t.mem.read (s.ip.toInt + k).toNat = s.mem.read (s.ip.toInt + k).toNat := fun k hle =>
    hcells _ (mem_fetchTouches.mpr ⟨k, by rwa [operandCount_fill], rfl⟩)
  have hopcell : t.mem.read s.ip.toInt.toNat = s.mem.read s.ip.toInt.toNat := by
    simpa using hcell 0 (Nat.zero_le _)
  have hoperand : ∀ k : Nat, k < shape.operandCount →
      t.mem.read (s.ip.toInt + 1 + k).toNat = s.mem.read (s.ip.toInt + 1 + k).toNat := fun k hlt => by
    simpa [add_assoc, add_comm (1 : Int)] using hcell (k + 1) hlt
  simp only [fetch_eq_ok, InRange, hcfg, hip, hopcell]
  refine ⟨hin, shape, hd, hk, congrArg shape.fill (List.map_congr_left fun k hlt => ?_)⟩
  exact (hoperand k (List.mem_range.mp hlt)).symm

/-- A poke outside the instruction's own cells leaves the fetch as it was (R182). -/
theorem fetch_of_poke {s t : State} {i : Instr} {p : Int} {v : Word} (hf : fetch s = .ok i)
    (h : poke s p v = some t) (hp : p ∉ fetchTouches s i.operandCount) : fetch t = .ok i := by
  obtain ⟨⟨hp0, -⟩, rfl⟩ := poke_eq_some.mp h
  refine fetch_of_cells_unchanged hf rfl rfl fun a ha => Memory.read_write_other ?_
  have ha0 : 0 ≤ a := (fetch_touches_inRange hf ha).1
  have hne : a ≠ p := fun heq => hp (heq ▸ ha)
  omega

/-- A host command that ends the waiting is an enqueue, a reset, or a poke into the waiting instruction's own
cells (R111). -/
theorem hostCommand_ends_waiting {c : HostCommand} {s t : State} {r : Reply} {i : Instr}
    (hs : status s = .awaitingInput) (hi : fetch s = .ok i) (h : hostCommand c s = some (t, r))
    (ht : status t ≠ .awaitingInput) :
    (∃ v, c = .enqueue v) ∨ (∃ image, c = .reset image) ∨
      ∃ p v, c = .poke p v ∧ p ∈ fetchTouches s i.operandCount := by
  obtain ⟨hr, a, u, d, hf, hd, hq⟩ := status_eq_awaitingInput.mp hs
  rcases hostCommand_cases h with
    rfl | ⟨image, hc, -⟩ | ⟨v, hc, -⟩ | ⟨p, v, hc, hpoke⟩ | ⟨b, -, rfl⟩ | ⟨k, rfl, -⟩
  · exact absurd hs ht
  · exact .inr (.inl ⟨image, hc⟩)
  · exact .inl ⟨v, hc⟩
  · refine .inr (.inr ⟨p, v, hc, by_contra fun hp => ht ?_⟩)
    have hfetch : fetch t = .ok (.input a u) := (fetch_of_poke hi hpoke hp).trans (hi.symm.trans hf)
    obtain ⟨-, rfl⟩ := poke_eq_some.mp hpoke
    exact status_eq_awaitingInput.mpr ⟨hr, a, u, d, hfetch, hd, hq⟩
  · refine absurd (status_eq_awaitingInput (s := setKeepLast s b) |>.mpr ?_) ht
    exact ⟨hr, a, u, d, (fetch_setKeepLast s b).trans hf, hd, hq⟩
  · have hstep : ∀ w, status w = .awaitingInput → status (stepState w) = .awaitingInput := fun w hw => by
      rwa [stepState_eq (step_of_awaitingInput hw)]
    exact absurd (iterate_keeps hstep k s hs) ht

/-- With a value queued the fetched input instruction is ready, and its step commits (R110, R111). -/
theorem input_ready_of_queued {s : State} {a : Dest} {u d : Nat} {v : Word} {q : List Word} (hr : Running s)
    (hf : fetch s = .ok (.input a u)) (hd : WritesTo s a d) (hq : s.inq = v :: q) :
    status s = .ready ∧ step s = exec (.input a u) s ∧
      ∃ t, step s = .next t ∧ t.cause = .none ∧ t.ip = s.ip + 2 := by
  obtain ⟨-, -, -, hready, -⟩ := statusLines s
  have hstep : step s = exec (.input a u) s := step_of_fetch_ok hr hf
  refine ⟨hready hr ?_, hstep, _, hstep.trans (exec_of_commits (.input hd hq)), hr.2, rfl⟩
  rintro ⟨-, -, -, -, -, hempty⟩
  exact List.cons_ne_nil v q (hq.symm.trans hempty)

/-- Settles O48: the waiting core does not step; the queued value makes it ready; the cells of an input
instruction are those at `IP` and `IP + 1`. -/
theorem starvationStalls : Obligations.StarvationStalls := by
  intro s a u n hr hf hd hq
  have hs : status s = .awaitingInput := status_eq_awaitingInput.mpr ⟨hr, a, u, n, hf, hd, hq⟩
  refine ⟨step_of_awaitingInput hs, hs, enabled_of_awaitingInput hs, fun v t ht => ?_, fun c t r h ht => ?_⟩
  · obtain ⟨-, rfl⟩ := enqueue_eq_some.mp ht
    rw [hq, List.nil_append]
    exact input_ready_of_queued (s := { s with inq := [v] }) hr ((fetch_withQueue s [v]).trans hf) hd rfl
  · refine (hostCommand_ends_waiting hs hf h ht).imp_right (Or.imp_right ?_)
    rintro ⟨p, v, hc, hp⟩
    obtain ⟨k, hk, rfl⟩ := mem_fetchTouches.mp hp
    have hk1 : k ≤ 1 := hk
    exact ⟨_, v, hc, by omega⟩

end Sys2Proof.Machine
end

section
/-! The family Jumps: jump-if-true and jump-if-false (rules R120, R121). The equations for a two-operand opcode
cell and for a commit that advances are stated for any instruction. -/

namespace Sys2Proof.Machine

/-- A commit whose next state is an advance without a store, in the words of the rules (R26, R73). -/
theorem exec_of_commits_advance {s : State} {i : Instr} {n : Nat} {touched : List Int}
    (h : Commits s i (commit s n touched)) : exec i s = .next (advancedBy s n touched) := by
  rw [← commit_eq_advancedBy]
  exact exec_of_commits h

/-- The opcode cell of the two-operand format (R80, R93). -/
theorem opcellValue_of_two_operands {i : Instr} {m1 m2 : Nat} (hn : i.operandCount = 2)
    (hm : i.modeDigits = m1 + 10 * m2) :
    i.opcellValue = m2 * 1000 + m1 * 100 + i.opcode + i.unused * 10000 := by
  rw [Instr.opcellValue, hn, hm]
  ring

/-- Settles O16: the jump taken and the jump not taken each commit, and the target is an operand that can fault
only where the condition is nonzero. -/
theorem jumpIfTrueRule : Obligations.JumpIfTrueRule := by
  intro a b u s
  refine ⟨fun x t ha hx hb => ?_, fun x ha hx => ?_, fun e v ha => ?_, fun x e v ha hx hb => ?_, rfl,
    opcellValue_of_two_operands rfl rfl⟩
  · exact exec_of_commits (.jumpIfTrueTaken ha hx hb)
  · exact exec_of_commits_advance (.jumpIfTrueNot ha hx)
  · exact exec_of_operandFault_faultedFrom (.inl ha)
  · exact exec_of_operandFault_faultedFrom (.inr ⟨x, ha, hx, hb⟩)

/-- Settles O17, as O16 with the jump taken where the condition is zero. -/
theorem jumpIfFalseRule : Obligations.JumpIfFalseRule := by
  intro a b u s
  refine ⟨fun x t ha hx hb => ?_, fun x ha hx => ?_, fun e v ha => ?_, fun x e v ha hx hb => ?_, rfl,
    opcellValue_of_two_operands rfl rfl⟩
  · exact exec_of_commits (.jumpIfFalseTaken ha hx hb)
  · exact exec_of_commits_advance (.jumpIfFalseNot ha hx)
  · exact exec_of_operandFault_faultedFrom (.inl ha)
  · exact exec_of_operandFault_faultedFrom (.inr ⟨x, ha, hx, hb⟩)

end Sys2Proof.Machine
end

section
/-! The family Compare: less-than and equals (rules R130, R131). The store, the faults in their order and the
opcode cell are the three-operand format's, as in the family Arithmetic. -/

namespace Sys2Proof.Machine

/-- Settles O18: readable operands and a writable cell always commit, and what is stored is the cell of the
signed comparison. -/
theorem lessThanRule : Obligations.LessThanRule := by
  intro a b c u s
  refine ⟨fun x y d ha hb hd => ?_, faultsInOrder_of_operandFault fun _ _ => id, rfl,
    opcellValue_of_three_operands rfl rfl⟩
  rw [← boolCell_decide]
  exact exec_of_commits_store (.lessThan ha hb hd)

/-- Settles O19, as O18 with the cell of the equality. -/
theorem equalsRule : Obligations.EqualsRule := by
  intro a b c u s
  refine ⟨fun x y d ha hb hd => ?_, faultsInOrder_of_operandFault fun _ _ => id, rfl,
    opcellValue_of_three_operands rfl rfl⟩
  rw [← boolCell_decide]
  exact exec_of_commits_store (.equals ha hb hd)

end Sys2Proof.Machine
end

section
/-! The family RelativeBase: adjust-relative-base (rule R140). The overflow check in each mode, the address
fault of an operand and the one-operand opcode cell are those of the families Arithmetic and IO. -/

namespace Sys2Proof.Machine

/-- adjust-relative-base whose overflow check answers `r`, in the words of the rules (R140). -/
theorem exec_adjustRelativeBase_of_arith64 {s : State} {a : Operand} {u : Nat} {x r : Word}
    (hx : ReadsAs s a x)
    (hr : arith64 s.cfg (Instr.adjustRelativeBase a u).opcell (s.rb.toInt + x.toInt) = .ok r) :
    exec (.adjustRelativeBase a u) s = .next { advancedBy s 1 (operandTouches s a) with rb := r } := by
  rw [← commit_eq_advancedBy]
  exact exec_of_commits (.adjustRelativeBase hx hr)

/-- Settles O20: a readable operand leaves the overflow check of the sum, which commits or, under `trap`,
overflows. -/
theorem adjustRelativeBaseRule : Obligations.AdjustRelativeBaseRule := by
  intro a u s
  refine ⟨fun x hx hfits => ?_, fun x hx hover => ⟨fun hm => ?_, fun hm => ?_⟩,
    fun e v h => exec_of_operandFault_faultedFrom h, rfl, opcellValue_of_one_operand rfl⟩
  · exact exec_adjustRelativeBase_of_arith64 hx (arith64_of_fits hfits)
  · exact exec_of_overflows (.adjustRelativeBase hx (arith64_of_trap hover hm))
  · exact exec_adjustRelativeBase_of_arith64 hx (arith64_of_wrap hover hm)

end Sys2Proof.Machine
end

section
/-! The family Halt: halt (rule R150), its step, and the cells it is fetched from under either value of the
unused digits (rule R86). -/

namespace Sys2Proof.Machine

/-- halt, in the words of the rules: it touches its opcode cell alone (R73, R150). -/
theorem exec_halt (u : Nat) (s : State) :
    exec (.halt u) s =
      .next { s with halted := true, memExtent := max s.memExtent (s.ip.toInt.toNat + 1) } := by
  have hextent : extentAfter s.memExtent (fetchTouches s 0 ++ []) =
      max s.memExtent (s.ip.toInt.toNat + 1) := by
    simp [fetchTouches, extentAfter]
  rw [exec_of_commits .halt, touch, hextent]

/-- A halted core is not enabled, and a step leaves it as it is (R151, R169, R170). -/
theorem disabled_of_halted {s : State} (h : s.halted = true) : enabled s = false ∧ step s = .next s :=
  ⟨enabled_eq_false.mpr (.inl (not_running_of_halted h)), step_of_not_running (not_running_of_halted h)⟩

/-- Without `STRICT_DECODE` every non-negative cell ending in the digits 99 is halt (R86, R150). -/
theorem decodeOpcell_halt {c : Word} (hpos : 0 ≤ c.toInt) (h99 : c.toNat % 100 = 99) :
    decodeOpcell false c = .ok (.halt (c.toNat / 100)) :=
  (decodeOpcell_of_nonneg hpos).trans (decodeDigits_of_mod_eq (i := .halt 0) h99)

/-- An existing cell that decodes to halt is fetched whole: there is no operand cell behind it to miss (R83). -/
theorem fetch_halt {s : State} {c : Word} {u : Nat} (hc : CellAt s s.ip.toInt c)
    (hd : decodeOpcell s.cfg.strictDecode c = .ok (.halt u)) : fetch s = .ok (.halt u) :=
  fetch_of_cells hc hd (by simpa [Instr.operandCount] using hc.1.2)

/-- Settles O21: halt always commits, the core it leaves does not run, and a cell ending in 99 is fetched as
halt wherever it exists. -/
theorem haltRule : Obligations.HaltRule := by
  intro u s
  refine ⟨exec_halt u s, fun t ht => ?_, rfl, ?_, fun c hr hc hstrict hpos h99 => ?_⟩
  · rw [exec_halt] at ht
    cases ht
    exact disabled_of_halted rfl
  · simp [Instr.opcellValue, Instr.opcode, Instr.modeDigits, Instr.operandCount, Instr.unused, mul_comm]
  · have hd : decodeOpcell s.cfg.strictDecode c = .ok (.halt (c.toNat / 100)) :=
      hstrict ▸ decodeOpcell_halt hpos h99
    rw [step_of_fetch_ok hr (fetch_halt hc hd)]
    exact exec_halt _ s

end Sys2Proof.Machine
end

section
/-! The family Exceptions, first part: the step enable, and what a fault records (rules R160 to R170). A fault
of a step comes from the fetch or from the fetched instruction; `CellOrigin` and `AddressOrigin` say which of
the two kinds of value of rule R161 it carries. -/

namespace Sys2Proof.Machine

/-! ### The step enable (R169, R170) -/

theorem enabled_iff_status {s : State} :
    enabled s = true ↔ s.cause = .none ∧ s.halted = false ∧ status s ≠ .awaitingInput := by
  rw [enabled, status]
  by_cases hc : s.cause = .none <;> cases s.halted <;> cases wouldStall s <;> simp [hc]

/-- A core that is not enabled is halted, faulted or awaiting input (R34, R169). -/
theorem disabled_iff_status {s : State} :
    enabled s = false ↔ status s = .halted ∨ status s = .faulted ∨ status s = .awaitingInput := by
  rw [enabled, status]
  by_cases hc : s.cause = .none <;> cases s.halted <;> cases wouldStall s <;> simp [hc]

theorem step_of_disabled {s : State} (h : enabled s = false) : step s = .next s := by
  by_cases hr : Running s
  · have hstall : wouldStall s = true := (enabled_eq_false.mp h).resolve_left (not_not_intro hr)
    exact step_of_awaitingInput (status_eq_awaitingInput.mpr ⟨hr, wouldStall_iff.mp hstall⟩)
  · exact step_of_not_running hr

theorem coreStep_of_disabled {s : State} (h : enabled s = false) : coreStep s = none := by
  rw [coreStep, h, if_neg Bool.false_ne_true]

theorem coreStep_of_enabled {s : State} (h : enabled s = true) : coreStep s = some (stepState s) :=
  if_pos h

/-- Settles O30: the step of a disabled core is the core itself. -/
theorem disabledStepChangesNothing : Obligations.DisabledStepChangesNothing := by
  intro s h
  have hstep : step s = .next s := step_of_disabled h
  refine ⟨hstep, coreStep_of_disabled h, ?_⟩
  rw [hostCommand, stepState_eq hstep]

/-! ### Where a step's fault comes from (R162) -/

/-- A step of a running core that ends with a fault recorded has taken one that its fetch or its instruction
raised. -/
theorem step_fault_origin {s t : State} (hr : Running s) (h : step s = .next t) (hc : t.cause ≠ .none) :
    ∃ e, t = takeFault s e ∧ (fetch s = .error e ∨ ∃ i, fetch s = .ok i ∧ RaiseOrigin s i e) := by
  cases hf : fetch s with
  | error e =>
    rw [step_of_fetch_error hr hf] at h
    cases h
    exact ⟨e, rfl, .inl rfl⟩
  | ok i =>
    rw [step_of_fetch_ok hr hf] at h
    obtain ⟨e, he, rfl⟩ := exec_fault_origin h hr.2 hc
    exact ⟨e, rfl, .inr ⟨i, rfl, he⟩⟩

/-- A step of a running core that ends with no fault recorded has run its instruction. -/
theorem exec_of_step_clean {s t : State} (hr : Running s) (h : step s = .next t) (hc : t.cause = .none) :
    ∃ i, fetch s = .ok i ∧ exec i s = .next t := by
  cases hf : fetch s with
  | error e =>
    rw [step_of_fetch_error hr hf] at h
    cases h
    exact absurd hc (fetch_error_cause hf)
  | ok i => exact ⟨i, rfl, (step_of_fetch_ok hr hf).symm.trans h⟩

/-- Settles O31: an enabled core runs, so its step ends with no fault recorded or is a fault entry. -/
theorem enabledStepCommitsOrFaults : Obligations.EnabledStepCommitsOrFaults := by
  refine fun s => ⟨enabled_iff_status, fun he => ?_⟩
  have hr : Running s := running_of_enabled he
  have hstep : step s = .next (stepState s) := step_stepState s
  refine ⟨stepState s, hstep, coreStep_of_enabled he, ?_⟩
  by_cases hc : (stepState s).cause = .none
  · exact .inl ⟨hc, exec_of_step_clean hr hstep hc⟩
  · obtain ⟨e, ht, -⟩ := step_fault_origin hr hstep hc
    exact .inr ⟨hc, e.value, by rw [ht]; rfl⟩

/-- Settles O27: the step is `takeFault`, which writes the three registers alone. -/
theorem faultEntryIsPrecise : Obligations.FaultEntryIsPrecise := by
  intro s t hr h hc
  obtain ⟨e, rfl, -⟩ := step_fault_origin hr h hc
  exact ⟨rfl, if_pos hc, rfl⟩

/-! ### What a fault's value is (R161) -/

/-- The raise is not about an address, and its value is the opcode cell at `IP` (R161: causes 1, 2, 3, 6). -/
def CellOrigin (s : State) (e : Raise) : Prop :=
  (e.cause ≠ .negativeAddress ∧ e.cause ≠ .addressRange) ∧
    ∃ c, CellAt s s.ip.toInt c ∧ e.value = c.toInt

/-- The raise is the fault of its value as an address: that of the opcode cell, that of the first operand cell
that does not exist, or that of the fetched instruction's first access that fails (R161: causes 4, 5). -/
def AddressOrigin (s : State) (e : Raise) : Prop :=
  AddressFaults s e.value e.cause ∧
    ((¬ InRange s s.ip.toInt ∧ e.value = s.ip.toInt) ∨
      (∃ c i, ∃ k : Nat, CellAt s s.ip.toInt c ∧ decodeOpcell s.cfg.strictDecode c = .ok i ∧
        1 ≤ k ∧ k ≤ i.operandCount ∧ (∀ j : Nat, j < k → InRange s (s.ip.toInt + j)) ∧
        e.value = s.ip.toInt + k) ∨
      ∃ i, fetch s = .ok i ∧ OperandFault s i e.cause e.value)

theorem not_inRange_of_addressFaults {s : State} {a : Int} {c : Cause} (h : AddressFaults s a c) :
    ¬ InRange s a := fun ⟨h0, hlt⟩ => by
  rcases h with ⟨hneg, -⟩ | ⟨hge, -, -⟩ <;> omega

theorem decodeRaise_not_address (c : Word) (f : DecodeFault) :
    (decodeRaise c f).cause ≠ .negativeAddress ∧ (decodeRaise c f).cause ≠ .addressRange := by
  cases f <;> exact ⟨Cause.noConfusion, Cause.noConfusion⟩

theorem decodeRaise_value (c : Word) (f : DecodeFault) : (decodeRaise c f).value = c.toInt := by
  cases f <;> rfl

theorem operandCount_le (i : Instr) : i.operandCount ≤ 3 :=
  Nat.le_of_add_le_add_left (Laws.Cells.width_le i)

/-- Operand cell `k + 1` is the first that an operand fetch misses (R83). -/
theorem addressOrigin_of_fetchCells {s : State} {i : Instr} {e : Raise} (hin : InRange s s.ip.toInt)
    (hd : decodeOpcell s.cfg.strictDecode (s.mem.read s.ip.toInt.toNat) = .ok i)
    (h : fetchCells s (s.ip.toInt + 1) i.operandCount = .error e) : AddressOrigin s e := by
  obtain ⟨k, hk, hbefore, hf, hv⟩ := fetchCells_eq_error.mp h
  have hshift : ∀ j : Nat, s.ip.toInt + 1 + j = s.ip.toInt + (j + 1 : Nat) := fun j => by push_cast; ring
  refine ⟨hv ▸ hf, .inr (.inl ⟨_, i, k + 1, ⟨hin, rfl⟩, hd, k.succ_pos, hk, fun j hj => ?_,
    hv.trans (hshift k)⟩)⟩
  cases j with
  | zero => simpa using hin
  | succ j => exact hshift j ▸ hbefore j (Nat.lt_of_succ_lt_succ hj)

theorem origin_of_fetch_error {s : State} {e : Raise} (h : fetch s = .error e) :
    CellOrigin s e ∨ AddressOrigin s e := by
  rcases fetch_eq_error.mp h with ⟨hf, hv⟩ | ⟨hin, ⟨f, -, rfl⟩ | ⟨i, hd, hcells⟩⟩
  · exact .inr ⟨hv ▸ hf, .inl ⟨not_inRange_of_addressFaults hf, hv⟩⟩
  · exact .inl ⟨decodeRaise_not_address _ f, _, ⟨hin, rfl⟩, decodeRaise_value _ f⟩
  · exact .inr (addressOrigin_of_fetchCells hin hd hcells)

/-- The cell at `IP` is the opcode cell of the fetched instruction. -/
theorem cellAt_opcell_of_fetch {s : State} {i : Instr} (h : fetch s = .ok i) :
    CellAt s s.ip.toInt i.opcell := by
  obtain ⟨hin, shape, hd, -, rfl⟩ := fetch_eq_ok.mp h
  obtain ⟨-, -, hcell, -⟩ := opcell_of_decodeOpcell hd
  exact ⟨hin, by rw [opcell_fill, hcell]⟩

theorem origin_of_raiseOrigin {s : State} {i : Instr} {e : Raise} (hf : fetch s = .ok i)
    (h : RaiseOrigin s i e) : CellOrigin s e ∨ AddressOrigin s e := by
  rcases h with hop | rfl
  · obtain ⟨haddr, -⟩ := operandFault_address hop
    exact .inr ⟨haddr, .inr (.inr ⟨i, hf, hop⟩)⟩
  · exact .inl ⟨⟨Cause.noConfusion, Cause.noConfusion⟩, _, cellAt_opcell_of_fetch hf, rfl⟩

/-- `FAULT_VALUE` holds a cell's value, and the address of an operand cell behind `IP`, exactly (R33). -/
theorem toInt_ofInt_65_of_near {w : Word} {v : Int} (hlow : w.toInt ≤ v) (hhigh : v ≤ w.toInt + 3) :
    (BitVec.ofInt 65 v).toInt = v := by
  obtain ⟨hmin, hmax⟩ := toInt_bounds w
  exact toInt_ofInt_65 (by omega) (by omega)

/-- `FAULT_VALUE` holds the value of either origin exactly (R33). -/
theorem toInt_ofInt_65_of_origin {s : State} {e : Raise} (h : CellOrigin s e ∨ AddressOrigin s e) :
    (BitVec.ofInt 65 e.value).toInt = e.value := by
  rcases h with ⟨-, c, -, hv⟩ | ⟨-, ⟨-, hv⟩ | ⟨c, i, k, -, -, -, hk, -, hv⟩ | ⟨i, -, hop⟩⟩
  · exact toInt_ofInt_65_of_near (w := c) (by omega) (by omega)
  · exact toInt_ofInt_65_of_near (w := s.ip) (by omega) (by omega)
  · have hcount : i.operandCount ≤ 3 := operandCount_le i
    exact toInt_ofInt_65_of_near (w := s.ip) (by omega) (by omega)
  · obtain ⟨-, hlow, hhigh⟩ := operandFault_address hop
    exact toInt_ofInt_65 hlow hhigh

/-- A step of a running core that ends with a fault recorded has taken a raise of one of the two origins, and
`FAULT_VALUE` is its value. -/
theorem step_fault_value {s t : State} (hr : Running s) (h : step s = .next t) (hc : t.cause ≠ .none) :
    ∃ e, t.cause = e.cause ∧ t.faultValue.toInt = e.value ∧ (CellOrigin s e ∨ AddressOrigin s e) := by
  obtain ⟨e, rfl, he⟩ := step_fault_origin hr h hc
  have ho : CellOrigin s e ∨ AddressOrigin s e := by
    rcases he with hf | ⟨i, hf, hi⟩
    · exact origin_of_fetch_error hf
    · exact origin_of_raiseOrigin hf hi
  exact ⟨e, rfl, toInt_ofInt_65_of_origin ho, ho⟩

/-- The first missing operand cell is the one at address `MEM_CELLS` (R83). -/
theorem step_of_operands_beyond {s : State} {c : Word} {i : Instr} (hr : Running s)
    (hc : CellAt s s.ip.toInt c) (hd : decodeOpcell s.cfg.strictDecode c = .ok i)
    (hlast : (s.cfg.memCells : Int) ≤ s.ip.toInt + i.operandCount) :
    ∃ k : Nat, 1 ≤ k ∧ k ≤ i.operandCount ∧ (s.cfg.memCells : Int) = s.ip.toInt + k ∧
      step s = .next (faultedFrom s .addressRange (s.ip.toInt + k)) := by
  have ⟨⟨hip, hlt⟩, _⟩ := hc
  obtain ⟨k, hk⟩ : ∃ k : Nat, (s.cfg.memCells : Int) = s.ip.toInt + k :=
    ⟨(s.cfg.memCells - s.ip.toInt).toNat, by omega⟩
  exact ⟨k, by omega, by omega, hk,
    step_of_missing_operand hr hc hd (by omega) (by omega) (fun j _ hj => by omega) (by omega)⟩

/-- Settles O28: the origin of the fault fixes the cause and the value; an opcode cell or an operand cell that
does not exist is the step's only outcome. -/
theorem faultValueByCause : Obligations.FaultValueByCause := by
  intro s t hr h
  refine ⟨fun hcause => ?_, fun hcause => ?_, fun hout => ?_, fun c i hc hd hlast => ?_⟩
  · obtain ⟨e, he, hv, ⟨-, c, hc, hcell⟩ | ⟨haddr, -⟩⟩ :=
      step_fault_value hr h (by rcases hcause with h | h | h | h <;> simp [h])
    · exact ⟨c, hc, hv.trans hcell⟩
    · rcases cause_of_addressFaults haddr with ha | ha <;> simp [he, ha] at hcause
  · obtain ⟨e, he, hv, ⟨⟨hneg, hrange⟩, -⟩ | haddr⟩ :=
      step_fault_value hr h (by rcases hcause with h | h <;> simp [h])
    · exact absurd (he ▸ hcause) (not_or.mpr ⟨hneg, hrange⟩)
    · rw [he, hv]
      exact haddr
  · obtain ⟨e, he⟩ := (inRange_or_faults s s.ip.toInt).resolve_left hout
    rw [step_of_fetch_address hr he] at h
    cases h
    exact ⟨he, toInt_ofInt_65_of_near (w := s.ip) le_rfl (by omega)⟩
  · obtain ⟨k, hk, hk', hcells, hstep⟩ := step_of_operands_beyond hr hc hd hlast
    rw [hstep] at h
    cases h
    have hcount : i.operandCount ≤ 3 := operandCount_le i
    have hv : (BitVec.ofInt 65 (s.ip.toInt + k)).toInt = s.ip.toInt + k :=
      toInt_ofInt_65_of_near (w := s.ip) (by omega) (by omega)
    exact ⟨rfl, hv.trans hcells.symm, k, hk, hk', hv⟩

end Sys2Proof.Machine
end

section
/-! The family Exceptions, second part: the host commands on one core (rules R163, R180 to R183, R187), in
every status. -/

namespace Sys2Proof.Machine

/-- Settles O53: each query reads its register. -/
theorem statusQueries : Obligations.StatusQueries := fun _ => ⟨rfl, rfl, rfl, rfl, rfl, rfl, rfl⟩

/-- Settles O52, by the command's definition. -/
theorem hostCommand_setKeepLast : Obligations.SetKeepLast := fun _ _ => rfl

/-- Settles O49, by the room in the queue. -/
theorem enqueueAppendsOrRefuses : Obligations.EnqueueAppendsOrRefuses := by
  refine fun s v => ⟨fun hroom => ?_, fun d hd hfull => ?_⟩
  · rw [hostCommand, enqueue, if_pos (queueHasRoom_iff.mpr hroom), Option.map_some]
  · have hnoRoom : ¬ queueHasRoom s = true := fun hroom =>
      absurd (queueHasRoom_iff.mp hroom d hd) (not_lt.mpr hfull)
    rw [hostCommand, enqueue, if_neg hnoRoom, Option.map_none]

/-- Settles O50, by the last element of the log. -/
theorem outputQueries : Obligations.OutputQueries := by
  refine fun s => ⟨fun hlog => ?_, fun l x hlog => ?_, rfl⟩
  · rw [hostCommand, lastOutput, hlog, List.getLast?_nil]
  · rw [hostCommand, lastOutput, hlog, List.getLast?_concat]

/-! ### Peek and poke (R182) -/

theorem hostAddress_of_inRange {s : State} {a : Int} (h : InRange s a) : hostAddress s a = some a.toNat :=
  hostAddress_eq_some.mpr ⟨h, rfl⟩

theorem hostAddress_of_not_inRange {s : State} {a : Int} (h : ¬ InRange s a) : hostAddress s a = none :=
  Option.eq_none_iff_forall_ne_some.mpr fun _ hn => h (hostAddress_eq_some.mp hn).1

theorem hostCommand_peek_of_inRange {s : State} {a : Int} (h : InRange s a) :
    hostCommand (.peek a) s = some (s, .word (s.mem.read a.toNat)) := by
  rw [hostCommand, peek, hostAddress_of_inRange h, Option.map_some, Option.map_some]

theorem hostCommand_poke_of_inRange {s : State} {a : Int} (h : InRange s a) (v : Word) :
    hostCommand (.poke a v) s =
      some ({ s with
          mem := s.mem.write a.toNat v
          memExtent := max s.memExtent (a.toNat + 1) }, .done) := by
  rw [hostCommand, poke_eq_some.mpr ⟨h, rfl⟩, Option.map_some]

/-- Settles O51: by whether the address exists; what reads back is `Memory.read_write`. -/
theorem peekAndPoke : Obligations.PeekAndPoke := by
  refine fun s a v hwf => ⟨fun hin => ⟨hostCommand_peek_of_inRange hin, _,
    hostCommand_poke_of_inRange hin v, Memory.write_wf hwf, rfl, fun b => ?_⟩, fun hout => ?_, rfl⟩
  · obtain ⟨h0, -⟩ := hin
    rw [Memory.read_write hwf]
    exact if_congr (by omega) rfl rfl
  · have hnone : hostAddress s a = none := hostAddress_of_not_inRange hout
    rw [hostCommand, hostCommand, peek, poke, hnone]
    exact ⟨rfl, rfl⟩

/-! ### Faults are terminal (R163) -/

/-- A recorded fault and its registers stay through every host command but a reset. -/
theorem hostCommand_keeps_fault {c : HostCommand} {s t : State} {r : Reply} (hs : s.cause ≠ .none)
    (h : hostCommand c s = some (t, r)) (hne : ∀ image, c ≠ .reset image) :
    t.cause = s.cause ∧ t.faultIp = s.faultIp ∧ t.faultValue = s.faultValue := by
  refine hostCommand_keeps
    (P := fun u => u.cause = s.cause ∧ u.faultIp = s.faultIp ∧ u.faultValue = s.faultValue) h
    ⟨rfl, rfl, rfl⟩ (fun u v hu huv => ?_) (fun image hc => absurd hc (hne image)) (fun v ht => ?_)
    (fun a v ht => ?_) fun _ => ⟨rfl, rfl, rfl⟩
  · rw [step_of_not_running fun hr => hs (hu.1.symm.trans hr.2)] at huv
    cases huv
    exact hu
  · obtain ⟨-, rfl⟩ := enqueue_eq_some.mp ht
    exact ⟨rfl, rfl, rfl⟩
  · obtain ⟨-, rfl⟩ := poke_eq_some.mp ht
    exact ⟨rfl, rfl, rfl⟩

theorem fault_cleared_of_reset {s t : State} {image : List Word} {r : Reply}
    (h : hostCommand (.reset image) s = some (t, r)) :
    t.cause = .none ∧ t.faultIp = 0 ∧ t.faultValue = 0 := by
  obtain ⟨u, hu, hut⟩ := Option.map_eq_some_iff.mp h
  obtain ⟨-, rfl⟩ := resetWith_eq_some.mp hu
  cases hut
  exact ⟨rfl, rfl, rfl⟩

/-- Settles O29: a faulted core does not run, and no command but a reset writes its fault registers. -/
theorem faultsAreTerminal : Obligations.FaultsAreTerminal := by
  intro s hs
  have hnot : ¬ Running s := fun hr => hs hr.2
  have hstatus : status s = .faulted := if_pos hs
  obtain ⟨hhalted, hquery, hcause, hfaultIp, hfaultValue, hip, hrb⟩ := statusQueries s
  exact ⟨step_of_not_running hnot, coreStep_of_disabled (enabled_eq_false.mpr (.inl hnot)),
    fun c t r h hne => hostCommand_keeps_fault hs h hne, fun image t r h => fault_cleared_of_reset h,
    fun a hin => hostCommand_peek_of_inRange hin, hfaultIp, hfaultValue, hcause, hstatus ▸ hquery, hhalted,
    hip, hrb⟩

end Sys2Proof.Machine
end

section
/-! The family Exceptions, third part: the run commands (rules R184 to R186) return in the first state that
stops them. -/

namespace Sys2Proof.Machine

/-! ### RUN_UNTIL_HALT (R185) -/

theorem runUntilHalt_of_disabled {s : State} (h : enabled s = false) (n : Nat) :
    runUntilHalt n s = some s := by
  cases n <;> rw [runUntilHalt, h, if_neg Bool.false_ne_true]

theorem runUntilHalt_of_steps {k n : Nat} {s : State} (hk : k ≤ n)
    (hstop : enabled (stepState^[k] s) = false)
    (hbefore : ∀ j, j < k → enabled (stepState^[j] s) = true) :
    runUntilHalt n s = some (stepState^[k] s) := by
  induction k generalizing n s with
  | zero => exact runUntilHalt_of_disabled hstop n
  | succ k ih =>
    obtain ⟨n, rfl⟩ := Nat.exists_eq_add_of_le' (Nat.lt_of_lt_of_le k.succ_pos hk)
    have hgo : enabled s = true := hbefore 0 k.succ_pos
    rw [runUntilHalt, if_pos hgo]
    exact ih (Nat.le_of_succ_le_succ hk) hstop fun j hj => hbefore (j + 1) (Nat.succ_lt_succ hj)

/-- What `RUN_UNTIL_HALT` within `n` steps answers. -/
theorem runUntilHalt_eq_some {n : Nat} {s t : State} :
    runUntilHalt n s = some t ↔
      ∃ k, k ≤ n ∧ t = stepState^[k] s ∧ enabled t = false ∧
        ∀ j, j < k → enabled (stepState^[j] s) = true := by
  refine ⟨runUntilHalt_steps, ?_⟩
  rintro ⟨k, hk, rfl, hstop, hbefore⟩
  exact runUntilHalt_of_steps hk hstop hbefore

/-- Settles O54: the run stops in the first disabled state, and a disabled core has one of the three statuses. -/
theorem runUntilHaltStopsFirst : Obligations.RunUntilHaltStopsFirst := by
  intro n s t
  have hreply : hostCommand (.runUntilHalt n) s = some (t, .status (status t)) ↔
      runUntilHalt n s = some t := by
    rw [hostCommand, Option.map_eq_some_iff]
    exact ⟨fun ⟨u, hu, hut⟩ => by cases hut; exact hu, fun ht => ⟨t, ht, rfl⟩⟩
  rw [hreply, runUntilHalt_eq_some, disabled_iff_status]

/-! ### RUN_UNTIL_OUTPUT_OR_HALT (R186) -/

theorem runWhileSilent_of_stopped {k0 : Nat} {s : State} (h : enabled s = false ∨ s.outlog.length ≠ k0)
    (n : Nat) : runWhileSilent k0 n s = some s := by
  have hstop : ¬ (enabled s = true ∧ s.outlog.length = k0) := fun ⟨he, hlen⟩ =>
    h.elim (fun hdis => Bool.false_ne_true (hdis.symm.trans he)) fun hne => hne hlen
  cases n <;> rw [runWhileSilent, if_neg hstop]

theorem runWhileSilent_of_steps {k0 k n : Nat} {s : State} (hk : k ≤ n)
    (hstop : enabled (stepState^[k] s) = false ∨ (stepState^[k] s).outlog.length ≠ k0)
    (hbefore : ∀ j, j < k → enabled (stepState^[j] s) = true ∧ (stepState^[j] s).outlog.length = k0) :
    runWhileSilent k0 n s = some (stepState^[k] s) := by
  induction k generalizing n s with
  | zero => exact runWhileSilent_of_stopped hstop n
  | succ k ih =>
    obtain ⟨n, rfl⟩ := Nat.exists_eq_add_of_le' (Nat.lt_of_lt_of_le k.succ_pos hk)
    have hgo : enabled s = true ∧ s.outlog.length = k0 := hbefore 0 k.succ_pos
    rw [runWhileSilent, if_pos hgo]
    exact ih (Nat.le_of_succ_le_succ hk) hstop fun j hj => hbefore (j + 1) (Nat.succ_lt_succ hj)

/-- The log only grows, so it has its old length exactly where it is the old log (R37). -/
theorem outlog_length_iterate {s : State} (k : Nat) :
    (stepState^[k] s).outlog.length = s.outlog.length ↔ (stepState^[k] s).outlog = s.outlog := by
  refine ⟨fun hlen => ?_, congrArg List.length⟩
  obtain ⟨-, hgrows⟩ := outputLogIsAppendOnly
  have hprefix : s.outlog <+: (stepState^[k] s).outlog :=
    iterate_keeps (P := fun u => s.outlog <+: u.outlog)
      (fun u hu => hu.trans (hgrows u _ .step _ rfl fun _ => HostCommand.noConfusion)) k s
      (List.prefix_refl _)
  exact (hprefix.eq_of_length hlen.symm).symm

/-- What `RUN_UNTIL_OUTPUT_OR_HALT` within `n` steps answers. -/
theorem runUntilOutputOrHalt_eq_some {n : Nat} {s t : State} {v : Option Word} :
    runUntilOutputOrHalt n s = some (t, v) ↔
      ∃ k, k ≤ n ∧ t = stepState^[k] s ∧
        (∀ j, j < k → enabled (stepState^[j] s) = true ∧ (stepState^[j] s).outlog = s.outlog) ∧
        (enabled t = false ∨ t.outlog ≠ s.outlog) ∧ t.outlog[s.outlog.length]? = v := by
  rw [runUntilOutputOrHalt, Option.map_eq_some_iff]
  constructor
  · rintro ⟨u, hu, hut⟩
    cases hut
    obtain ⟨k, hk, rfl, hstop, hbefore⟩ := runWhileSilent_steps hu
    exact ⟨k, hk, rfl, fun j hj => (hbefore j hj).imp_right (outlog_length_iterate j).mp,
      hstop.imp_right (outlog_length_iterate k).not.mp, rfl⟩
  · rintro ⟨k, hk, rfl, hbefore, hstop, rfl⟩
    exact ⟨_, runWhileSilent_of_steps hk (hstop.imp_right (outlog_length_iterate k).not.mpr)
      fun j hj => (hbefore j hj).imp_right (outlog_length_iterate j).mpr, rfl⟩

/-- After steps from states with the log as it was, at most one value has been appended. -/
theorem outlog_of_silent_steps {k : Nat} {s : State}
    (h : ∀ j, j < k → enabled (stepState^[j] s) = true ∧ (stepState^[j] s).outlog = s.outlog) :
    (stepState^[k] s).outlog = s.outlog ∨ ∃ x, (stepState^[k] s).outlog = s.outlog ++ [x] := by
  cases k with
  | zero => exact .inl rfl
  | succ k =>
    obtain ⟨-, hsilent⟩ := h k k.lt_succ_self
    rw [Function.iterate_succ_apply', ← hsilent]
    exact (outlog_of_step (step_stepState _)).imp_right fun ⟨_, _, x, _, _, hlog⟩ => ⟨x, hlog⟩

/-- Where at most one value has been appended, the run's stop and its answer are a new value, or a disabled core
and none. -/
theorem stop_iff_output_or_disabled {t : State} {log : List Word} {v : Option Word}
    (h : t.outlog = log ∨ ∃ x, t.outlog = log ++ [x]) :
    (enabled t = false ∨ t.outlog ≠ log) ∧ t.outlog[log.length]? = v ↔
      (∃ x, t.outlog = log ++ [x] ∧ v = some x) ∨ (t.outlog = log ∧ v = none ∧ enabled t = false) := by
  rcases h with hsame | ⟨x, hnew⟩
  · simp [hsame, and_comm, eq_comm (a := v)]
  · simp [hnew, eq_comm (a := v)]

/-- Settles O55: the run stops in the first state that is not enabled or whose log has changed, and the step
before it appended at most one value. -/
theorem runUntilOutputStopsFirst : Obligations.RunUntilOutputStopsFirst := by
  intro n s t v
  have hreply : hostCommand (.runUntilOutputOrHalt n) s = some (t, .statusAndOutput (status t) v) ↔
      runUntilOutputOrHalt n s = some (t, v) := by
    rw [hostCommand, Option.map_eq_some_iff]
    exact ⟨fun ⟨p, hp, hpt⟩ => by cases hpt; exact hp, fun ht => ⟨(t, v), ht, rfl⟩⟩
  rw [hreply, runUntilOutputOrHalt_eq_some]
  refine exists_congr fun k => and_congr_right fun _ => and_congr_right fun ht =>
    and_congr_right fun hbefore => stop_iff_output_or_disabled ?_
  exact ht ▸ outlog_of_silent_steps hbefore

end Sys2Proof.Machine
end

section
/-! The family Exceptions, fourth part: several cores under one host (rules R190, R191). A command replaces one
entry of the list of cores or adds one at its end. -/

namespace Sys2Proof.Machine

/-! ### What each command of the host does to a system -/

theorem systemCommand_on_eq_some {y z : System} {k : Nat} {c : HostCommand} {r : Reply}
    (h : systemCommand (.on k c) y = some (z, r)) :
    ∃ s t, y.cores[k]? = some s ∧ hostCommand c s = some (t, r) ∧ z.cores = y.cores.set k t := by
  rw [systemCommand] at h
  split at h
  · cases h
  · obtain ⟨⟨t, q⟩, ht, hz⟩ := Option.map_eq_some_iff.mp h
    cases hz
    exact ⟨_, t, ‹_›, ht, rfl⟩

theorem systemCommand_forward_eq_some {y z : System} {k l : Nat} {r : Reply}
    (h : systemCommand (.forward k l) y = some (z, r)) :
    ∃ s t v, y.cores[k]? = some s ∧ lastOutput s = some v ∧ y.cores[l]? = some t ∧
      z.cores = y.cores.set l { t with inq := t.inq ++ [v] } := by
  rw [systemCommand] at h
  split at h
  · split at h
    · cases h
    · obtain ⟨u, hu, hz⟩ := Option.map_eq_some_iff.mp h
      obtain ⟨-, rfl⟩ := enqueue_eq_some.mp hu
      cases hz
      exact ⟨_, _, _, ‹_›, ‹_›, ‹_›, rfl⟩
  · cases h

theorem systemCommand_snapshot_eq_some {y z : System} {k : Nat} {r : Reply}
    (h : systemCommand (.snapshot k) y = some (z, r)) :
    ∃ s, y.cores[k]? = some s ∧ z.cores = y.cores ++ [s] := by
  rw [systemCommand] at h
  split at h
  · cases h
  · cases h
    exact ⟨_, ‹_›, rfl⟩

theorem systemCommand_create_eq_some {y z : System} {cfg : Config} {image : List Word} {r : Reply}
    (h : systemCommand (.create cfg image) y = some (z, r)) :
    ∃ s, resetWith cfg image = some s ∧ z.cores = y.cores ++ [s] := by
  obtain ⟨s, hs, hz⟩ := Option.map_eq_some_iff.mp h
  cases hz
  exact ⟨s, hs, rfl⟩

/-- A core added at the end of the list leaves the others where and as they were. -/
theorem cores_append_singleton (l : List State) (s : State) :
    (l ++ [s]).length = l.length + 1 ∧ (∀ j, j < l.length → (l ++ [s])[j]? = l[j]?) ∧
      (l ++ [s])[l.length]? = some s :=
  ⟨List.length_append, fun _ hj => List.getElem?_append_left hj, List.getElem?_concat_length⟩

/-- Settles O56, command by command. -/
theorem instancesShareNothing : Obligations.InstancesShareNothing := by
  refine ⟨fun y z k c r h => ?_, fun y z k l r h => ?_, fun y z k r h => ?_, fun y z cfg image r h => ?_⟩
  · obtain ⟨s, t, -, -, hz⟩ := systemCommand_on_eq_some h
    rw [hz]
    exact ⟨List.length_set, fun j hj => List.getElem?_set_ne hj.symm⟩
  · obtain ⟨s, t, v, hs, hv, ht, hz⟩ := systemCommand_forward_eq_some h
    obtain ⟨hlt, -⟩ := List.getElem?_eq_some_iff.mp ht
    rw [hz]
    exact ⟨fun j hj => List.getElem?_set_ne hj.symm, s, t, v, hs, hv, ht, List.getElem?_set_self hlt⟩
  · obtain ⟨s, hs, hz⟩ := systemCommand_snapshot_eq_some h
    obtain ⟨hlen, hold, hnew⟩ := cores_append_singleton y.cores s
    rw [hz]
    exact ⟨hlen, hold, hnew.trans hs.symm, Option.isSome_of_mem hs⟩
  · obtain ⟨s, hs, hz⟩ := systemCommand_create_eq_some h
    obtain ⟨hlen, hold, hnew⟩ := cores_append_singleton y.cores s
    rw [hz]
    exact ⟨hlen, hold, s, hs, hnew⟩

end Sys2Proof.Machine
end

section
/-! The family Reset, first part: the state after a reset, with no image (rule R200, notes/assumptions/3.md) and
with one (notes/assumptions/14.md, notes/assumptions/24.md). -/

namespace Sys2Proof.Machine

/-! ### Reset without an image -/

/-- Settles O46: every register by the definition of `State.reset`, every cell because its memory lists none. -/
theorem resetLeavesTheSpecsValues : Obligations.ResetLeavesTheSpecsValues :=
  ⟨rfl, rfl, rfl, rfl, rfl, rfl, rfl, rfl, rfl, rfl, fun _ => rfl⟩

/-! ### Reset with an image -/

theorem resetWith_eq_none {cfg : Config} {P : List Word} :
    resetWith cfg P = none ↔ P = [] ∨ cfg.memCells < P.length := by
  rw [← List.length_eq_zero_iff]
  unfold resetWith
  split
  · simp only [reduceCtorEq, false_iff]; omega
  · simp only [true_iff]; omega

theorem exists_resetWith {cfg : Config} {P : List Word} (hne : P ≠ []) (hfits : P.length ≤ cfg.memCells) :
    ∃ s, resetWith cfg P = some s :=
  Option.ne_none_iff_exists'.mp fun h => (resetWith_eq_none.mp h).elim hne (Nat.not_lt.mpr hfits)

theorem read_image_of_lt {P : List Word} {a : Nat} (h : a < P.length) :
    (Memory.writeList [] 0 P).read a = P[a] := by
  rw [Memory.read_writeList rfl, if_pos (by omega), Nat.sub_zero, List.getD_eq_getElem _ _ h]

theorem read_image_of_le {P : List Word} {a : Nat} (h : P.length ≤ a) :
    (Memory.writeList [] 0 P).read a = 0 := by
  rw [Memory.read_writeList rfl, if_neg (by omega)]
  rfl

/-! ### The status of a running core with no value queued (R34) -/

theorem status_eq_awaitingInput_of_queue_empty {s : State} (hr : Running s) (hq : s.inq = []) :
    status s = .awaitingInput ↔ ∃ a u d, fetch s = .ok (.input a u) ∧ WritesTo s a d := by
  simp [status_eq_awaitingInput, hr, hq]

theorem status_eq_ready_of_running {s : State} (hr : Running s) (h : status s ≠ .awaitingInput) :
    status s = .ready := by
  obtain ⟨-, -, -, hready, -⟩ := statusLines s
  exact hready hr fun hwaits => h (status_eq_awaitingInput.mpr ⟨hr, hwaits⟩)

/-- Settles O47: the image's size decides whether there is a move; the state then given is the one
`resetWith_eq_some` writes out. -/
theorem constructionFromImage : Obligations.ConstructionFromImage := by
  intro cfg P
  refine ⟨resetWith_eq_none.mpr, fun hne hfits => ?_⟩
  obtain ⟨s, hs⟩ := exists_resetWith hne hfits
  have hinv : cfg.wf = true → s.Inv := fun hcfg => inv_of_resetWith hcfg hs
  have hcommand : ∀ t : State, t.cfg = cfg → hostCommand (.reset P) t = some (s, .done) := fun t ht => by
    rw [hostCommand, ht, hs, Option.map_some]
  refine ⟨s, hs, ?_⟩
  obtain ⟨-, rfl⟩ := resetWith_eq_some.mp hs
  exact ⟨rfl, fun _ => read_image_of_lt, fun _ => read_image_of_le, rfl, rfl, rfl, rfl, rfl, rfl, rfl, rfl,
    rfl, rfl, rfl, status_eq_awaitingInput_of_queue_empty ⟨rfl, rfl⟩ rfl,
    status_eq_ready_of_running ⟨rfl, rfl⟩, hinv, hcommand⟩

end Sys2Proof.Machine
end

section
/-! The family Reset, second part: the load of a program text (rule R203). A text has one list of pieces, so
what the load answers is read off the pieces; the text of a list of cells has the cells' own texts as pieces. -/

namespace Sys2Proof.Machine

/-! ### What the load answers -/

/-- A piece that denotes no value of a cell leaves a text without an image. -/
theorem load_of_malformed_piece {cfg : Config} {text : List Char} {pieces : List (List Char)}
    (h : SplitsInto text pieces) (hbad : ∃ p ∈ pieces, ¬ ∃ v, PieceDenotes p v ∧ FitsInt64 v) :
    load cfg text = none := by
  obtain ⟨p, hp, hbad⟩ := hbad
  have hnone : parseImage text = none := by
    rw [Option.eq_none_iff_forall_ne_some]
    intro P hP
    rw [parseImage_eq_some, splitAt_trimBlanks h] at hP
    have hboth : List.Forall₂
        (fun q (w : Word) => (∃ v, PieceDenotes q v ∧ FitsInt64 v) ∧ PieceDenotes q w.toInt) pieces P :=
      hP.imp fun _ w hw => ⟨⟨_, hw, toInt_bounds w⟩, hw⟩
    obtain ⟨hall, -⟩ := (List.forall₂_and_left pieces P).mp hboth
    exact hbad (hall p hp)
  rw [load, hnone]

/-- Pieces that denote cells make the load the reset with these cells. -/
theorem load_of_pieces {cfg : Config} {text : List Char} {pieces : List (List Char)} {P : List Word}
    (h : SplitsInto text pieces)
    (hP : List.Forall₂ (fun p (w : Word) => PieceDenotes p w.toInt) pieces P) :
    load cfg text = resetWith cfg P := by
  rw [← splitAt_trimBlanks h] at hP
  rw [load, parseImage_eq_some.mpr hP]

/-- Pieces that denote cells give an instance when the cells fit: a text has at least one piece. -/
theorem exists_load_of_pieces {cfg : Config} {text : List Char} {pieces : List (List Char)} {P : List Word}
    (h : SplitsInto text pieces)
    (hP : List.Forall₂ (fun p (w : Word) => PieceDenotes p w.toInt) pieces P)
    (hfits : P.length ≤ cfg.memCells) : ∃ s, load cfg text = some s ∧ resetWith cfg P = some s := by
  have hne : P ≠ [] := by
    rintro rfl
    have hnil : pieces = [] := List.forall₂_nil_right_iff.mp hP
    exact splitAt_ne_nil _ _ ((splitAt_trimBlanks h).trans hnil)
  obtain ⟨s, hs⟩ := exists_resetWith hne hfits
  exact ⟨s, (load_of_pieces h hP).trans hs, hs⟩

/-! ### The decimal text of a cell -/

theorem digitsDenote_toList_repr (n : Nat) : DigitsDenote n.repr.toList n := by
  rw [Nat.toList_repr]
  exact ⟨Nat.toDigits_ne_nil, fun _ hc => Nat.isDigit_of_mem_toDigits (by decide) le_rfl hc,
    Nat.ofDigitChars_ten_toDigits.symm⟩

/-- The library's decimal text of a negative integer is a minus sign and the digits of its magnitude. -/
theorem cellText_denotes (w : Word) : PieceDenotes (cellText w) w.toInt := by
  have hrepr : cellText w = w.toInt.repr.toList := rfl
  rw [hrepr, Int.repr_eq_if]
  split
  · exact .inl ⟨_, digitsDenote_toList_repr _, by omega⟩
  · exact .inr ⟨_, _, by rw [String.toList_append]; rfl, digitsDenote_toList_repr _, by omega⟩

/-! ### The text of a list of cells -/

theorem char_of_pieceDenotes {p : List Char} {v : Int} (h : PieceDenotes p v) {c : Char} (hc : c ∈ p) :
    c.isDigit = true ∨ c = '-' := by
  rcases h with ⟨n, ⟨-, hd, -⟩, -⟩ | ⟨ds, n, rfl, ⟨-, hd, -⟩, -⟩
  · exact .inl (hd c hc)
  · rcases List.mem_cons.mp hc with rfl | hc
    · exact .inr rfl
    · exact .inl (hd c hc)

theorem comma_not_mem_of_pieceDenotes {p : List Char} {v : Int} (h : PieceDenotes p v) : ',' ∉ p :=
  fun hc => absurd (char_of_pieceDenotes h hc) (by decide)

theorem not_isWhite_of_pieceDenotes {p : List Char} {v : Int} (h : PieceDenotes p v) {c : Char} (hc : c ∈ p) :
    ¬ IsWhite c := by
  rintro (rfl | rfl | rfl | rfl) <;> exact absurd (char_of_pieceDenotes h hc) (by decide)

/-- A character of joined pieces is a comma or stands in a piece. -/
theorem mem_joinPieces {c : Char} : ∀ {pieces : List (List Char)}, c ∈ joinPieces pieces →
    c = ',' ∨ ∃ p ∈ pieces, c ∈ p
  | [], h => by simp [joinPieces] at h
  | [p], h => .inr ⟨p, by simp, by rwa [joinPieces_singleton] at h⟩
  | p :: q :: ps, h => by
    rw [joinPieces_cons_cons, List.mem_append, List.mem_cons] at h
    rcases h with h | rfl | h
    · exact .inr ⟨p, by simp, h⟩
    · exact .inl rfl
    · exact (mem_joinPieces h).imp_right fun ⟨r, hr, hc⟩ => ⟨r, List.mem_cons_of_mem p hr, hc⟩

/-- Pieces that denote integers, joined by commas, hold no white space, so nothing is trimmed and the commas
between them are all there are. -/
theorem splitsInto_joinPieces {pieces : List (List Char)} (hne : pieces ≠ [])
    (h : ∀ p ∈ pieces, ∃ v, PieceDenotes p v) : SplitsInto (joinPieces pieces) pieces := by
  have hblack : ∀ c ∈ joinPieces pieces, ¬ IsWhite c := fun c hc => by
    rcases mem_joinPieces hc with rfl | ⟨p, hp, hcp⟩
    · unfold IsWhite; decide
    · obtain ⟨v, hv⟩ := h p hp
      exact not_isWhite_of_pieceDenotes hv hcp
  exact ⟨[], [], by simp, by simp, by simp, fun c hc => hblack c (List.mem_of_mem_head? hc),
    fun c hc => hblack c (List.mem_of_getLast? hc), hne,
    fun p hp => (h p hp).elim fun _ hv => comma_not_mem_of_pieceDenotes hv⟩

theorem splitsInto_cellTexts {P : List Word} (hne : P ≠ []) :
    SplitsInto (joinPieces (P.map cellText)) (P.map cellText) :=
  splitsInto_joinPieces (List.map_eq_nil_iff.not.mpr hne) fun _ hp => by
    obtain ⟨w, -, rfl⟩ := List.mem_map.mp hp
    exact ⟨_, cellText_denotes w⟩

theorem cellTexts_denote (P : List Word) :
    List.Forall₂ (fun p (w : Word) => PieceDenotes p w.toInt) (P.map cellText) P :=
  List.forall₂_map_left_iff.mpr (List.forall₂_same.mpr fun w _ => cellText_denotes w)

/-- Settles O57: a text has the pieces the load works on and no others, and the load is decided by them. -/
theorem loadRefusesMalformedText : Obligations.LoadRefusesMalformedText := by
  intro cfg
  refine ⟨fun text => ⟨_, splitsInto_load text⟩, fun text pieces h => ?_, fun P hne hfits => ?_⟩
  · refine ⟨load_of_malformed_piece h, fun P hP => ⟨fun hlong => ?_, exists_load_of_pieces h hP⟩⟩
    rw [load_of_pieces h hP, resetWith_eq_none]
    exact .inr hlong
  · exact exists_load_of_pieces (splitsInto_cellTexts hne) (cellTexts_denote P) hfits

end Sys2Proof.Machine
end
